-- ==== Sys2Proof/Word.lean ====
section
/-! DEFINITION. The widths of the core's values (00_scope.md R7, R9; 30_encoding.md R80). Every value is unsigned;
word addition is `BitVec` addition, which is addition modulo 2^32 (R10). -/

namespace Sys2Proof

/-- An unsigned 32-bit word (00_scope.md R7, WORD_BITS). -/
abbrev Word := BitVec 32

/-- One message or padding byte. -/
abbrev Byte := BitVec 8

/-- A host transaction word, format HT (30_encoding.md R81): RW in bit 36, OFF in bits 35:32, DATA in bits 31:0. -/
abbrev HTWord := BitVec 37

/-- A sequencer word, format SEQ (30_encoding.md R82): PHASE in bits 9:6, T in bits 5:0. -/
abbrev SeqWord := BitVec 10

end Sys2Proof
end

