-- ==== Sys2Proof/Config.lean ====
section
/-! DEFINITION. The parameters the spec leaves open (00_scope.md R8): constants without a body, so that no proof can
see a value of them. -/

namespace Sys2Proof.Config

/-- Which 64-byte window of the platform's address space is this core's. The spec leaves it open (20_memory.md R51). -/
opaque baseIndex : Nat

/-- `BASE`, the byte address of the register window, "aligned to 64 bytes" (20_memory.md R51; 92_eei_decisions.md D2). -/
def BASE : Nat := 64 * baseIndex

/-- `CYCLES_PER_STEP` (00_scope.md R8; 92_eei_decisions.md D16): "no rule depends on it", and no step reads it. -/
opaque CYCLES_PER_STEP : Nat

end Sys2Proof.Config
end

