-- ==== Sys2Proof/Syntax.lean ====
section
/-! DEFINITION. The instructions: one constructor for each row of spec/opcode_table.json. Operands are the fields of
the row (30_encoding.md R83). A field `x` is one the core ignores; it is kept so that an instruction determines its
word and a word its instruction (log entry 9). -/

namespace Sys2Proof

inductive Instr where
  /-- NOP, 41_host_commands.md R132. -/
  | nop
  /-- INIT, R133. -/
  | init
  /-- FINAL, R134. -/
  | final
  /-- ILLCMD, R135: `v` is the written value, any but 0, 1 and 2. -/
  | illcmd (v : Word)
  /-- WIGN_STATUS, R152. -/
  | wignStatus (x : Word)
  /-- PUTB, R140: `b` is DATA[7:0], `x` is the ignored DATA[31:8]. -/
  | putb (x : BitVec 24) (b : Byte)
  /-- PUTW, R141. -/
  | putw (w : Word)
  /-- WIGN_LEN_RSV, R152: `o` is OFF[1:0]. -/
  | wignLenRsv (o : BitVec 2) (x : Word)
  /-- WIGN_DIGEST, R152: `k` is OFF[2:0]. -/
  | wignDigest (k : BitVec 3) (x : Word)
  /-- RDCTRL, R149. -/
  | rdctrl (x : Word)
  /-- RSTAT, R145. -/
  | rstat (x : Word)
  /-- RDDATA, R149: `o` is OFF[0], 0 DATA_B, 1 DATA_W. -/
  | rddata (o : BitVec 1) (x : Word)
  /-- RLENLO, R146. -/
  | rlenlo (x : Word)
  /-- RLENHI, R147. -/
  | rlenhi (x : Word)
  /-- RRSV, R150: `o` is OFF[0]. -/
  | rrsv (o : BitVec 1) (x : Word)
  /-- RDIG, R148: `k` is OFF[2:0]. -/
  | rdig (k : BitVec 3) (x : Word)
  /-- PAD, 42_padder.md R160. -/
  | pad
  /-- PADLEN, R161. -/
  | padlen
  /-- LOAD, 43_parser.md R180. -/
  | load
  /-- EXPAND t, 44_schedule.md R190: 16 ≤ t. -/
  | expand (t : BitVec 6)
  /-- WINIT, 45_compression.md R201. -/
  | winit
  /-- ROUND t, R202. -/
  | round (t : BitVec 6)
  /-- FOLD, R203. -/
  | fold
deriving DecidableEq, Repr

/-- Whether an instruction is a host transaction (format HT) or a micro-operation of the core (format SEQ):
30_encoding.md R80, "a decoder knows the length from the agent". -/
def Instr.isHost : Instr → Bool
  | .nop | .init | .final | .illcmd _ | .wignStatus _ | .putb _ _ | .putw _ | .wignLenRsv _ _ | .wignDigest _ _ => true
  | .rdctrl _ | .rstat _ | .rddata _ _ | .rlenlo _ | .rlenhi _ | .rrsv _ _ | .rdig _ _ => true
  | .pad | .padlen | .load | .expand _ | .winit | .round _ | .fold => false

end Sys2Proof
end

