-- ==== Sys2Proof/WellFormed.lean ====
section
/-! DEFINITION. Which instructions the encodings admit. Every operand but two has exactly the values its field has. -/

namespace Sys2Proof

/-- ILLCMD is a CTRL write of any value but 0, 1 and 2 (41_host_commands.md R135); EXPAND has t = 16..63
(30_encoding.md R85, R87). -/
def Instr.wf : Instr → Bool
  | .illcmd v => v != 0 && v != 1 && v != 2
  | .expand t => 16 ≤ t.toNat
  | .nop | .init | .final | .wignStatus _ | .putb _ _ | .putw _ | .wignLenRsv _ _ | .wignDigest _ _ => true
  | .rdctrl _ | .rstat _ | .rddata _ _ | .rlenlo _ | .rlenhi _ | .rrsv _ _ | .rdig _ _ => true
  | .pad | .padlen | .load | .winit | .round _ | .fold => true

end Sys2Proof
end

