-- ==== Sys2Proof/Decode.lean ====
section
/-! DEFINITION. The two decoders (30_encoding.md R84, R85) and the encoder. The HT decoder is total; the SEQ decoder
rejects by name the words that select no micro-operation and the words the spec leaves unspecified. -/

namespace Sys2Proof

/-! ## Fields (R81, R82) -/

/-- RW: 1 is BusWrite, 0 is BusRead. -/
def htRW (w : HTWord) : BitVec 1 := w.extractLsb' 36 1

/-- OFF, the word offset. -/
def htOFF (w : HTWord) : BitVec 4 := w.extractLsb' 32 4

/-- DATA, the write data. -/
def htDATA (w : HTWord) : Word := w.extractLsb' 0 32

/-- The HT word with these fields. -/
def htWord (rw : BitVec 1) (off : BitVec 4) (data : Word) : HTWord := rw ++ off ++ data

/-- PHASE of a sequencer word. -/
def seqPHASE (w : SeqWord) : BitVec 4 := w.extractLsb' 6 4

/-- T of a sequencer word. -/
def seqT (w : SeqWord) : BitVec 6 := w.extractLsb' 0 6

/-- The sequencer word `PHASE ++ T`. -/
def seqWord (phase : BitVec 4) (t : BitVec 6) : SeqWord := phase ++ t

/-! ## HT decode (R84) -/

/-- A CTRL write: 0 NOP, 1 INIT, 2 FINAL, any other value ILLCMD (R84, R86). -/
def decodeCTRL (data : Word) : Instr :=
  if data = 0 then .nop
  else if data = 1 then .init
  else if data = 2 then .final
  else .illcmd data

/-- The rows of R84 with RW = 1. -/
def decodeWrite (off : BitVec 4) (data : Word) : Instr :=
  if off = 0b0000 then decodeCTRL data
  else if off = 0b0001 then .wignStatus data
  else if off = 0b0010 then .putb (data.extractLsb' 8 24) (data.extractLsb' 0 8)
  else if off = 0b0011 then .putw data
  else if off.extractLsb' 2 2 = 0b01 then .wignLenRsv (off.extractLsb' 0 2) data
  else .wignDigest (off.extractLsb' 0 3) data

/-- The rows of R84 with RW = 0. -/
def decodeRead (off : BitVec 4) (data : Word) : Instr :=
  if off = 0b0000 then .rdctrl data
  else if off = 0b0001 then .rstat data
  else if off.extractLsb' 1 3 = 0b001 then .rddata (off.extractLsb' 0 1) data
  else if off = 0b0100 then .rlenlo data
  else if off = 0b0101 then .rlenhi data
  else if off.extractLsb' 1 3 = 0b011 then .rrsv (off.extractLsb' 0 1) data
  else .rdig (off.extractLsb' 0 3) data

/-- R84: "Every one of the 2^37 HT words decodes to exactly one row: the decoder is total." -/
def decodeHT (w : HTWord) : Instr :=
  if htRW w = 1 then decodeWrite (htOFF w) (htDATA w) else decodeRead (htOFF w) (htDATA w)

/-! ## SEQ decode (R85, R87) -/

/-- Why a sequencer word names no micro-operation. -/
inductive SeqReject where
  /-- PHASE is IDLE, OPEN or DONE with T = 0: "none: the core has no step" (R85). -/
  | noMicroOp
  /-- PHASE 10..15, or T out of range for its PHASE: "not specified; a model refuses such a state" (R87). -/
  | unspecified
deriving DecidableEq, Repr

/-- R85, by the PHASE and T of the word. -/
def decodePhaseT (phase : BitVec 4) (t : BitVec 6) : Except SeqReject Instr :=
  if phase = 0b0110 then (if 16 ≤ t.toNat then .ok (.expand t) else .error .unspecified)
  else if phase = 0b1000 then .ok (.round t)
  else if t ≠ 0 then .error .unspecified
  else if phase = 0b0000 ∨ phase = 0b0001 ∨ phase = 0b0010 then .error .noMicroOp
  else if phase = 0b0011 then .ok .pad
  else if phase = 0b0100 then .ok .padlen
  else if phase = 0b0101 then .ok .load
  else if phase = 0b0111 then .ok .winit
  else if phase = 0b1001 then .ok .fold
  else .error .unspecified

/-- The decoder of sequencer words. -/
def decodeSEQ (w : SeqWord) : Except SeqReject Instr := decodePhaseT (seqPHASE w) (seqT w)

/-! ## Both formats, and the encoder -/

/-- An encoded step: "every host step is one HT word, every core step is one SEQ word" (R80). -/
inductive Encoded where
  | ht (w : HTWord)
  | seq (w : SeqWord)
deriving DecidableEq, Repr

/-- The decoder of either format. -/
def decode : Encoded → Except SeqReject Instr
  | .ht w => .ok (decodeHT w)
  | .seq w => decodeSEQ w

/-- The word of an instruction, from the `encoding` column of spec/opcode_table.json. -/
def encode : Instr → Encoded
  | .nop => .ht (htWord 1 0b0000 0)
  | .init => .ht (htWord 1 0b0000 1)
  | .final => .ht (htWord 1 0b0000 2)
  | .illcmd v => .ht (htWord 1 0b0000 v)
  | .wignStatus x => .ht (htWord 1 0b0001 x)
  | .putb x b => .ht (htWord 1 0b0010 (x ++ b))
  | .putw w => .ht (htWord 1 0b0011 w)
  | .wignLenRsv o x => .ht (htWord 1 (0b01#2 ++ o) x)
  | .wignDigest k x => .ht (htWord 1 (0b1#1 ++ k) x)
  | .rdctrl x => .ht (htWord 0 0b0000 x)
  | .rstat x => .ht (htWord 0 0b0001 x)
  | .rddata o x => .ht (htWord 0 (0b001#3 ++ o) x)
  | .rlenlo x => .ht (htWord 0 0b0100 x)
  | .rlenhi x => .ht (htWord 0 0b0101 x)
  | .rrsv o x => .ht (htWord 0 (0b011#3 ++ o) x)
  | .rdig k x => .ht (htWord 0 (0b1#1 ++ k) x)
  | .pad => .seq (seqWord 0b0011 0)
  | .padlen => .seq (seqWord 0b0100 0)
  | .load => .seq (seqWord 0b0101 0)
  | .expand t => .seq (seqWord 0b0110 t)
  | .winit => .seq (seqWord 0b0111 0)
  | .round t => .seq (seqWord 0b1000 t)
  | .fold => .seq (seqWord 0b1001 0)

/-! ## The table's numbering

A row of 10 bits (16 in whole bytes) is a sequencer word, a row of 37 bits (40 in whole bytes) an HT word. -/

/-- The encoded step whose bits are `w`: none where a bit above the format's width is set. -/
def tableWord (nbits w : Nat) : Option Encoded :=
  if nbits ≤ 16 then (if w < 2 ^ 10 then some (.seq (BitVec.ofNat 10 w)) else none)
  else (if w < 2 ^ 37 then some (.ht (BitVec.ofNat 37 w)) else none)

/-- The instruction the decoder reads from a word of the opcode table. -/
def decodeTableWord (nbits w : Nat) : Option Instr :=
  match tableWord nbits w with
  | none => none
  | some e =>
    match decode e with
    | .ok i => some i
    | .error _ => none

end Sys2Proof
end

