-- ==== Sys2Proof/Machine/Phases.lean ====
section
/-! DEFINITION. The phase codes of the sequencer (10_state.md R28) and BUSY. -/

namespace Sys2Proof.Machine

/-- PHASE, 4 bits: a register with ten named codes and six reserved ones. -/
abbrev Phase := BitVec 4

/-- "after reset, no message opened" -/
abbrev Phase.IDLE : Phase := 0
/-- "a message is open and accepts data and FINAL" -/
abbrev Phase.OPEN : Phase := 1
/-- "the digest of the last message is in H" -/
abbrev Phase.DONE : Phase := 2
/-- "first padding step pending" -/
abbrev Phase.PAD : Phase := 3
/-- "length-only padding block pending" -/
abbrev Phase.PADLEN : Phase := 4
/-- "a full block is in BUF, to be parsed" -/
abbrev Phase.LOAD : Phase := 5
/-- "schedule word W[T] to derive, T = 16..63" -/
abbrev Phase.EXPAND : Phase := 6
/-- "working registers to load from H" -/
abbrev Phase.WINIT : Phase := 7
/-- "round T to perform, T = 0..63" -/
abbrev Phase.ROUND : Phase := 8
/-- "state fold pending" -/
abbrev Phase.FOLD : Phase := 9

/-- `BUSY = (PHASE ∈ {PAD, PADLEN, LOAD, EXPAND, WINIT, ROUND, FOLD})`. -/
def Phase.busy (p : Phase) : Bool :=
  p = PAD ∨ p = PADLEN ∨ p = LOAD ∨ p = EXPAND ∨ p = WINIT ∨ p = ROUND ∨ p = FOLD

/-- Whether the spec gives the sequencer state `(p, t)` a meaning (30_encoding.md R85 against R87). -/
def seqSpecified (p : Phase) (t : BitVec 6) : Bool :=
  match decodeSEQ (seqWord p t) with
  | .ok _ => true
  | .error .noMicroOp => true
  | .error .unspecified => false

end Sys2Proof.Machine
end

