-- ==== Sys2Proof/Machine/Primitives.lean ====
section
/-! DEFINITION. The combinational functions of the datapath and the constant tables (40_primitives.md). None reads or
writes state, raises an error or sets a flag; word addition is `+` on `Word` (R108, R109). -/

namespace Sys2Proof.Machine

/-! ## Rotate and shift -/

/-- `ROTR(n,x) = (x >> n) | (x << (32-n))` (R100). ROTR by 0 and by 32 "are not defined by this spec": the amount
comes with a proof that it is in 1..31 (log entry 12). -/
def rotr (n : Nat) (_range : 0 < n ∧ n < 32) (x : Word) : Word := (x >>> n) ||| (x <<< (32 - n))

/-- `SHR(n,x) = x >> n`, zero fill (R101). -/
def shr (n : Nat) (x : Word) : Word := x >>> n

/-! ## Choice and majority -/

/-- `Ch(x, y, z) = (x & y) ^ (~x & z)` (R102). -/
def ch (x y z : Word) : Word := (x &&& y) ^^^ (~~~x &&& z)

/-- `Maj(x, y, z) = (x & y) ^ (x & z) ^ (y & z)` (R103). -/
def maj (x y z : Word) : Word := (x &&& y) ^^^ (x &&& z) ^^^ (y &&& z)

/-! ## The sigma functions -/

/-- Upper-case sigma 0 (R104). -/
def bigSigma0 (x : Word) : Word := rotr 2 (by decide) x ^^^ rotr 13 (by decide) x ^^^ rotr 22 (by decide) x

/-- Upper-case sigma 1 (R105). -/
def bigSigma1 (x : Word) : Word := rotr 6 (by decide) x ^^^ rotr 11 (by decide) x ^^^ rotr 25 (by decide) x

/-- Lower-case sigma 0 (R106). -/
def smallSigma0 (x : Word) : Word := rotr 7 (by decide) x ^^^ rotr 18 (by decide) x ^^^ shr 3 x

/-- Lower-case sigma 1 (R107). -/
def smallSigma1 (x : Word) : Word := rotr 17 (by decide) x ^^^ rotr 19 (by decide) x ^^^ shr 10 x

/-! ## Constant tables

The round constants `K[0..63]` (R110), the table's own rows, each named after its first index. -/

def K0 : Vector Word 8 := #v[0x428a2f98, 0x71374491, 0xb5c0fbcf, 0xe9b5dba5,
  0x3956c25b, 0x59f111f1, 0x923f82a4, 0xab1c5ed5]
def K8 : Vector Word 8 := #v[0xd807aa98, 0x12835b01, 0x243185be, 0x550c7dc3,
  0x72be5d74, 0x80deb1fe, 0x9bdc06a7, 0xc19bf174]
def K16 : Vector Word 8 := #v[0xe49b69c1, 0xefbe4786, 0x0fc19dc6, 0x240ca1cc,
  0x2de92c6f, 0x4a7484aa, 0x5cb0a9dc, 0x76f988da]
def K24 : Vector Word 8 := #v[0x983e5152, 0xa831c66d, 0xb00327c8, 0xbf597fc7,
  0xc6e00bf3, 0xd5a79147, 0x06ca6351, 0x14292967]
def K32 : Vector Word 8 := #v[0x27b70a85, 0x2e1b2138, 0x4d2c6dfc, 0x53380d13,
  0x650a7354, 0x766a0abb, 0x81c2c92e, 0x92722c85]
def K40 : Vector Word 8 := #v[0xa2bfe8a1, 0xa81a664b, 0xc24b8b70, 0xc76c51a3,
  0xd192e819, 0xd6990624, 0xf40e3585, 0x106aa070]
def K48 : Vector Word 8 := #v[0x19a4c116, 0x1e376c08, 0x2748774c, 0x34b0bcb5,
  0x391c0cb3, 0x4ed8aa4a, 0x5b9cca4f, 0x682e6ff3]
def K56 : Vector Word 8 := #v[0x748f82ee, 0x78a5636f, 0x84c87814, 0x8cc70208,
  0x90befffa, 0xa4506ceb, 0xbef9a3f7, 0xc67178f2]

/-- The whole table. -/
def KTable : Vector Word 64 := K0 ++ K8 ++ K16 ++ K24 ++ K32 ++ K40 ++ K48 ++ K56

/-- `K[t]`. -/
def K (t : BitVec 6) : Word := KTable[t.toNat]

/-- The initial hash value `IV[0..7]` (R111). -/
def IV : Vector Word 8 := #v[0x6A09E667, 0xBB67AE85, 0x3C6EF372, 0xA54FF53A,
  0x510E527F, 0x9B05688C, 0x1F83D9AB, 0x5BE0CD19]

end Sys2Proof.Machine
end

