-- ==== Sys2Proof/Machine/State.lean ====
section
/-! DEFINITION. The state of one core instance (10_state.md R20) and the environment's side of a run: the events still
to come and the read-data port. -/

namespace Sys2Proof.Machine

/-- The eight working registers `(a, b, c, d, e, f, g, h)` (10_state.md R23; 00_scope.md R13). -/
structure Work where
  a : Word
  b : Word
  c : Word
  d : Word
  e : Word
  f : Word
  g : Word
  h : Word
deriving DecidableEq, Repr

/-- The five sticky error bits (10_state.md R31). -/
structure Errors where
  /-- ERR_SEQ, STATUS[8]. -/
  seq : Bool
  /-- ERR_BUSY, STATUS[9]. -/
  busy : Bool
  /-- ERR_LEN, STATUS[10]. -/
  len : Bool
  /-- ERR_CMD, STATUS[11]. -/
  cmd : Bool
  /-- ERR_ALIGN, STATUS[12]. -/
  align : Bool
deriving DecidableEq, Repr

/-- The name of one error bit, the operand of `raise` (60_exceptions.md R231). -/
inductive ErrBit where
  | seq
  | busy
  | len
  | cmd
  | align
deriving DecidableEq, Repr

/-- The width of a bus access (20_memory.md R56): 8, 16 or 32 bits. -/
inductive AccessWidth where
  | byte
  | half
  | word
deriving DecidableEq, Repr

/-- A bus access as the platform makes it: a direction, a byte address, a width, the write data (20_memory.md R51, R56). -/
structure BusAccess where
  write : Bool
  addr : Nat
  width : AccessWidth
  data : Word
deriving DecidableEq, Repr

/-- One event of the environment (20_memory.md R53, R60; log entry 2). -/
inductive Event where
  /-- The host presents one transaction at the ports (`sel` = 1): a host step. -/
  | txn (w : HTWord)
  /-- The host makes a bus access by byte address, which BASE turns into a transaction. -/
  | access (a : BusAccess)
  /-- No transaction is presented: the core's turn, a core step if BUSY. -/
  | core
  /-- `rst` = 1 at a clock edge, with the transaction presented in that cycle, if any (70_reset_and_hazards.md R260). -/
  | reset (presented : Option HTWord)
deriving DecidableEq, Repr

/-- Everything the spec gives the machine (10_state.md R20), and the environment's side of the run. -/
structure State where
  /-- The hash state H[0..7] (R22). -/
  H : Vector Word 8
  /-- The working registers a..h (R23). -/
  wr : Work
  /-- The message schedule W[0..63] (R24). -/
  W : Vector Word 64
  /-- The block buffer BUF[0..63] (R25). -/
  BUF : Vector Byte 64
  /-- The number of message bytes in BUF for the current block (R26). -/
  CNT : BitVec 6
  /-- The bit length of the message accepted so far (R27). -/
  LEN : BitVec 64
  /-- The sequencer's phase (R28). -/
  PHASE : Phase
  /-- The sequencer's round or schedule index (R28). -/
  T : BitVec 6
  /-- "the block in BUF is the final block of the padded message" (R30). -/
  LAST : Bool
  /-- "after the current block, a length-only padding block must follow" (R30). -/
  LENPEND : Bool
  /-- ERR_SEQ, ERR_BUSY, ERR_LEN, ERR_CMD, ERR_ALIGN (R31). -/
  err : Errors
  /-- MODEL'S OWN (log entry 4): the port `rdata` (20_memory.md R53), `some` exactly after a step that read. -/
  rdata : Option Word
  /-- MODEL'S OWN (log entry 2): the events still to come, first one first. -/
  inputs : List Event
deriving DecidableEq, Repr

/-- Why the machine is stuck. -/
inductive Fault where
  /-- A sub-word or misaligned bus access (raised by `step` on an `access` event): "the model has no step for it (the
  host is stuck)" (20_memory.md R56). Safe: the model stops. -/
  | busAccessNotAdmitted
deriving DecidableEq, Repr

/-- Why the model gives a step no meaning. -/
inductive Refusal where
  /-- An instruction without a meaning in this model; raised by `exec` alone. Safe. No arm raises it. -/
  | notModelled (mnemonic : String)
  /-- PHASE 10..15, or T out of range for its PHASE: "a model refuses such a state" (30_encoding.md R87). Raised by
  `step`, and by EXPAND t for t below 16. Safe: the model stops. -/
  | unspecifiedSequencerState
  /-- A bus access outside this core's window: "whatever selects the window is the platform's" (20_memory.md R51).
  Raised by `step` on an `access` event. Safe: the model stops. -/
  | outsideWindow
deriving DecidableEq, Repr

/-- What a step or a meaning answers. -/
abbrev Result := Host.Outcome State Fault Refusal

/-- The reset state (10_state.md R43). The spec leaves a..h, W and BUF unspecified: zero is the model's choice
(DESIGN CHOICE, log entry 1). -/
def State.reset : State where
  H := IV
  wr := { a := 0, b := 0, c := 0, d := 0, e := 0, f := 0, g := 0, h := 0 }
  W := Vector.replicate 64 0
  BUF := Vector.replicate 64 0
  CNT := 0
  LEN := 0
  PHASE := Phase.IDLE
  T := 0
  LAST := false
  LENPEND := false
  err := { seq := false, busy := false, len := false, cmd := false, align := false }
  rdata := none
  inputs := []

end Sys2Proof.Machine
end

