-- ==== Sys2Proof/Machine/Operands.lean ====
section
/-! DEFINITION. Byte and word assembly (00_scope.md R11), the length limit, the index operands of the datapath, and the
operand form of the bus: a byte address turned into a word offset (20_memory.md R51, R56). -/

namespace Sys2Proof.Machine

/-! ## Bytes and words -/

/-- `be32(b0, b1, b2, b3) = b0 ++ b1 ++ b2 ++ b3`, most significant byte first (R11). -/
def be32 (b0 b1 b2 b3 : Byte) : Word := b0 ++ b1 ++ b2 ++ b3

/-- `bytes32(w)` is `w[31:24], w[23:16], w[15:8], w[7:0]` (R11). -/
def bytes32 (w : Word) : List Byte :=
  [w.extractLsb' 24 8, w.extractLsb' 16 8, w.extractLsb' 8 8, w.extractLsb' 0 8]

/-- Byte `j` of `be64bytes(L)`, which is `L[63:56], L[55:48], ..., L[7:0]` (R11): `j` = 0 is the most significant. -/
def be64byte (l : BitVec 64) (j : Nat) : Byte := l.extractLsb' (56 - 8 * j) 8

/-- `be64bytes(L)` (R11). -/
def be64bytes (l : BitVec 64) : List Byte := (List.range 8).map (be64byte l)

/-! ## The message length -/

/-- `LEN_MAX = 2^64 − 8` (00_scope.md R8; 41_host_commands.md R130), a natural number: "comparisons with it are on
unbounded naturals". -/
def LEN_MAX : Nat := 2 ^ 64 - 8

/-! ## Indexed registers -/

/-- `W[i]`, for an index computed from T. Every index the rules use is below 64 (44_schedule.md R190). -/
def State.w (s : State) (i : Nat) (h : i < 64) : Word := s.W[i]

/-- `H[k]`, k = OFF[2:0] (41_host_commands.md R148). -/
def State.digest (s : State) (k : BitVec 3) : Word := s.H[k.toNat]

/-! ## Bus accesses -/

/-- The access falls into this core's window of 64 bytes at BASE (R51). -/
def BusAccess.inWindow (a : BusAccess) : Bool := Config.BASE ≤ a.addr ∧ a.addr < Config.BASE + 64

/-- "The core admits only 32-bit transactions at byte addresses with `addr[1:0] = 0`" (R56). -/
def BusAccess.admitted (a : BusAccess) : Bool := a.width = .word ∧ a.addr % 4 = 0

/-- The transaction an admitted access presents: "The core decodes only address bits [5:2] (= off)" (R51). -/
def BusAccess.toHT (a : BusAccess) : HTWord :=
  htWord (if a.write then 1 else 0) (BitVec.ofNat 4 (a.addr / 4)) a.data

end Sys2Proof.Machine
end

