-- ==== Sys2Proof/Machine/Flags.lean ====
section
/-! DEFINITION. The flags (10_state.md R33): BUSY, DONE, READY as functions of PHASE, the sticky error bits, and the
STATUS word (R37). No datapath operation writes a flag (40_primitives.md R109). -/

namespace Sys2Proof.Machine

/-- BUSY (R28, R37). -/
def State.busy (s : State) : Bool := s.PHASE.busy

/-- DONE: "1 iff PHASE = DONE" (R37). -/
def State.done (s : State) : Bool := s.PHASE = Phase.DONE

/-- READY: "1 iff PHASE = OPEN" (R37). -/
def State.ready (s : State) : Bool := s.PHASE = Phase.OPEN

/-- Read one error bit. -/
def Errors.get (e : Errors) : ErrBit → Bool
  | .seq => e.seq
  | .busy => e.busy
  | .len => e.len
  | .cmd => e.cmd
  | .align => e.align

/-- `ERR_X <- 1`; the other bits stay (60_exceptions.md R231). -/
def Errors.set (e : Errors) : ErrBit → Errors
  | .seq => { e with seq := true }
  | .busy => { e with busy := true }
  | .len => { e with len := true }
  | .cmd => { e with cmd := true }
  | .align => { e with align := true }

/-- All five bits 0. -/
def Errors.none : Errors := { seq := false, busy := false, len := false, cmd := false, align := false }

/-- The "cause code" of an error, its STATUS bit number (60_exceptions.md R230, R232 to R237). -/
def ErrBit.code : ErrBit → Nat
  | .seq => 8
  | .busy => 9
  | .len => 10
  | .cmd => 11
  | .align => 12

/-- A bit as a word. -/
def bitWord (b : Bool) : Word := if b then 1 else 0

/-- STATUS, by the pseudocode of R37. -/
def State.status (s : State) : Word :=
  (s.CNT.setWidth 32 <<< 16) ||| (bitWord s.err.align <<< 12) ||| (bitWord s.err.cmd <<< 11) |||
    (bitWord s.err.len <<< 10) ||| (bitWord s.err.busy <<< 9) ||| (bitWord s.err.seq <<< 8) |||
    (s.PHASE.setWidth 32 <<< 4) ||| (bitWord s.ready <<< 2) ||| (bitWord s.done <<< 1) ||| bitWord s.busy

end Sys2Proof.Machine
end

