-- ==== Sys2Proof/Machine/Ops.lean ====
section
/-! DEFINITION. The named updates of State and the operations the meanings share: `raise`, the core's one form of
exception (60_exceptions.md R230, R231); a read; appending message bytes; the three ways BUF is padded; parsing a
block; one round; the fold. -/

namespace Sys2Proof.Machine

/-! ## Updates of one register -/

def State.setH (s : State) (v : Vector Word 8) : State := { s with H := v }
def State.setWr (s : State) (v : Work) : State := { s with wr := v }
def State.setW (s : State) (v : Vector Word 64) : State := { s with W := v }
def State.setBUF (s : State) (v : Vector Byte 64) : State := { s with BUF := v }
def State.setCNT (s : State) (v : BitVec 6) : State := { s with CNT := v }
def State.setLEN (s : State) (v : BitVec 64) : State := { s with LEN := v }
def State.setPHASE (s : State) (v : Phase) : State := { s with PHASE := v }
def State.setT (s : State) (v : BitVec 6) : State := { s with T := v }
def State.setLAST (s : State) (v : Bool) : State := { s with LAST := v }
def State.setLENPEND (s : State) (v : Bool) : State := { s with LENPEND := v }
def State.setErr (s : State) (v : Errors) : State := { s with err := v }
def State.setRdata (s : State) (v : Option Word) : State := { s with rdata := v }
def State.setInputs (s : State) (v : List Event) : State := { s with inputs := v }

/-! ## Refusing a write: the core's only exception (60_exceptions.md R230, R231, R242, R243)

There is no trap entry and no return: nothing is saved, control does not move, and only INIT and reset clear a bit. -/

/-- "`raise ERR_X` ... means exactly: `ERR_X <- 1`, and the transaction makes no other change to any state" (R231). -/
def raise (e : ErrBit) (s : State) : Result := .next (s.setErr (s.err.set e))

/-! ## Reads (41_host_commands.md R145 to R151) -/

/-- A BusRead returning `v`: "No read changes any state" (R151); `v` appears at the port `rdata`. -/
def read (v : Word) (s : State) : Result := .next (s.setRdata (some v))

/-! ## Appending message bytes (R140, R141) -/

/-- BUF with `bs` written at positions CNT, CNT + 1, … -/
def State.bufAppend (s : State) (bs : List Byte) : Vector Byte 64 :=
  Vector.ofFn fun i : Fin 64 =>
    if s.CNT.toNat ≤ i.val ∧ i.val < s.CNT.toNat + bs.length then bs.getD (i.val - s.CNT.toNat) 0 else s.BUF[i]

/-- The accepting branch of PUTB (one byte) and PUTW (four bytes): the bytes enter BUF at CNT, LEN grows by 8 for each,
and the block that is now complete is parsed (CNT <- 0, PHASE <- LOAD), or CNT moves past the bytes. -/
def appendBytes (bs : List Byte) (s : State) : State :=
  let s' := (s.setBUF (s.bufAppend bs)).setLEN (s.LEN + BitVec.ofNat 64 (8 * bs.length))
  if s.CNT.toNat + bs.length = 64 then (s'.setCNT 0).setPHASE Phase.LOAD
  else s'.setCNT (s.CNT + BitVec.ofNat 6 bs.length)

/-! ## Padding (42_padder.md R160, R161) -/

/-- PAD with c <= 55: 0x80 at c, zeros up to byte 55, the length field in bytes 56..63. -/
def State.bufPadFits (s : State) : Vector Byte 64 :=
  Vector.ofFn fun i : Fin 64 =>
    if i.val < s.CNT.toNat then s.BUF[i]
    else if i.val = s.CNT.toNat then 0x80
    else if i.val ≤ 55 then 0x00
    else be64byte s.LEN (i.val - 56)

/-- PAD with c in 56..63: 0x80 at c, zeros up to byte 63. -/
def State.bufPadSpill (s : State) : Vector Byte 64 :=
  Vector.ofFn fun i : Fin 64 =>
    if i.val < s.CNT.toNat then s.BUF[i]
    else if i.val = s.CNT.toNat then 0x80
    else 0x00

/-- PADLEN: zeros in bytes 0..55, the length field in bytes 56..63. -/
def State.bufPadLen (s : State) : Vector Byte 64 :=
  Vector.ofFn fun i : Fin 64 => if i.val ≤ 55 then 0x00 else be64byte s.LEN (i.val - 56)

/-! ## The datapath (43_parser.md, 44_schedule.md, 45_compression.md) -/

/-- `W[j] <- be32(BUF[4j], BUF[4j+1], BUF[4j+2], BUF[4j+3])` for j = 0..15; the other words stay (43_parser.md R180). -/
def State.parsedW (s : State) : Vector Word 64 :=
  Vector.ofFn fun j : Fin 64 =>
    if h : j.val < 16 then
      be32 (s.BUF[4 * j.val]) (s.BUF[4 * j.val + 1]) (s.BUF[4 * j.val + 2]) (s.BUF[4 * j.val + 3])
    else s.W[j]

/-- `σ1(W[t-2]) + W[t-7] + σ0(W[t-15]) + W[t-16]`, all of them words (44_schedule.md R190). -/
def scheduleSum (w2 w7 w15 w16 : Word) : Word := smallSigma1 w2 + w7 + smallSigma0 w15 + w16

/-- `T1 = h + Σ1(e) + Ch(e, f, g) + K[t] + W[t]` (45_compression.md R202). -/
def Work.t1 (r : Work) (k w : Word) : Word := r.h + bigSigma1 r.e + ch r.e r.f r.g + k + w

/-- `T2 = Σ0(a) + Maj(a, b, c)` (R202). -/
def Work.t2 (r : Work) : Word := bigSigma0 r.a + maj r.a r.b r.c

/-- One round: "all reads of a..h see the values before the step; all writes happen together" (R202). -/
def Work.round (r : Work) (k w : Word) : Work :=
  { a := r.t1 k w + r.t2, b := r.a, c := r.b, d := r.c, e := r.d + r.t1 k w, f := r.e, g := r.f, h := r.g }

/-- `a <- H[0]; b <- H[1]; … h <- H[7]` (R201). -/
def Work.ofH (v : Vector Word 8) : Work :=
  { a := v[0], b := v[1], c := v[2], d := v[3], e := v[4], f := v[5], g := v[6], h := v[7] }

/-- `H[0] + a, H[1] + b, …, H[7] + h` (R203). -/
def foldH (v : Vector Word 8) (r : Work) : Vector Word 8 :=
  #v[v[0] + r.a, v[1] + r.b, v[2] + r.c, v[3] + r.d, v[4] + r.e, v[5] + r.f, v[6] + r.g, v[7] + r.h]

/-- `T <- t + 1`, or past the last index `T <- 0; PHASE <- p`: the end of EXPAND and of ROUND (10_state.md R29). -/
def State.nextIndex (s : State) (t : BitVec 6) (p : Phase) : State :=
  if t = 63 then (s.setT 0).setPHASE p else s.setT (t + 1)

end Sys2Proof.Machine
end

