-- ==== Sys2Proof/Machine/Commands.lean ====
section
/-! DEFINITION. Writes to CTRL: NOP, INIT, FINAL, ILLCMD (41_host_commands.md R132 to R135). -/

namespace Sys2Proof.Machine

/-- NOP (R132): "(no effect)", in every phase. -/
def execNop (s : State) : Result := .next s

/-- INIT (R133): accepted in every phase; a..h, W and BUF are not cleared. -/
def execInit (s : State) : Result :=
  .next ((((((((s.setH IV).setLEN 0).setCNT 0).setLAST false).setLENPEND false).setErr Errors.none).setT 0).setPHASE
    Phase.OPEN)

/-- FINAL (R134). -/
def execFinal (s : State) : Result :=
  if s.busy then raise .busy s
  else if s.PHASE ≠ Phase.OPEN then raise .seq s
  else .next (s.setPHASE Phase.PAD)

/-- ILLCMD (R135): ERR_CMD in every phase; "the illegal value is not kept" (60_exceptions.md R234). -/
def execIllcmd (_v : Word) (s : State) : Result := raise .cmd s

end Sys2Proof.Machine
end

