-- ==== Sys2Proof/Machine/Compression.lean ====
section
/-! DEFINITION. The compression unit's micro-operations WINIT, ROUND t and FOLD (45_compression.md R201 to R203). They
"have no precondition other than their phase" (R205). -/

namespace Sys2Proof.Machine

/-- WINIT (R201). -/
def execWinit (s : State) : Result := .next (((s.setWr (Work.ofH s.H)).setT 0).setPHASE Phase.ROUND)

/-- ROUND t (R202), t = 0..63. -/
def execRound (t : BitVec 6) (s : State) : Result :=
  .next ((s.setWr (s.wr.round (K t) (s.w t.toNat (by omega)))).nextIndex t Phase.FOLD)

/-- Where FOLD leads (R203). -/
def State.afterFold (s : State) : Phase :=
  if s.LAST then Phase.DONE else if s.LENPEND then Phase.PADLEN else Phase.OPEN

/-- FOLD (R203): LAST and LENPEND stay. -/
def execFold (s : State) : Result := .next ((s.setH (foldH s.H s.wr)).setPHASE s.afterFold)

end Sys2Proof.Machine
end

