-- ==== Sys2Proof/Machine/IgnoredWrites.lean ====
section
/-! DEFINITION. Writes to read-only and reserved registers (41_host_commands.md R152): "(no effect)", in every phase. -/

namespace Sys2Proof.Machine

/-- A write to STATUS (R152). -/
def execWignStatus (_x : Word) (s : State) : Result := .next s

/-- A write to LEN_LO, LEN_HI or a reserved offset (R152). -/
def execWignLenRsv (_o : BitVec 2) (_x : Word) (s : State) : Result := .next s

/-- A write to DIGESTk (R152). -/
def execWignDigest (_k : BitVec 3) (_x : Word) (s : State) : Result := .next s

end Sys2Proof.Machine
end

