-- ==== Sys2Proof/Machine/MessageInput.lean ====
section
/-! DEFINITION. Message input: PUTB and PUTW (41_host_commands.md R140, R141), the checks in the order of
60_exceptions.md R236. -/

namespace Sys2Proof.Machine

/-- PUTB (R140); DATA[31:8] is ignored. -/
def execPutb (_x : BitVec 24) (b : Byte) (s : State) : Result :=
  if s.busy then raise .busy s
  else if s.PHASE ≠ Phase.OPEN then raise .seq s
  else if s.LEN.toNat + 8 > LEN_MAX then raise .len s
  else .next (appendBytes [b] s)

/-- PUTW (R141): the four bytes enter most significant first, or the word is refused whole. -/
def execPutw (w : Word) (s : State) : Result :=
  if s.busy then raise .busy s
  else if s.PHASE ≠ Phase.OPEN then raise .seq s
  else if s.CNT.toNat % 4 ≠ 0 then raise .align s
  else if s.LEN.toNat + 32 > LEN_MAX then raise .len s
  else .next (appendBytes (bytes32 w) s)

end Sys2Proof.Machine
end

