-- ==== Sys2Proof/Machine/Padder.lean ====
section
/-! DEFINITION. The padder's micro-operations PAD and PADLEN (42_padder.md R160, R161). -/

namespace Sys2Proof.Machine

/-- PAD (R160). -/
def execPad (s : State) : Result :=
  let s' :=
    if s.CNT.toNat ≤ 55 then ((s.setBUF s.bufPadFits).setLAST true).setLENPEND false
    else ((s.setBUF s.bufPadSpill).setLAST false).setLENPEND true
  .next ((s'.setCNT 0).setPHASE Phase.LOAD)

/-- PADLEN (R161). -/
def execPadlen (s : State) : Result :=
  .next ((((s.setBUF s.bufPadLen).setLAST true).setLENPEND false).setPHASE Phase.LOAD)

end Sys2Proof.Machine
end

