-- ==== Sys2Proof/Machine/Parser.lean ====
section
/-! DEFINITION. The block parser's micro-operation LOAD (43_parser.md R180). -/

namespace Sys2Proof.Machine

/-- LOAD (R180): W[0..15] from BUF; "W[0..15] = block words verbatim". -/
def execLoad (s : State) : Result := .next (((s.setW s.parsedW).setT 16).setPHASE Phase.EXPAND)

end Sys2Proof.Machine
end

