-- ==== Sys2Proof/Machine/RegisterReads.lean ====
section
/-! DEFINITION. Register reads (41_host_commands.md R145 to R151): legal in every phase, DATA ignored, no effect on the
core. -/

namespace Sys2Proof.Machine

/-- RSTAT (R145): STATUS. -/
def execRstat (_x : Word) (s : State) : Result := read s.status s

/-- RLENLO (R146): LEN[31:0]. -/
def execRlenlo (_x : Word) (s : State) : Result := read (s.LEN.extractLsb' 0 32) s

/-- RLENHI (R147): LEN[63:32]. -/
def execRlenhi (_x : Word) (s : State) : Result := read (s.LEN.extractLsb' 32 32) s

/-- RDIG k (R148): H[k], "not gated by DONE". -/
def execRdig (k : BitVec 3) (_x : Word) (s : State) : Result := read (s.digest k) s

/-- RDCTRL (R149): 0. -/
def execRdctrl (_x : Word) (s : State) : Result := read 0 s

/-- RDDATA (R149): 0, for DATA_B and DATA_W. -/
def execRddata (_o : BitVec 1) (_x : Word) (s : State) : Result := read 0 s

/-- RRSV (R150): 0, for offsets 6 and 7. -/
def execRrsv (_o : BitVec 1) (_x : Word) (s : State) : Result := read 0 s

end Sys2Proof.Machine
end

