-- ==== Sys2Proof/Machine/Schedule.lean ====
section
/-! DEFINITION. The message schedule expander's micro-operation EXPAND t (44_schedule.md R190). -/

namespace Sys2Proof.Machine

/-- EXPAND t (R190), t = 16..63. "T < 16 is unreachable and refused" (30_encoding.md R87; the table's own note): the
decoder gives no such instruction. -/
def execExpand (t : BitVec 6) (s : State) : Result :=
  if t.toNat < 16 then .refused .unspecifiedSequencerState
  else
    let v := scheduleSum (s.w (t.toNat - 2) (by omega)) (s.w (t.toNat - 7) (by omega))
      (s.w (t.toNat - 15) (by omega)) (s.w (t.toNat - 16) (by omega))
    .next ((s.setW (s.W.set t.toNat v)).nextIndex t Phase.WINIT)

end Sys2Proof.Machine
end

