-- ==== Sys2Proof/Machine/Dispatch.lean ====
section
/-! DEFINITION. One arm for each instruction. -/

namespace Sys2Proof.Machine

def exec (i : Instr) (s : State) : Host.Outcome State Fault Refusal :=
  match i with
  | .nop => Sys2Proof.Machine.execNop s
  | .init => Sys2Proof.Machine.execInit s
  | .final => Sys2Proof.Machine.execFinal s
  | .illcmd v => Sys2Proof.Machine.execIllcmd v s
  | .wignStatus x => Sys2Proof.Machine.execWignStatus x s
  | .putb x b => Sys2Proof.Machine.execPutb x b s
  | .putw w => Sys2Proof.Machine.execPutw w s
  | .wignLenRsv o x => Sys2Proof.Machine.execWignLenRsv o x s
  | .wignDigest k x => Sys2Proof.Machine.execWignDigest k x s
  | .rdctrl x => Sys2Proof.Machine.execRdctrl x s
  | .rstat x => Sys2Proof.Machine.execRstat x s
  | .rddata o x => Sys2Proof.Machine.execRddata o x s
  | .rlenlo x => Sys2Proof.Machine.execRlenlo x s
  | .rlenhi x => Sys2Proof.Machine.execRlenhi x s
  | .rrsv o x => Sys2Proof.Machine.execRrsv o x s
  | .rdig k x => Sys2Proof.Machine.execRdig k x s
  | .pad => Sys2Proof.Machine.execPad s
  | .padlen => Sys2Proof.Machine.execPadlen s
  | .load => Sys2Proof.Machine.execLoad s
  | .expand t => Sys2Proof.Machine.execExpand t s
  | .winit => Sys2Proof.Machine.execWinit s
  | .round t => Sys2Proof.Machine.execRound t s
  | .fold => Sys2Proof.Machine.execFold s

end Sys2Proof.Machine
end

