-- ==== Sys2Proof/Machine/Events.lean ====
section
/-! DEFINITION. What one event does (20_memory.md R53, R60; 60_exceptions.md R241; 70_reset_and_hazards.md R260), and how
the machine takes the next event. -/

namespace Sys2Proof.Machine

/-- The state in which an event acts: the event is taken from the schedule, and the port `rdata`, "valid in the cycle of
the read" (R53), carries nothing until a read of this step (log entry 4). -/
def State.begin (s : State) (rest : List Event) : State := (s.setInputs rest).setRdata none

/-- A host step: "takes one HT word, decodes it ... and performs that rule" (41_host_commands.md R131). -/
def hostTurn (w : HTWord) (s : State) : Result := exec (decodeHT w) s

/-- The sequencer word, "the current value of `PHASE ++ T`" (30_encoding.md R82). -/
def State.seqWord (s : State) : SeqWord := Sys2Proof.seqWord s.PHASE s.T

/-- The core's turn: the one micro-operation PHASE names, nothing in IDLE, OPEN and DONE (R85; log entry 3), and a
refusal in a state the spec leaves unspecified (R87). -/
def coreTurn (s : State) : Result :=
  match decodeSEQ s.seqWord with
  | .ok i => exec i s
  | .error .noMicroOp => .next s
  | .error .unspecified => .refused .unspecifiedSequencerState

/-- A bus access: the transaction it presents if the core admits it (20_memory.md R51, R56; log entry 7). -/
def busTurn (a : BusAccess) (s : State) : Result :=
  if !a.inWindow then .refused .outsideWindow
  else if !a.admitted then .fault .busAccessNotAdmitted
  else hostTurn a.toHT s

/-- What `rdata` carries in a cycle of reset: "a read returns 0x00000000" (R260). -/
def resetRdata : Option HTWord → Option Word
  | none => none
  | some w => if htRW w = 0 then some 0 else none

/-- Reset "replaces the whole state by the reset state" (R260); the transaction presented with it has no effect. The
events still to come are the environment's and stay. -/
def resetTurn (presented : Option HTWord) (rest : List Event) : Result :=
  .next ((State.reset.setInputs rest).setRdata (resetRdata presented))

/-- A state whose sequencer state is unspecified is refused whole (30_encoding.md R87; log entry 6). -/
def inSpecified (s : State) (r : Result) : Result :=
  if seqSpecified s.PHASE s.T then r else .refused .unspecifiedSequencerState

/-- Take the next event. With none left the host presents nothing more, and every turn is the core's (log entry 3). -/
def advance (s : State) : Result :=
  match s.inputs with
  | [] => inSpecified s (coreTurn (s.begin []))
  | .core :: rest => inSpecified s (coreTurn (s.begin rest))
  | .txn w :: rest => inSpecified s (hostTurn w (s.begin rest))
  | .access a :: rest => inSpecified s (busTurn a (s.begin rest))
  | .reset presented :: rest => resetTurn presented rest

/-- Place an encoded step so that it is the next one run: a transaction becomes the next event, a sequencer word becomes
PHASE and T with the core's turn next (log entry 10). -/
def State.place (s : State) : Encoded → State
  | .ht w => s.setInputs (.txn w :: s.inputs)
  | .seq q => ((s.setPHASE (seqPHASE q)).setT (seqT q)).setInputs (.core :: s.inputs)

end Sys2Proof.Machine
end

