-- ==== Sys2Proof/Machine/Contract.lean ====
section
/-! DEFINITION. The function the core implements, written apart from the machine: padding (42_padder.md R162, R164),
blocks (43_parser.md R181), the schedule, the rounds and the fold over a list of blocks (45_compression.md R204, R210). -/

namespace Sys2Proof.Machine.Contract

/-- The number of zero bytes: `55 − (n mod 64)` when `n mod 64 <= 55`, else `119 − (n mod 64)` (R164). -/
def zeros (n : Nat) : Nat := if n % 64 ≤ 55 then 55 - n % 64 else 119 - n % 64

/-- `pad(m) = m ++ [0x80] ++ zeros(z) ++ be64bytes(L)` (R162). -/
def pad (m : List Byte) : List Byte :=
  m ++ [0x80] ++ List.replicate (zeros m.length) 0x00 ++ be64bytes (BitVec.ofNat 64 (8 * m.length))

/-- The number of blocks of `pad(m)` for `n` bytes (R164). -/
def blockCount (n : Nat) : Nat := (n + 8) / 64 + 1

/-- The first `k` blocks of 64 bytes. -/
def blocks : Nat → List Byte → List (List Byte)
  | 0, _ => []
  | k + 1, m => m.take 64 :: blocks k (m.drop 64)

/-- "the 16 big-endian words of B" (R210). -/
def blockWords (b : List Byte) : List Word :=
  (List.range 16).map fun j =>
    be32 (b.getD (4 * j) 0) (b.getD (4 * j + 1) 0) (b.getD (4 * j + 2) 0) (b.getD (4 * j + 3) 0)

/-- The block's words followed by the first `n` derived words W[16], W[17], … (44_schedule.md R190). -/
def schedule (ws : List Word) : Nat → List Word
  | 0 => ws
  | n + 1 =>
    let w := schedule ws n
    w ++ [scheduleSum (w.getD (n + 14) 0) (w.getD (n + 9) 0) (w.getD (n + 1) 0) (w.getD n 0)]

/-- The working registers after rounds 0, …, n − 1 (R202). -/
def rounds (w : List Word) (r : Work) : Nat → Work
  | 0 => r
  | n + 1 => (rounds w r n).round (K (BitVec.ofNat 6 n)) (w.getD n 0)

/-- One block: schedule, 64 rounds from H, fold (R200, R210). -/
def compress (h : Vector Word 8) (b : List Byte) : Vector Word 8 :=
  foldH h (rounds (schedule (blockWords b) 48) (Work.ofH h) 64)

/-- The hash state after every block of the padded message. -/
def finalState (m : List Byte) : Vector Word 8 := (blocks (blockCount m.length) (pad m)).foldl compress IV

/-- The digest of a hash state: `bytes32(H[0]) ++ … ++ bytes32(H[7])` (R204). -/
def digest (h : Vector Word 8) : List Byte := h.toList.flatMap bytes32

/-- `SHA-256(m)` (R210). -/
def sha256 (m : List Byte) : List Byte := digest (finalState m)

end Sys2Proof.Machine.Contract
end

