-- ==== Sys2Proof/Machine/Assembler.lean ====
section
/-! DEFINITION. The assembler syntax of host programs (30_encoding.md R88): the operations, their HT words, and the
reading of one source line. Details of the text the rule leaves open are log entry 11. -/

namespace Sys2Proof.Machine

/-- One assembler operation, a row of R88's table. -/
inductive AsmOp where
  | nop
  | init
  | final
  | putb (b : Byte)
  | putw (w : Word)
  /-- `WR off, v`: "generic write; decodes by rule R84". -/
  | wr (off : BitVec 4) (v : Word)
  | rstat
  | rlenlo
  | rlenhi
  | rdig (k : BitVec 3)
  /-- `RD off`: "generic read; decodes by rule R84". -/
  | rd (off : BitVec 4)
deriving DecidableEq, Repr

/-- The HT word of an operation, R88's second column. -/
def assemble : AsmOp → HTWord
  | .nop => htWord 1 0 0
  | .init => htWord 1 0 1
  | .final => htWord 1 0 2
  | .putb b => htWord 1 2 (b.setWidth 32)
  | .putw w => htWord 1 3 w
  | .wr off v => htWord 1 off v
  | .rstat => htWord 0 1 0
  | .rlenlo => htWord 0 4 0
  | .rlenhi => htWord 0 5 0
  | .rdig k => htWord 0 (8 + k.setWidth 4) 0
  | .rd off => htWord 0 off 0

/-- Only a read has a result to name. -/
def AsmOp.isRead : AsmOp → Bool
  | .rstat | .rlenlo | .rlenhi | .rdig _ | .rd _ => true
  | .nop | .init | .final | .putb _ | .putw _ | .wr _ _ => false

/-- A source line: nothing but a comment, an operation with the name of its result, or the pseudo-instruction
WAITIDLE (R89). -/
inductive AsmLine where
  | blank
  | op (o : AsmOp) (result : Option (List Char))
  | waitIdle
deriving DecidableEq, Repr

/-! ## Tokens -/

/-- The line up to a `;`. -/
def stripComment (cs : List Char) : List Char := cs.takeWhile (· != ';')

/-- Add a finished word to the tokens read so far. -/
def pushToken (word : List Char) (toks : List (List Char)) : List (List Char) :=
  if word.isEmpty then toks else word.reverse :: toks

/-- Words, with `,` a token of its own; `word` and the tokens are held in reverse. -/
def tokensAux : List Char → List Char → List (List Char) → List (List Char)
  | [], word, toks => (pushToken word toks).reverse
  | c :: cs, word, toks =>
    if c = ' ' ∨ c = '\t' then tokensAux cs [] (pushToken word toks)
    else if c = ',' then tokensAux cs [] ([','] :: pushToken word toks)
    else tokensAux cs (c :: word) toks

/-- The tokens of a line without its comment. -/
def tokens (cs : List Char) : List (List Char) := tokensAux (stripComment cs) [] []

/-! ## Numbers: "decimal or `0x` hex" -/

/-- The value of a digit below `base`. -/
def digitValue (base : Nat) (c : Char) : Option Nat :=
  let v :=
    if '0' ≤ c ∧ c ≤ '9' then some (c.toNat - '0'.toNat)
    else if 'a' ≤ c ∧ c ≤ 'f' then some (c.toNat - 'a'.toNat + 10)
    else if 'A' ≤ c ∧ c ≤ 'F' then some (c.toNat - 'A'.toNat + 10)
    else none
  v.filter (· < base)

/-- The value of a digit string, after the value `acc` of the digits before it. -/
def digitsValue (base : Nat) : List Char → Nat → Option Nat
  | [], acc => some acc
  | c :: cs, acc =>
    match digitValue base c with
    | some d => digitsValue base cs (acc * base + d)
    | none => none

/-- A number below `bound`. -/
def number (bound : Nat) (cs : List Char) : Option Nat :=
  let v :=
    match cs with
    | '0' :: 'x' :: d :: ds => digitsValue 16 (d :: ds) 0
    | d :: ds => digitsValue 10 (d :: ds) 0
    | [] => none
  v.filter (· < bound)

/-! ## Lines -/

/-- Mnemonics are case-insensitive. -/
def upper (cs : List Char) : List Char := cs.map Char.toUpper

/-- The operation of a line's tokens, less the naming of a result. -/
def parseOp : List (List Char) → Option AsmOp
  | [m] =>
    if upper m = "NOP".toList then some .nop
    else if upper m = "INIT".toList then some .init
    else if upper m = "FINAL".toList then some .final
    else if upper m = "RSTAT".toList then some .rstat
    else if upper m = "RLENLO".toList then some .rlenlo
    else if upper m = "RLENHI".toList then some .rlenhi
    else none
  | [m, x] =>
    if upper m = "PUTB".toList then (number (2 ^ 8) x).map fun n => .putb (BitVec.ofNat 8 n)
    else if upper m = "PUTW".toList then (number (2 ^ 32) x).map fun n => .putw (BitVec.ofNat 32 n)
    else if upper m = "RDIG".toList then (number 8 x).map fun n => .rdig (BitVec.ofNat 3 n)
    else if upper m = "RD".toList then (number 16 x).map fun n => .rd (BitVec.ofNat 4 n)
    else none
  | [m, x, [','], y] =>
    if upper m = "WR".toList then
      match number 16 x, number (2 ^ 32) y with
      | some off, some v => some (.wr (BitVec.ofNat 4 off) (BitVec.ofNat 32 v))
      | _, _ => none
    else none
  | _ => none

/-- Split `… -> name` off the end of the tokens. R88 gives no grammar for `name`: any one token is taken (DESIGN CHOICE,
log entry 11). -/
def splitResult (toks : List (List Char)) : List (List Char) × Option (List Char) :=
  match toks.reverse with
  | name :: ['-', '>'] :: before => (before.reverse, some name)
  | _ => (toks, none)

/-- One source line; `none` where it is not in the syntax of R88. -/
def parseLine (cs : List Char) : Option AsmLine :=
  match tokens cs with
  | [] => some .blank
  | toks =>
    if toks.map upper = ["WAITIDLE".toList] then some .waitIdle
    else
      match parseOp (splitResult toks).1 with
      | some o => if (splitResult toks).2.isSome && !o.isRead then none else some (.op o (splitResult toks).2)
      | none => none

end Sys2Proof.Machine
end

