-- ==== Sys2Proof/Machine/HostProgram.lean ====
section
/-! DEFINITION. The pseudo-instructions PUTMSG and HASH (30_encoding.md R89), as the operations a host issues. WAITIDLE
stays an operation of its own: it is a loop in the host (R153), given its meaning by `HostRun` in Sys2Proof/Safety.lean. -/

namespace Sys2Proof.Machine

/-- What a host does next: one transaction, or WAITIDLE. -/
inductive HostOp where
  | tx (o : AsmOp)
  | waitIdle
deriving DecidableEq, Repr

/-- "after every write that makes c reach 64 ..., emit `WAITIDLE`" -/
def waitAtBlock (c : Nat) : List HostOp := if c = 64 then [.waitIdle] else []

/-- "(c then restarts at 0)" -/
def wrapBlock (c : Nat) : Nat := if c = 64 then 0 else c

/-- `PUTMSG m` with the local count at `c` (R89). -/
def putmsg : Nat → List Byte → List HostOp
  | _, [] => []
  | c, b0 :: b1 :: b2 :: b3 :: rest =>
    if c % 4 = 0 then .tx (.putw (be32 b0 b1 b2 b3)) :: (waitAtBlock (c + 4) ++ putmsg (wrapBlock (c + 4)) rest)
    else .tx (.putb b0) :: (waitAtBlock (c + 1) ++ putmsg (wrapBlock (c + 1)) (b1 :: b2 :: b3 :: rest))
  | c, b :: rest => .tx (.putb b) :: (waitAtBlock (c + 1) ++ putmsg (wrapBlock (c + 1)) rest)

/-- The eight reads `RDIG 0`, …, `RDIG 7`. -/
def readDigest : List HostOp := (List.range 8).map fun k => .tx (.rdig (BitVec.ofNat 3 k))

/-- `HASH m` "expands to `INIT`, `PUTMSG m`, `FINAL`, `WAITIDLE`, `RDIG 0`, …, `RDIG 7`" (R89). -/
def hash (m : List Byte) : List HostOp := .tx .init :: (putmsg 0 m ++ (.tx .final :: .waitIdle :: readDigest))

end Sys2Proof.Machine
end

