-- ==== Sys2Proof/Safety.lean ====
section
/-! DEFINITION. What counts as a safe run, in the terms the statements use: the invariants of reachable states
(10_state.md R44), equality of two states up to registers not yet written (R44, 70_reset_and_hazards.md R262), and the
runs of a host program under every interleaving with the core (20_memory.md R60; 30_encoding.md R89). -/

namespace Sys2Proof.Machine

/-- A block is in BUF and being compressed. -/
def State.inBlock (s : State) : Bool :=
  s.PHASE = Phase.LOAD ∨ s.PHASE = Phase.EXPAND ∨ s.PHASE = Phase.WINIT ∨ s.PHASE = Phase.ROUND ∨ s.PHASE = Phase.FOLD

/-- The invariants 1 to 6 of R44, and `block_boundary`, which makes them inductive: while a block that is neither final
nor followed by a length block is compressed, the message stands at a block boundary. -/
structure Inv (s : State) : Prop where
  /-- R44.1 -/
  phase_range : s.PHASE.toNat ≤ 9
  /-- R44.2 -/
  cnt_zero : s.PHASE ≠ Phase.OPEN → s.PHASE ≠ Phase.PAD → s.CNT = 0
  /-- R44.3 -/
  t_expand : s.PHASE = Phase.EXPAND → 16 ≤ s.T.toNat
  /-- R44.3 -/
  t_zero : s.PHASE ≠ Phase.EXPAND → s.PHASE ≠ Phase.ROUND → s.T = 0
  /-- R44.4 -/
  not_both : ¬(s.LAST = true ∧ s.LENPEND = true)
  /-- R44.4 -/
  idle_open : s.PHASE = Phase.IDLE ∨ s.PHASE = Phase.OPEN → s.LAST = false ∧ s.LENPEND = false
  /-- R44.4 -/
  done_last : s.PHASE = Phase.DONE → s.LAST = true
  /-- R44.5 -/
  len_bytes : s.LEN.toNat % 8 = 0
  /-- R44.5 -/
  len_max : s.LEN.toNat ≤ LEN_MAX
  /-- R44.6 -/
  cnt_len : s.PHASE = Phase.OPEN ∨ s.PHASE = Phase.PAD → s.CNT.toNat = s.LEN.toNat / 8 % 64
  /-- R44.6 -/
  len_idle : s.PHASE = Phase.IDLE → s.LEN = 0
  /-- The strengthening; no rule of its own. -/
  block_boundary : s.inBlock → s.LAST = false → s.LENPEND = false → s.LEN.toNat / 8 % 64 = 0

/-- Two states agree on every register that R262 does not leave unspecified, on the read port and on the schedule. -/
structure SameControl (s t : State) : Prop where
  H : s.H = t.H
  CNT : s.CNT = t.CNT
  LEN : s.LEN = t.LEN
  PHASE : s.PHASE = t.PHASE
  T : s.T = t.T
  LAST : s.LAST = t.LAST
  LENPEND : s.LENPEND = t.LENPEND
  err : s.err = t.err
  rdata : s.rdata = t.rdata
  inputs : s.inputs = t.inputs

/-- Two states that differ at most in parts of a..h, W and BUF which, by R44.7, have not been written for the current
block: BUF from CNT on while a message is open, W from T on while the schedule is derived, and so on. -/
structure SameWritten (s t : State) : Prop extends SameControl s t where
  buf_prefix : s.PHASE = Phase.OPEN ∨ s.PHASE = Phase.PAD →
    ∀ (i : Nat) (h : i < 64), i < s.CNT.toNat → s.BUF[i] = t.BUF[i]
  buf_full : s.PHASE = Phase.LOAD → s.BUF = t.BUF
  w_prefix : s.PHASE = Phase.EXPAND → ∀ (i : Nat) (h : i < 64), i < s.T.toNat → s.W[i] = t.W[i]
  w_full : s.PHASE = Phase.WINIT ∨ s.PHASE = Phase.ROUND → s.W = t.W
  work : s.PHASE = Phase.ROUND ∨ s.PHASE = Phase.FOLD → s.wr = t.wr

/-- One step with one event presented. -/
def stepOn (e : Event) (s : State) : Result := step (s.setInputs [e])

/-- One step of a host that performs the given operations in order (R89) beside the core (R60): `HostStep e s ops s' ops' vs`
when the event `e` leads from `s`, with `ops` to do, to `s'`, with `ops'` to do, and the read it makes, if any, returns
`vs`. The reads of WAITIDLE are its own (log entry 18). -/
inductive HostStep : Event → State → List HostOp → State → List HostOp → List Word → Prop where
  /-- The core takes a turn. -/
  | core {s s' : State} {ops : List HostOp} (h : stepOn .core s = .next s') : HostStep .core s ops s' ops []
  /-- The host's next operation is a transaction. -/
  | tx {s s' : State} {o : AsmOp} {ops : List HostOp} (h : stepOn (.txn (assemble o)) s = .next s') :
      HostStep (.txn (assemble o)) s (.tx o :: ops) s' ops s'.rdata.toList
  /-- WAITIDLE reads STATUS and finds BUSY = 1: it will read again. -/
  | poll {s s' : State} {ops : List HostOp} {v : Word} (h : stepOn (.txn (assemble .rstat)) s = .next s')
      (hv : s'.rdata = some v) (busy : v.getLsbD 0 = true) :
      HostStep (.txn (assemble .rstat)) s (.waitIdle :: ops) s' (.waitIdle :: ops) []
  /-- WAITIDLE reads STATUS and finds BUSY = 0: it ends. -/
  | idle {s s' : State} {ops : List HostOp} {v : Word} (h : stepOn (.txn (assemble .rstat)) s = .next s')
      (hv : s'.rdata = some v) (notBusy : v.getLsbD 0 = false) :
      HostStep (.txn (assemble .rstat)) s (.waitIdle :: ops) s' ops []

/-- The runs of such a host to its end, under every interleaving with the core: `HostRun s ops t vs` when a run from `s`
performs all of `ops`, ends in `t`, and its reads (those of WAITIDLE apart) return `vs` in order. -/
inductive HostRun : State → List HostOp → State → List Word → Prop where
  | done (s : State) : HostRun s [] s []
  | cons {e : Event} {s s' t : State} {ops ops' : List HostOp} {v vs : List Word} (h : HostStep e s ops s' ops' v)
      (rest : HostRun s' ops' t vs) : HostRun s ops t (v ++ vs)

/-- The states a run reaches from reset, whatever the environment does (R260). -/
inductive Reachable : State → Prop where
  | reset (inputs : List Event) : Reachable (State.reset.setInputs inputs)
  | next {s t : State} (r : Reachable s) (h : step s = .next t) : Reachable t

/-- The instruction an event presents to the core: a transaction, or an admitted access in the window. -/
def Event.presented : Event → Option Instr
  | .txn w => some (decodeHT w)
  | .access a => if a.inWindow && a.admitted then some (decodeHT a.toHT) else none
  | .core => none
  | .reset _ => none

/-- The event is a reset edge. -/
def Event.isReset : Event → Bool
  | .reset _ => true
  | .txn _ => false
  | .access _ => false
  | .core => false

/-- The instruction the next event presents to the core. -/
def State.presented (s : State) : Option Instr :=
  match s.inputs with
  | [] => none
  | e :: _ => e.presented

/-- The next event is a reset edge. -/
def State.resetNext (s : State) : Bool :=
  match s.inputs with
  | [] => false
  | e :: _ => e.isReset

/-- The next turn is the core's. -/
def State.coreNext (s : State) : Bool :=
  match s.inputs with
  | [] => true
  | .core :: _ => true
  | .reset _ :: _ => false
  | .txn _ :: _ => false
  | .access _ :: _ => false

/-! ## Infinite runs and fairness (20_memory.md R60, R62) -/

/-- "unless an INIT ... or reset intervenes" (R62): the event is one of the two. -/
def Event.restarts (e : Event) : Prop := e.presented = some .init ∨ e.isReset = true

/-- An infinite run: the events `e 0, e 1, …`, in any interleaving, lead through the states `s 0, s 1, …`. -/
def Run (e : Nat → Event) (s : Nat → State) : Prop := ∀ n, stepOn (e n) (s n) = .next (s (n + 1))

/-- Weak fairness of the core: "while BUSY = 1 the core eventually takes its next step, whatever the host does, unless an
INIT ... or reset intervenes" (R62). -/
def Fair (e : Nat → Event) (s : Nat → State) : Prop :=
  ∀ n, (s n).busy = true → ∃ m, n ≤ m ∧ (e m = .core ∨ (e m).restarts)

/-- How many of the events `e k, …, e (n − 1)` are turns of the core. -/
def coreTurns (e : Nat → Event) (k n : Nat) : Nat := (List.range (n - k)).countP fun i => e (k + i) = .core

/-- An infinite run of a host program, `ops n` being what is left to do at `n`: every step is one of `HostStep`, the core
is fair, and a host that is not done goes on. Once it is done, every turn is the core's. -/
structure FairHostRun (e : Nat → Event) (s : Nat → State) (ops : Nat → List HostOp) : Prop where
  steps (n : Nat) : ∃ v, HostStep (e n) (s n) (ops n) (s (n + 1)) (ops (n + 1)) v
  fair : Fair e s
  /-- The model's hypothesis on the host (log entry 18); R62 speaks of the core alone. -/
  host (n : Nat) (h : ops n ≠ []) : ∃ m, n ≤ m ∧ e m ≠ .core

/-- A sequencer state of 30_encoding.md R87: "PHASE 10..15 with any T; PHASE 0..5, 7 or 9 with T ≠ 0; PHASE 6 with
T < 16". -/
def State.unspecified (s : State) : Prop :=
  10 ≤ s.PHASE.toNat ∨
    ((s.PHASE.toNat ≤ 5 ∨ s.PHASE.toNat = 7 ∨ s.PHASE.toNat = 9) ∧ s.T ≠ 0) ∨ (s.PHASE.toNat = 6 ∧ s.T.toNat < 16)

/-- The rows of 10_state.md R29, as a relation between the states before and after a step. -/
inductive SeqEdge (s t : State) : Prop where
  /-- any, INIT: OPEN, T <- 0 -/
  | init (i : s.presented = some .init) (goes : t.PHASE = Phase.OPEN ∧ t.T = 0)
  /-- OPEN, accepted PUTB/PUTW that fills byte 63: LOAD -/
  | filled (i : (∃ x b, s.presented = some (.putb x b) ∧ s.CNT = 63) ∨ (∃ w, s.presented = some (.putw w) ∧ s.CNT = 60))
      (at_ : s.PHASE = Phase.OPEN) (goes : t.PHASE = Phase.LOAD ∧ t.T = s.T)
  /-- OPEN, accepted FINAL: PAD -/
  | final (i : s.presented = some .final) (at_ : s.PHASE = Phase.OPEN) (goes : t.PHASE = Phase.PAD ∧ t.T = s.T)
  /-- PAD: LOAD -/
  | pad (i : s.coreNext) (at_ : s.PHASE = Phase.PAD) (goes : t.PHASE = Phase.LOAD ∧ t.T = s.T)
  /-- PADLEN: LOAD -/
  | padlen (i : s.coreNext) (at_ : s.PHASE = Phase.PADLEN) (goes : t.PHASE = Phase.LOAD ∧ t.T = s.T)
  /-- LOAD: EXPAND, T <- 16 -/
  | load (i : s.coreNext) (at_ : s.PHASE = Phase.LOAD) (goes : t.PHASE = Phase.EXPAND ∧ t.T = 16)
  /-- EXPAND, T < 63: EXPAND, T <- T + 1 -/
  | expand (i : s.coreNext) (at_ : s.PHASE = Phase.EXPAND ∧ s.T.toNat < 63)
      (goes : t.PHASE = Phase.EXPAND ∧ t.T.toNat = s.T.toNat + 1)
  /-- EXPAND, T = 63: WINIT, T <- 0 -/
  | expandEnd (i : s.coreNext) (at_ : s.PHASE = Phase.EXPAND ∧ s.T = 63) (goes : t.PHASE = Phase.WINIT ∧ t.T = 0)
  /-- WINIT: ROUND, T <- 0 -/
  | winit (i : s.coreNext) (at_ : s.PHASE = Phase.WINIT) (goes : t.PHASE = Phase.ROUND ∧ t.T = 0)
  /-- ROUND, T < 63: ROUND, T <- T + 1 -/
  | round (i : s.coreNext) (at_ : s.PHASE = Phase.ROUND ∧ s.T.toNat < 63)
      (goes : t.PHASE = Phase.ROUND ∧ t.T.toNat = s.T.toNat + 1)
  /-- ROUND, T = 63: FOLD, T <- 0 -/
  | roundEnd (i : s.coreNext) (at_ : s.PHASE = Phase.ROUND ∧ s.T = 63) (goes : t.PHASE = Phase.FOLD ∧ t.T = 0)
  /-- FOLD, LAST = 1: DONE -/
  | foldDone (i : s.coreNext) (at_ : s.PHASE = Phase.FOLD ∧ s.LAST = true) (goes : t.PHASE = Phase.DONE ∧ t.T = s.T)
  /-- FOLD, LAST = 0, LENPEND = 1: PADLEN -/
  | foldPadlen (i : s.coreNext) (at_ : s.PHASE = Phase.FOLD ∧ s.LAST = false ∧ s.LENPEND = true)
      (goes : t.PHASE = Phase.PADLEN ∧ t.T = s.T)
  /-- FOLD, LAST = 0, LENPEND = 0: OPEN -/
  | foldOpen (i : s.coreNext) (at_ : s.PHASE = Phase.FOLD ∧ s.LAST = false ∧ s.LENPEND = false)
      (goes : t.PHASE = Phase.OPEN ∧ t.T = s.T)
  /-- reset: IDLE -/
  | reset (i : s.resetNext) (goes : t.PHASE = Phase.IDLE ∧ t.T = 0)

/-- The error checks of a transaction, in the order of 60_exceptions.md R236, each with its condition. -/
def errorChecks (i : Instr) (s : State) : List (Bool × ErrBit) :=
  match i with
  | .illcmd _ => [(true, .cmd)]
  | .final => [(s.busy, .busy), (s.PHASE != Phase.OPEN, .seq)]
  | .putb _ _ => [(s.busy, .busy), (s.PHASE != Phase.OPEN, .seq), (decide (s.LEN.toNat + 8 > LEN_MAX), .len)]
  | .putw _ => [(s.busy, .busy), (s.PHASE != Phase.OPEN, .seq), (s.CNT.toNat % 4 != 0, .align),
      (decide (s.LEN.toNat + 32 > LEN_MAX), .len)]
  | .nop | .init | .wignStatus _ | .wignLenRsv _ _ | .wignDigest _ _ => []
  | .rdctrl _ | .rstat _ | .rddata _ _ | .rlenlo _ | .rlenhi _ | .rrsv _ _ | .rdig _ _ => []
  | .pad | .padlen | .load | .expand _ | .winit | .round _ | .fold => []

/-- "the first that applies" (R236). -/
def firstError (i : Instr) (s : State) : Option ErrBit := ((errorChecks i s).find? (·.1)).map (·.2)

end Sys2Proof.Machine
end

