-- ==== Sys2Proof/Certificates/Slice0/Obligations.lean ====
section
/-! DEFINITION. The statements for the provers. Each cites the rule of spec/ it formalises; OBLIGATIONS.json lists them. -/

open Sys2Proof Sys2Proof.Machine

/-! ## Encodings (30_encoding.md) -/

/-- Decoding an encoded well-formed instruction gives it back, at every value of every operand (R81 to R85). -/
def Obligations.DecodeEncodeRoundTrip : Prop :=
  ∀ i : Instr, i.wf = true → decode (encode i) = .ok i

/-- Whatever decodes is well formed and encodes to the word it came from: no bit of a word is dropped, and no two words
decode to one instruction. -/
def Obligations.EncodeDecodeRoundTrip : Prop :=
  ∀ (e : Encoded) (i : Instr), decode e = .ok i → i.wf = true ∧ encode i = e

/-- R84: the HT table row by row, and "Every one of the 2^37 HT words decodes to exactly one row: the decoder is
total". -/
def Obligations.HtDecodeTable : Prop :=
  (decodeHT (htWord 1 0b0000 0x00000000) = .nop) ∧
  (decodeHT (htWord 1 0b0000 0x00000001) = .init) ∧
  (decodeHT (htWord 1 0b0000 0x00000002) = .final) ∧
  (∀ v : Word, v ≠ 0 → v ≠ 1 → v ≠ 2 → decodeHT (htWord 1 0b0000 v) = .illcmd v) ∧
  (∀ x : Word, decodeHT (htWord 1 0b0001 x) = .wignStatus x) ∧
  (∀ (x : BitVec 24) (b : Byte), decodeHT (htWord 1 0b0010 (x ++ b)) = .putb x b) ∧
  (∀ w : Word, decodeHT (htWord 1 0b0011 w) = .putw w) ∧
  (∀ (o : BitVec 2) (x : Word), decodeHT (htWord 1 (0b01#2 ++ o) x) = .wignLenRsv o x) ∧
  (∀ (k : BitVec 3) (x : Word), decodeHT (htWord 1 (0b1#1 ++ k) x) = .wignDigest k x) ∧
  (∀ x : Word, decodeHT (htWord 0 0b0000 x) = .rdctrl x) ∧
  (∀ x : Word, decodeHT (htWord 0 0b0001 x) = .rstat x) ∧
  (∀ (o : BitVec 1) (x : Word), decodeHT (htWord 0 (0b001#3 ++ o) x) = .rddata o x) ∧
  (∀ x : Word, decodeHT (htWord 0 0b0100 x) = .rlenlo x) ∧
  (∀ x : Word, decodeHT (htWord 0 0b0101 x) = .rlenhi x) ∧
  (∀ (o : BitVec 1) (x : Word), decodeHT (htWord 0 (0b011#3 ++ o) x) = .rrsv o x) ∧
  (∀ (k : BitVec 3) (x : Word), decodeHT (htWord 0 (0b1#1 ++ k) x) = .rdig k x) ∧
  (∀ w : HTWord, (decodeHT w).isHost = true ∧ ∀ i : Instr, i.wf = true ∧ encode i = .ht w ↔ i = decodeHT w)

/-- R85: the SEQ table row by row. -/
def Obligations.SeqDecodeTable : Prop :=
  (∀ p : Phase, p = Phase.IDLE ∨ p = Phase.OPEN ∨ p = Phase.DONE → decodeSEQ (seqWord p 0) = .error .noMicroOp) ∧
  (decodeSEQ (seqWord Phase.PAD 0) = .ok .pad) ∧
  (decodeSEQ (seqWord Phase.PADLEN 0) = .ok .padlen) ∧
  (decodeSEQ (seqWord Phase.LOAD 0) = .ok .load) ∧
  (∀ t : BitVec 6, 16 ≤ t.toNat → decodeSEQ (seqWord Phase.EXPAND t) = .ok (.expand t)) ∧
  (decodeSEQ (seqWord Phase.WINIT 0) = .ok .winit) ∧
  (∀ t : BitVec 6, decodeSEQ (seqWord Phase.ROUND t) = .ok (.round t)) ∧
  (decodeSEQ (seqWord Phase.FOLD 0) = .ok .fold)

/-- No state reachable from reset has an unspecified sequencer state, and such a state is refused: "no core step, refusal
recorded" (30_encoding.md R87). That a transaction or a bus access presented in it is refused too, and a reset alone is
not, is the model's reading (log entry 6). -/
def Obligations.UnspecifiedSequencerStatesRefused : Prop :=
  (∀ s : State, Reachable s → ¬s.unspecified) ∧
  (∀ s : State, s.unspecified → s.resetNext = false → step s = .refused .unspecifiedSequencerState)

/-- Words written out in spec/95_test_vectors.md (V-D8, V-D9, V-P3) decode to the instructions named there. -/
def Obligations.SampleWordsDecode : Prop :=
  decodeTableWord 40 0x1000000001 = some .init ∧
  decodeTableWord 40 0x1000000011 = some (.illcmd 0x11) ∧
  decodeTableWord 40 0x1200000061 = some (.putb 0 0x61) ∧
  decodeTableWord 40 0x1361626364 = some (.putw 0x61626364) ∧
  decodeTableWord 40 0x11ffffffff = some (.wignStatus 0xffffffff) ∧
  decodeTableWord 40 0x0f00000000 = some (.rdig 7 0) ∧
  decodeTableWord 40 0x0400000000 = some (.rlenlo 0) ∧
  decodeTableWord 16 0x0c0 = some .pad ∧
  decodeTableWord 16 0x190 = some (.expand 16) ∧
  decodeTableWord 16 0x23f = some (.round 63) ∧
  decodeTableWord 16 0x240 = some .fold ∧
  decodeTableWord 16 0x080 = none

/-- The HT words of the assembler's operations mean what R88's table says, `WR` and `RD` for every offset. -/
def Obligations.AssemblerWordsDecode : Prop :=
  decodeHT (assemble .nop) = .nop ∧
  decodeHT (assemble .init) = .init ∧
  decodeHT (assemble .final) = .final ∧
  (∀ b : Byte, decodeHT (assemble (.putb b)) = .putb 0 b) ∧
  (∀ w : Word, decodeHT (assemble (.putw w)) = .putw w) ∧
  decodeHT (assemble .rstat) = .rstat 0 ∧
  decodeHT (assemble .rlenlo) = .rlenlo 0 ∧
  decodeHT (assemble .rlenhi) = .rlenhi 0 ∧
  (∀ k : BitVec 3, decodeHT (assemble (.rdig k)) = .rdig k 0) ∧
  (∀ (off : BitVec 4) (v : Word), htRW (assemble (.wr off v)) = 1 ∧ htOFF (assemble (.wr off v)) = off ∧
    htDATA (assemble (.wr off v)) = v) ∧
  (∀ off : BitVec 4, htRW (assemble (.rd off)) = 0 ∧ htOFF (assemble (.rd off)) = off ∧ htDATA (assemble (.rd off)) = 0)

/-! ## Steps -/

/-- A step whose event is a transaction is the meaning of the instruction the transaction decodes to, on the state
without the event and with nothing at the read port (41_host_commands.md R131; log entries 2 and 4). -/
def Obligations.StepRunsTransaction : Prop :=
  ∀ (s : State) (w : HTWord) (rest : List Event), ¬s.unspecified → s.inputs = .txn w :: rest →
    step s = exec (decodeHT w) { s with inputs := rest, rdata := none }

/-- A core turn is the meaning of the micro-operation `PHASE ++ T` decodes to, and changes no register in IDLE, OPEN and
DONE (10_state.md R28; log entries 2, 3 and 4). -/
def Obligations.StepRunsMicroOperation : Prop :=
  ∀ s : State, s.coreNext = true →
    (∀ i : Instr, decodeSEQ (seqWord s.PHASE s.T) = .ok i →
      step s = exec i { s with inputs := s.inputs.tail, rdata := none }) ∧
    (decodeSEQ (seqWord s.PHASE s.T) = .error .noMicroOp →
      step s = .next { s with inputs := s.inputs.tail, rdata := none })

/-- `withFetchWord` places an opcode-table word so that the next step runs the instruction it decodes to: on the state
with nothing at the read port (log entry 4) and, for a sequencer word, with PHASE and T of the word. That a word is placed
as the next event is the model's choice (log entry 10). -/
def Obligations.StepRunsPlacedWord : Prop :=
  ∀ (s : State) (nbits w : Nat) (i : Instr), decodeTableWord nbits w = some i →
    (i.isHost = true → ¬s.unspecified → step (s.withFetchWord nbits w) = exec i { s with rdata := none }) ∧
    (i.isHost = false → encode i = .seq (BitVec.ofNat 10 w) ∧
      step (s.withFetchWord nbits w) =
        exec i { s with rdata := none, PHASE := seqPHASE (BitVec.ofNat 10 w), T := seqT (BitVec.ofNat 10 w) })

/-- Reset, from any state, gives every register its reset value; the transaction presented with it has no effect, and a
read returns 0 (70_reset_and_hazards.md R260). The values of a..h, W and BUF, which the rule leaves unspecified, are not
stated. That a reset is an event of a list, and that the events behind it stay, `t.inputs = rest`, are the model's
choices (log entries 2 and 16). -/
def Obligations.ResetEdge : Prop :=
  ∀ (s : State) (presented : Option HTWord) (rest : List Event), s.inputs = .reset presented :: rest →
    ∃ t, step s = .next t ∧ t.H = IV ∧ t.CNT = 0 ∧ t.LEN = 0 ∧ t.PHASE = Phase.IDLE ∧ t.T = 0 ∧ t.LAST = false ∧
      t.LENPEND = false ∧ (∀ e, t.err.get e = false) ∧ t.inputs = rest ∧
      (∀ w, presented = some w → htRW w = 0 → t.rdata = some 0x00000000)

/-- Register `off` lies at byte address BASE + 4 × off, and BASE is a multiple of 64 (20_memory.md R51). Bus accesses by
address are events of the model (log entry 7). -/
def Obligations.WindowAddressing : Prop :=
  Config.BASE % 64 = 0 ∧
  ∀ (s : State) (off : BitVec 4) (write : Bool) (data : Word) (rest : List Event),
    step { s with inputs := .access ⟨write, Config.BASE + 4 * off.toNat, .word, data⟩ :: rest } =
      step { s with inputs := .txn (htWord (if write then 1 else 0) off data) :: rest }

/-- R56: an access in the window that is not 32 bits wide, or not at a multiple of 4, has no step: the model is stuck.
The transactions themselves cannot express one. -/
def Obligations.SubWordAndMisalignedAccessesStuck : Prop :=
  ∀ (s : State) (a : BusAccess) (rest : List Event), ¬s.unspecified → s.inputs = .access a :: rest →
    Config.BASE ≤ a.addr → a.addr < Config.BASE + 64 → (a.width ≠ .word ∨ a.addr % 4 ≠ 0) →
    step s = .fault .busAccessNotAdmitted

/-! ## Commands (41_host_commands.md) -/

/-- R132: NOP "leaves every register unchanged", in every phase. -/
def Obligations.NopHasNoEffect : Prop :=
  ∀ s : State, exec .nop s = .next s

/-- R133: INIT, accepted in every phase: the registers it writes, every other one unchanged, STATUS 0x00000014. H becomes
IV, the eight words of 40_primitives.md R111. -/
def Obligations.InitEffect : Prop :=
  ∀ s : State, ∃ t, exec .init s = .next t ∧
    t = { s with H := IV, LEN := 0, CNT := 0, LAST := false, LENPEND := false,
                 err := ⟨false, false, false, false, false⟩, T := 0, PHASE := Phase.OPEN } ∧
    t.H = #v[0x6a09e667, 0xbb67ae85, 0x3c6ef372, 0xa54ff53a, 0x510e527f, 0x9b05688c, 0x1f83d9ab, 0x5be0cd19] ∧
    t.busy = false ∧ t.done = false ∧ t.ready = true ∧ t.status = 0x00000014

/-- R134: FINAL is refused with ERR_BUSY while BUSY, with ERR_SEQ in another phase than OPEN, and else starts padding. -/
def Obligations.FinalEffect : Prop :=
  ∀ s : State,
    (s.busy = true → exec .final s = .next { s with err := { s.err with busy := true } }) ∧
    (s.busy = false → s.PHASE ≠ Phase.OPEN → exec .final s = .next { s with err := { s.err with seq := true } }) ∧
    (s.PHASE = Phase.OPEN → ∃ t, exec .final s = .next t ∧ t = { s with PHASE := Phase.PAD } ∧
      s.busy = false ∧ t.busy = true ∧ t.ready = false)

/-- R135: a CTRL write of any other value sets ERR_CMD, in every phase, and changes nothing else. -/
def Obligations.IllcmdEffect : Prop :=
  ∀ (v : Word) (s : State), v ≠ 0 → v ≠ 1 → v ≠ 2 →
    decodeHT (htWord 1 0b0000 v) = .illcmd v ∧ exec (.illcmd v) s = .next { s with err := { s.err with cmd := true } }

/-! ## Message input -/

/-- R140: PUTB refused while BUSY, in another phase than OPEN, and at the length limit; accepted, it writes BUF[CNT],
adds 8 to LEN (exactly, no wrap), advances CNT or starts the complete block, and changes nothing else. -/
def Obligations.PutbEffect : Prop :=
  ∀ (x : BitVec 24) (b : Byte) (s : State),
    (s.busy = true → exec (.putb x b) s = .next { s with err := { s.err with busy := true } }) ∧
    (s.busy = false → s.PHASE ≠ Phase.OPEN → exec (.putb x b) s = .next { s with err := { s.err with seq := true } }) ∧
    (s.PHASE = Phase.OPEN → s.LEN.toNat + 8 > 2 ^ 64 - 8 →
      exec (.putb x b) s = .next { s with err := { s.err with len := true } }) ∧
    (s.PHASE = Phase.OPEN → s.LEN.toNat + 8 ≤ 2 ^ 64 - 8 → ∃ t, exec (.putb x b) s = .next t ∧
      t = { s with BUF := t.BUF, LEN := t.LEN, CNT := t.CNT, PHASE := t.PHASE } ∧
      t.BUF[s.CNT.toNat] = b ∧ (∀ (i : Nat) (h : i < 64), i ≠ s.CNT.toNat → t.BUF[i] = s.BUF[i]) ∧
      t.LEN.toNat = s.LEN.toNat + 8 ∧
      (s.CNT = 63 → t.CNT = 0 ∧ t.PHASE = Phase.LOAD ∧ t.busy = true ∧ t.ready = false) ∧
      (s.CNT ≠ 63 → t.CNT.toNat = s.CNT.toNat + 1 ∧ t.PHASE = Phase.OPEN))

/-- R141: PUTW, refused as PUTB, and with ERR_ALIGN when CNT is no multiple of 4 (before the length is checked);
accepted, it writes four bytes, most significant first, adds 32 to LEN, and advances CNT or starts the complete block;
"`W[CNT/4] = w` after LOAD". -/
def Obligations.PutwEffect : Prop :=
  ∀ (w : Word) (s : State),
    (s.busy = true → exec (.putw w) s = .next { s with err := { s.err with busy := true } }) ∧
    (s.busy = false → s.PHASE ≠ Phase.OPEN → exec (.putw w) s = .next { s with err := { s.err with seq := true } }) ∧
    (s.PHASE = Phase.OPEN → s.CNT.toNat % 4 ≠ 0 →
      exec (.putw w) s = .next { s with err := { s.err with align := true } }) ∧
    (s.PHASE = Phase.OPEN → s.CNT.toNat % 4 = 0 → s.LEN.toNat + 32 > 2 ^ 64 - 8 →
      exec (.putw w) s = .next { s with err := { s.err with len := true } }) ∧
    (s.PHASE = Phase.OPEN → s.CNT.toNat % 4 = 0 → s.LEN.toNat + 32 ≤ 2 ^ 64 - 8 → ∃ t, exec (.putw w) s = .next t ∧
      t = { s with BUF := t.BUF, LEN := t.LEN, CNT := t.CNT, PHASE := t.PHASE } ∧
      (∀ (i : Nat) (h : i < 64),
        (i = s.CNT.toNat → t.BUF[i] = w.extractLsb' 24 8) ∧
        (i = s.CNT.toNat + 1 → t.BUF[i] = w.extractLsb' 16 8) ∧
        (i = s.CNT.toNat + 2 → t.BUF[i] = w.extractLsb' 8 8) ∧
        (i = s.CNT.toNat + 3 → t.BUF[i] = w.extractLsb' 0 8) ∧
        (i < s.CNT.toNat ∨ s.CNT.toNat + 4 ≤ i → t.BUF[i] = s.BUF[i])) ∧
      t.LEN.toNat = s.LEN.toNat + 32 ∧
      (s.CNT = 60 → t.CNT = 0 ∧ t.PHASE = Phase.LOAD ∧ t.busy = true ∧ t.ready = false) ∧
      (s.CNT ≠ 60 → t.CNT.toNat = s.CNT.toNat + 4 ∧ t.PHASE = Phase.OPEN) ∧
      (∀ u : State, u.BUF = t.BUF → ∃ v, exec .load u = .next v ∧ v.W[s.CNT.toNat / 4] = w))

/-- An accepted PUTW does what four PUTB of its bytes, most significant first, do (20_memory.md R55, V-D3). -/
def Obligations.PutwIsFourPutb : Prop :=
  ∀ (w : Word) (s : State), s.PHASE = Phase.OPEN → s.CNT.toNat % 4 = 0 → s.LEN.toNat + 32 ≤ 2 ^ 64 - 8 →
    ∃ s1 s2 s3 s4, exec (.putb 0 (w.extractLsb' 24 8)) s = .next s1 ∧ exec (.putb 0 (w.extractLsb' 16 8)) s1 = .next s2 ∧
      exec (.putb 0 (w.extractLsb' 8 8)) s2 = .next s3 ∧ exec (.putb 0 (w.extractLsb' 0 8)) s3 = .next s4 ∧
      exec (.putw w) s = .next s4

/-- A word written by PUTW at CNT = 4j stands in W[j] after LOAD, whatever the host and the core did between that leaves
its four bytes of BUF alone (20_memory.md R55: "`W[j] = v` after LOAD"). -/
def Obligations.PutwWordReachesSchedule : Prop :=
  ∀ (w : Word) (s t u : State), s.PHASE = Phase.OPEN → s.CNT.toNat % 4 = 0 → s.LEN.toNat + 32 ≤ 2 ^ 64 - 8 →
    exec (.putw w) s = .next t →
    (∀ (i : Nat) (h : i < 64), s.CNT.toNat ≤ i → i < s.CNT.toNat + 4 → u.BUF[i] = t.BUF[i]) →
    ∃ v, exec .load u = .next v ∧ v.W[s.CNT.toNat / 4] = w

/-! ## Register reads and ignored writes -/

/-- R37: STATUS field by field, read by RSTAT, not changed by a write, its value after reset and after INIT. -/
def Obligations.StatusRegister : Prop :=
  (∀ (x : Word) (s : State), exec (.rstat x) s = .next { s with rdata := some s.status }) ∧
  (∀ s : State,
    (s.status.getLsbD 0 = true ↔ s.PHASE ∈ [Phase.PAD, Phase.PADLEN, Phase.LOAD, Phase.EXPAND, Phase.WINIT, Phase.ROUND,
      Phase.FOLD]) ∧
    (s.status.getLsbD 1 = true ↔ s.PHASE = Phase.DONE) ∧
    (s.status.getLsbD 2 = true ↔ s.PHASE = Phase.OPEN) ∧
    s.status.getLsbD 3 = false ∧
    s.status.extractLsb' 4 4 = s.PHASE ∧
    s.status.getLsbD 8 = s.err.seq ∧
    s.status.getLsbD 9 = s.err.busy ∧
    s.status.getLsbD 10 = s.err.len ∧
    s.status.getLsbD 11 = s.err.cmd ∧
    s.status.getLsbD 12 = s.err.align ∧
    s.status.extractLsb' 13 3 = 0 ∧
    s.status.extractLsb' 16 6 = s.CNT ∧
    s.status.extractLsb' 22 10 = 0) ∧
  (∀ (x : Word) (s : State), exec (.wignStatus x) s = .next s) ∧
  State.reset.status = 0x00000000 ∧
  (∀ s t : State, exec .init s = .next t → t.status = 0x00000014)

/-- R146, R147: LEN in two words. -/
def Obligations.LenReads : Prop :=
  ∀ (x : Word) (s : State), ∃ lo hi : Word,
    exec (.rlenlo x) s = .next { s with rdata := some lo } ∧ lo.toNat = s.LEN.toNat % 2 ^ 32 ∧
    exec (.rlenhi x) s = .next { s with rdata := some hi } ∧ hi.toNat = s.LEN.toNat / 2 ^ 32

/-- R41, R148: RDIG k returns H[k] "in every phase (no gating by DONE)"; a write to DIGESTk is ignored; after reset and
after INIT it is IV[k]. -/
def Obligations.DigestReads : Prop :=
  ∀ (k : BitVec 3) (x : Word),
    (∀ s : State, exec (.rdig k x) s = .next { s with rdata := some s.H[k.toNat] }) ∧
    (∀ s : State, exec (.wignDigest k x) s = .next s) ∧
    State.reset.H[k.toNat] = IV[k.toNat] ∧
    (∀ s t : State, exec .init s = .next t → t.H[k.toNat] = IV[k.toNat])

/-- R149, R150: reads of CTRL, DATA_B, DATA_W and the reserved offsets return 0. -/
def Obligations.WriteOnlyAndReservedReadZero : Prop :=
  ∀ (o : BitVec 1) (x : Word) (s : State),
    exec (.rdctrl x) s = .next { s with rdata := some 0x00000000 } ∧
    exec (.rddata o x) s = .next { s with rdata := some 0x00000000 } ∧
    exec (.rrsv o x) s = .next { s with rdata := some 0x00000000 }

/-- R152: writes to read-only and reserved registers have no effect. -/
def Obligations.IgnoredWritesHaveNoEffect : Prop :=
  ∀ (s : State) (x : Word), exec (.wignStatus x) s = .next s ∧
    (∀ o : BitVec 2, exec (.wignLenRsv o x) s = .next s) ∧ (∀ k : BitVec 3, exec (.wignDigest k x) s = .next s)

/-- R151: no read changes any state: every transaction with RW = 0 gives a next state that differs in the read port
alone. -/
def Obligations.ReadsChangeNoState : Prop :=
  ∀ (w : HTWord) (s : State), htRW w = 0 → ∃ v : Word, exec (decodeHT w) s = .next { s with rdata := some v }

/-- Bits without a meaning do not matter: DATA[31:8] of a PUTB and DATA of a read, which R83 and R86 call ignored, and
DATA of a write to a read-only or reserved register, which is "any" in R84 and R152. -/
def Obligations.IgnoredBitsDoNotMatter : Prop :=
  ∀ (s : State) (rw : BitVec 1) (off : BitVec 4) (d d' : Word),
    (rw = 0 ∨ off = 0b0001 ∨ 4 ≤ off.toNat ∨ (off = 0b0010 ∧ d.extractLsb' 0 8 = d'.extractLsb' 0 8)) →
    exec (decodeHT (htWord rw off d)) s = exec (decodeHT (htWord rw off d')) s

/-! ## Errors (60_exceptions.md) -/

/-- R231, R236: a transaction other than INIT sets the first error bit that applies, in the order of R236, and then
changes nothing else; where none applies it changes no error bit. INIT sets none: it clears them. -/
def Obligations.FirstErrorAlone : Prop :=
  (∀ (i : Instr) (s : State), i.isHost = true → i ≠ .init →
    (∀ e, firstError i s = some e → exec i s = .next { s with err := s.err.set e }) ∧
    (firstError i s = none → ∃ t, exec i s = .next t ∧ t.err = s.err)) ∧
  (∀ (err : Errors) (e e' : ErrBit), (err.set e).get e' = (decide (e' = e) || err.get e')) ∧
  (∀ s : State, ∃ t, exec .init s = .next t ∧ ∀ e, t.err.get e = false)

/-- R243: error bits accumulate (a refused write sets its own bit and leaves the others), and a step that clears one
was an INIT or a reset, and those clear all five. -/
def Obligations.ErrorBitsCleared : Prop :=
  ∀ (s t : State), step s = .next t →
    (∀ i e, s.presented = some i → ¬s.unspecified → firstError i s = some e →
      ∀ e', t.err.get e' = true ↔ e' = e ∨ s.err.get e' = true) ∧
    (∀ e, s.err.get e = true → t.err.get e = false → s.presented = some .init ∨ s.resetNext = true) ∧
    (s.presented = some .init ∨ s.resetNext = true → ∀ e, t.err.get e = false)

/-- R238: PAD, PADLEN, LOAD, EXPAND, WINIT, ROUND and FOLD have no error outcome. -/
def Obligations.DatapathRaisesNothing : Prop :=
  ∀ (i : Instr) (s : State), i.isHost = false → i.wf = true → ∃ t, exec i s = .next t ∧ t.err = s.err

/-! ## The sequencer and the registers (10_state.md) -/

/-- R29: PHASE and T change only along the rows of the successor table: "No other transition exists". -/
def Obligations.SequencerTransitions : Prop :=
  ∀ s t : State, step s = .next t → (t.PHASE = s.PHASE ∧ t.T = s.T) ∨ SeqEdge s t

/-- R22 to R27, R30: which instructions write each register (within an instruction's meaning; reset apart). -/
def Obligations.RegisterWriters : Prop :=
  ∀ (i : Instr) (s t : State), exec i s = .next t →
    (t.H ≠ s.H → i = .init ∨ i = .fold) ∧
    (t.wr ≠ s.wr → i = .winit ∨ ∃ n, i = .round n) ∧
    (∀ (j : Nat) (h : j < 64), t.W[j] ≠ s.W[j] →
      (i = .load ∧ j < 16) ∨ (∃ n : BitVec 6, i = .expand n ∧ j = n.toNat ∧ 16 ≤ j)) ∧
    (t.BUF ≠ s.BUF → (∃ x b, i = .putb x b) ∨ (∃ w, i = .putw w) ∨ i = .pad ∨ i = .padlen) ∧
    (t.CNT ≠ s.CNT → i = .init ∨ (∃ x b, i = .putb x b) ∨ (∃ w, i = .putw w) ∨ i = .pad) ∧
    (t.LEN ≠ s.LEN → i = .init ∨ (∃ x b, i = .putb x b) ∨ (∃ w, i = .putw w)) ∧
    (t.LAST ≠ s.LAST ∨ t.LENPEND ≠ s.LENPEND → i = .init ∨ i = .pad ∨ i = .padlen) ∧
    t.inputs = s.inputs

/-! ## The padder (42_padder.md) -/

/-- R160: PAD, byte by byte, and its frame. Byte 56 + j of the length field is `LEN[63 − 8j : 56 − 8j]` (00_scope.md
R11). -/
def Obligations.PadEffect : Prop :=
  ∀ s : State, ∃ t, exec .pad s = .next t ∧
    t = { s with BUF := t.BUF, LAST := t.LAST, LENPEND := t.LENPEND, CNT := 0, PHASE := Phase.LOAD } ∧
    t.BUF[s.CNT.toNat] = 0x80 ∧
    (∀ (i : Nat) (h : i < 64), i < s.CNT.toNat → t.BUF[i] = s.BUF[i]) ∧
    (s.CNT.toNat ≤ 55 →
      (∀ (i : Nat) (h : i < 64), s.CNT.toNat < i → i ≤ 55 → t.BUF[i] = 0x00) ∧
      (∀ (j : Nat) (h : j < 8), t.BUF[56 + j] = s.LEN.extractLsb' (56 - 8 * j) 8) ∧
      t.LAST = true ∧ t.LENPEND = false) ∧
    (56 ≤ s.CNT.toNat →
      (∀ (i : Nat) (h : i < 64), s.CNT.toNat < i → t.BUF[i] = 0x00) ∧ t.LAST = false ∧ t.LENPEND = true)

/-- R161: PADLEN, byte by byte, and its frame. The length field is as in `PadEffect`. -/
def Obligations.PadlenEffect : Prop :=
  ∀ s : State, ∃ t, exec .padlen s = .next t ∧
    t = { s with BUF := t.BUF, LAST := true, LENPEND := false, PHASE := Phase.LOAD } ∧
    (∀ (i : Nat) (h : i < 64), i ≤ 55 → t.BUF[i] = 0x00) ∧
    (∀ (j : Nat) (h : j < 8), t.BUF[56 + j] = s.LEN.extractLsb' (56 - 8 * j) 8)

/-- 42_padder.md section 1 (R162, and what R164 derives from it): the number of zero bytes is the least that makes the length 56 modulo 64, and the padded message is a
whole number of blocks, `floor((n + 8) / 64) + 1 = ceil((L + 65) / 512)`. -/
def Obligations.PaddingLength : Prop :=
  (∀ n : Nat, (n + 1 + Contract.zeros n) % 64 = 56 ∧
    ∀ z : Nat, (n + 1 + z) % 64 = 56 → Contract.zeros n ≤ z) ∧
  (∀ m : List Byte, (Contract.pad m).length = 64 * Contract.blockCount m.length) ∧
  (∀ n : Nat, Contract.blockCount n = (8 * n + 65 + 511) / 512)

/-! ## The datapath (40_primitives.md, 43_parser.md, 44_schedule.md, 45_compression.md) -/

/-- Bit `i` of ROTR(n, x) is bit `(i + n) mod 32` of x, and SHR shifts zeros in (40_primitives.md R100, R101); and bit by
bit the four sigma functions, each with the rotation and shift amounts of its rule (R104 to R107). -/
def Obligations.RotateAndShiftBits : Prop :=
  (∀ (n : Nat) (h : 0 < n ∧ n < 32) (x : Word) (i : Nat), i < 32 →
    (rotr n h x).getLsbD i = x.getLsbD ((i + n) % 32)) ∧
  (∀ (n : Nat) (x : Word) (i : Nat), (shr n x).getLsbD i = (decide (i + n < 32) && x.getLsbD (i + n))) ∧
  (∀ (x : Word) (i : Nat), i < 32 →
    ((bigSigma0 x).getLsbD i =
      (x.getLsbD ((i + 2) % 32) ^^ x.getLsbD ((i + 13) % 32) ^^ x.getLsbD ((i + 22) % 32))) ∧
    ((bigSigma1 x).getLsbD i =
      (x.getLsbD ((i + 6) % 32) ^^ x.getLsbD ((i + 11) % 32) ^^ x.getLsbD ((i + 25) % 32))) ∧
    ((smallSigma0 x).getLsbD i =
      (x.getLsbD ((i + 7) % 32) ^^ x.getLsbD ((i + 18) % 32) ^^ (decide (i + 3 < 32) && x.getLsbD (i + 3)))) ∧
    ((smallSigma1 x).getLsbD i =
      (x.getLsbD ((i + 17) % 32) ^^ x.getLsbD ((i + 19) % 32) ^^ (decide (i + 10 < 32) && x.getLsbD (i + 10)))))

/-- R102: "Bit i of the result is y[i] where x[i] = 1 and z[i] where x[i] = 0." -/
def Obligations.ChooseBits : Prop :=
  ∀ (x y z : Word) (i : Nat), i < 32 →
    (x.getLsbD i = true → (ch x y z).getLsbD i = y.getLsbD i) ∧
    (x.getLsbD i = false → (ch x y z).getLsbD i = z.getLsbD i)

/-- R103: "Bit i of the result is the majority of x[i], y[i], z[i]." -/
def Obligations.MajorityBits : Prop :=
  ∀ (x y z : Word) (i : Nat), i < 32 →
    ((maj x y z).getLsbD i = true ↔
      2 ≤ (x.getLsbD i).toNat + (y.getLsbD i).toNat + (z.getLsbD i).toNat)

/-- R108: every multi-operand sum of the rules is the sum of the operands as natural numbers, modulo 2^32. -/
def Obligations.SumsModulo32 : Prop :=
  (∀ x y : Word, (x + y).toNat = (x.toNat + y.toNat) % 2 ^ 32) ∧
  (∀ r : Work, r.t2.toNat = ((bigSigma0 r.a).toNat + (maj r.a r.b r.c).toNat) % 2 ^ 32) ∧
  (∀ (r : Work) (k w : Word), (r.t1 k w).toNat =
    (r.h.toNat + (bigSigma1 r.e).toNat + (ch r.e r.f r.g).toNat + k.toNat + w.toNat) % 2 ^ 32) ∧
  (∀ w2 w7 w15 w16 : Word, (scheduleSum w2 w7 w15 w16).toNat =
    ((smallSigma1 w2).toNat + w7.toNat + (smallSigma0 w15).toNat + w16.toNat) % 2 ^ 32) ∧
  (∀ (h : Vector Word 8) (r : Work) (k : Nat) (hk : k < 8), (foldH h r)[k].toNat =
    (h[k].toNat + ([r.a, r.b, r.c, r.d, r.e, r.f, r.g, r.h].getD k 0).toNat) % 2 ^ 32)

/-- R110: `K[i] = floor(cbrt(p_i × 2^96)) mod 2^32` for the i-th of the rule's 64 primes: with the integer part q of the
cube root, `(q × 2^32 + K[i])^3 ≤ p_i × 2^96 < (q × 2^32 + K[i] + 1)^3`. -/
def Obligations.RoundConstantsAreCubeRoots : Prop :=
  ∀ i : Fin 64, ∃ q : Fin 8,
    let p := ([2, 3, 5, 7, 11, 13, 17, 19, 23, 29, 31, 37, 41, 43, 47, 53] ++
      [59, 61, 67, 71, 73, 79, 83, 89, 97, 101, 103, 107, 109, 113, 127, 131] ++
      [137, 139, 149, 151, 157, 163, 167, 173, 179, 181, 191, 193, 197, 199, 211, 223] ++
      [227, 229, 233, 239, 241, 251, 257, 263, 269, 271, 277, 281, 283, 293, 307, 311]).getD i.val 0
    let r := q.val * 2 ^ 32 + (K (BitVec.ofNat 6 i.val)).toNat
    r ^ 3 ≤ p * 2 ^ 96 ∧ p * 2 ^ 96 < (r + 1) ^ 3

/-- R180: LOAD, word by word, and its frame. -/
def Obligations.LoadEffect : Prop :=
  ∀ s : State, ∃ t, exec .load s = .next t ∧ t = { s with W := t.W, T := 16, PHASE := Phase.EXPAND } ∧
    (∀ (j : Nat) (h : j < 16), t.W[j] = be32 s.BUF[4 * j] s.BUF[4 * j + 1] s.BUF[4 * j + 2] s.BUF[4 * j + 3]) ∧
    (∀ (j : Nat) (h : j < 64), 16 ≤ j → t.W[j] = s.W[j])

/-- R190: EXPAND t for t = 16..63: the new word, where the sequencer goes, and the frame. -/
def Obligations.ExpandEffect : Prop :=
  ∀ (t : BitVec 6) (s : State) (ht : 16 ≤ t.toNat), ∃ u, exec (.expand t) s = .next u ∧
    u = { s with W := u.W, T := u.T, PHASE := u.PHASE } ∧
    u.W[t.toNat] = smallSigma1 s.W[t.toNat - 2] + s.W[t.toNat - 7] + smallSigma0 s.W[t.toNat - 15] + s.W[t.toNat - 16] ∧
    (∀ (j : Nat) (h : j < 64), j ≠ t.toNat → u.W[j] = s.W[j]) ∧
    (t = 63 → u.T = 0 ∧ u.PHASE = Phase.WINIT) ∧
    (t ≠ 63 → u.T.toNat = t.toNat + 1 ∧ u.PHASE = s.PHASE)

/-- R201: WINIT, and its frame. -/
def Obligations.WinitEffect : Prop :=
  ∀ s : State, exec .winit s = .next { s with
    wr := ⟨s.H[0], s.H[1], s.H[2], s.H[3], s.H[4], s.H[5], s.H[6], s.H[7]⟩, T := 0, PHASE := Phase.ROUND }

/-- R202: ROUND t for t = 0..63: the simultaneous shift, where the sequencer goes, and the frame. -/
def Obligations.RoundEffect : Prop :=
  ∀ (t : BitVec 6) (s : State), ∃ u, exec (.round t) s = .next u ∧
    u = { s with wr := u.wr, T := u.T, PHASE := u.PHASE } ∧
    (∀ T1 T2 : Word,
      T1 = s.wr.h + bigSigma1 s.wr.e + ch s.wr.e s.wr.f s.wr.g + K t + s.W[t.toNat] →
      T2 = bigSigma0 s.wr.a + maj s.wr.a s.wr.b s.wr.c →
      u.wr.h = s.wr.g ∧ u.wr.g = s.wr.f ∧ u.wr.f = s.wr.e ∧ u.wr.e = s.wr.d + T1 ∧
      u.wr.d = s.wr.c ∧ u.wr.c = s.wr.b ∧ u.wr.b = s.wr.a ∧ u.wr.a = T1 + T2) ∧
    (t = 63 → u.T = 0 ∧ u.PHASE = Phase.FOLD) ∧
    (t ≠ 63 → u.T.toNat = t.toNat + 1 ∧ u.PHASE = s.PHASE)

/-- R203: FOLD, where it leads, and its frame: LAST and LENPEND stay. -/
def Obligations.FoldEffect : Prop :=
  ∀ s : State, ∃ t, exec .fold s = .next t ∧ t = { s with H := t.H, PHASE := t.PHASE } ∧
    t.H = #v[s.H[0] + s.wr.a, s.H[1] + s.wr.b, s.H[2] + s.wr.c, s.H[3] + s.wr.d,
      s.H[4] + s.wr.e, s.H[5] + s.wr.f, s.H[6] + s.wr.g, s.H[7] + s.wr.h] ∧
    (s.LAST = true → t.PHASE = Phase.DONE ∧ t.busy = false ∧ t.done = true) ∧
    (s.LAST = false → s.LENPEND = true → t.PHASE = Phase.PADLEN) ∧
    (s.LAST = false → s.LENPEND = false → t.PHASE = Phase.OPEN ∧ t.busy = false ∧ t.ready = true)

/-! ## Reset and invariants -/

/-- After reset the core is in IDLE; BUSY, DONE and READY are 0, STATUS is 0, DIGESTk reads IV[k]
(70_reset_and_hazards.md R261). That its idle turn is a step that changes nothing is the model's reading (log entry 3). -/
def Obligations.AfterReset : Prop :=
  State.reset.PHASE = Phase.IDLE ∧ State.reset.T = 0 ∧ State.reset.CNT = 0 ∧ State.reset.LEN = 0 ∧
  State.reset.busy = false ∧ State.reset.done = false ∧ State.reset.ready = false ∧ State.reset.status = 0x00000000 ∧
  (∀ e, State.reset.err.get e = false) ∧
  (∀ (k : BitVec 3) (x : Word), exec (.rdig k x) State.reset = .next { State.reset with rdata := some IV[k.toNat] }) ∧
  step State.reset = .next State.reset

/-- The invariants of R44 and the model's strengthening of them (log entry 19) hold in the reset state, whatever the
environment is about to do. -/
def Obligations.InvAtReset : Prop :=
  ∀ inputs : List Event, Inv { State.reset with inputs := inputs }

/-- Every step keeps the invariants of R44 and the model's strengthening of them (log entry 19), whatever its event. -/
def Obligations.InvKeptByStep : Prop :=
  ∀ s t : State, Inv s → step s = .next t → Inv t

/-- In a state with the invariants no step is refused and none faults, but for a bus access the core does not admit or
that is not in its window (20_memory.md R53: "every transaction completes in the cycle it is presented"). Where the core
has no step, in IDLE, OPEN and DONE (R60; 60_exceptions.md R250), its turn is a step of the model that changes no
register: that is the model's reading (log entry 3). Bus accesses as events and where they stop are the model's choice
(log entry 7). -/
def Obligations.StepCompletes : Prop :=
  ∀ s : State, Inv s → (∀ a rest, s.inputs = .access a :: rest → a.inWindow = true ∧ a.admitted = true) →
    ∃ t, step s = .next t

/-- R44.7, R262: two runs whose states differ at most in parts of a..h, W and BUF not yet written for the current block
stay so, and read the same values: "no observable value depends on them". -/
def Obligations.UnwrittenRegistersNotObserved : Prop :=
  ∀ s s' t : State, Inv s → SameWritten s s' → step s = .next t → ∃ t', step s' = .next t' ∧ SameWritten t t'

/-- R211: after INIT a state differs from any other after INIT at most in registers not yet written, so that a message's
digest does not depend on the messages before it (with `UnwrittenRegistersNotObserved`). -/
def Obligations.InitForgetsThePast : Prop :=
  ∀ s s' : State, s.rdata = s'.rdata → s.inputs = s'.inputs →
    ∃ t t', exec .init s = .next t ∧ exec .init s' = .next t' ∧ SameWritten t t'

/-- R131, R281: what a step does to CNT, LEN, PHASE, T, LAST, LENPEND and the error bits does not depend on H, a..h, W or
BUF: neither the error outcome of a transaction nor the number of core steps depends on the data. -/
def Obligations.ControlIndependentOfData : Prop :=
  ∀ (s s' t : State), step s = .next t →
    s' = { s with H := s'.H, wr := s'.wr, W := s'.W, BUF := s'.BUF, rdata := s'.rdata } →
    ∃ t', step s' = .next t' ∧ t' = { t with H := t'.H, wr := t'.wr, W := t'.W, BUF := t'.BUF, rdata := t'.rdata }

/-! ## Whole blocks and whole messages -/

/-- From LOAD, with no host step between, exactly 115 core steps compress the block in BUF into H, by the contract's
schedule and rounds, and lead where R203 says (10_state.md R29; 45_compression.md R200 to R203, R210). BUSY is 1 at every
step before. This departs from 20_memory.md R62, which says that the phase after the 115 steps is not BUSY: where FOLD
leads to PADLEN it is. -/
def Obligations.BlockCompression : Prop :=
  ∀ s : State, s.PHASE = Phase.LOAD → s.T = 0 → s.inputs = [] →
    (∃ t, Host.Core.run Sys2Proof.core 115 s = .next t ∧ t.H = Contract.compress s.H s.BUF.toList ∧
      t.busy = (!s.LAST && s.LENPEND) ∧
      t = { s with H := t.H, wr := t.wr, W := t.W, rdata := none,
                   PHASE := if s.LAST then Phase.DONE else if s.LENPEND then Phase.PADLEN else Phase.OPEN }) ∧
    (∀ k : Nat, k < 115 → ∃ u, Host.Core.run Sys2Proof.core k s = .next u ∧ u.busy = true)

/-- 10_state.md R29, 70_reset_and_hazards.md R280, R281: from an accepted FINAL, 116 core steps reach DONE when the length field fits (CNT ≤ 55), 232 otherwise;
BUSY is 1 at every step before. -/
def Obligations.PaddingStepCounts : Prop :=
  ∀ s : State, s.PHASE = Phase.PAD → s.T = 0 → s.inputs = [] →
    ∃ t, Host.Core.run Sys2Proof.core (if s.CNT.toNat ≤ 55 then 116 else 232) s = .next t ∧ t.PHASE = Phase.DONE ∧
      t.LAST = true ∧ t.LEN = s.LEN ∧
      ∀ k : Nat, k < (if s.CNT.toNat ≤ 55 then 116 else 232) →
        ∃ u, Host.Core.run Sys2Proof.core k s = .next u ∧ u.busy = true

/-- R210: whatever the interleaving of the core with the host's polling, `HASH m` ends in DONE with every error bit 0,
and the words it reads are those of SHA-256(m). How a host's runs are modelled is log entry 18. -/
def Obligations.HashComputesSha256 : Prop :=
  ∀ (m : List Byte) (s t : State) (vs : List Word), m.length < 2 ^ 61 → Inv s → HostRun s (hash m) t vs →
    t.PHASE = Phase.DONE ∧ (∀ e, t.err.get e = false) ∧
    Contract.digest t.H = Contract.sha256 m ∧ vs.flatMap bytes32 = Contract.sha256 m

/-- 10_state.md R29, 45_compression.md R210: `HASH m` can be run to its end from every state with the invariants: some
run ends. That every fair run does is `FairHostProgramsEnd`. How a host's runs are modelled is log entry 18. -/
def Obligations.HashCanBeRunToItsEnd : Prop :=
  ∀ (m : List Byte) (s : State), m.length < 2 ^ 61 → Inv s → ∃ t vs, HostRun s (hash m) t vs

/-- 20_memory.md R62, progress: in every run in which the core is fair, whatever the host does, if from some moment on no
INIT and no reset comes, there is a moment with BUSY = 0, and at most 232 core turns lie before it. Infinite runs over
single presented events are the model's form of R60's runs (log entry 20). -/
def Obligations.FairRunsReachRest : Prop :=
  ∀ (e : Nat → Event) (s : Nat → State), Run e s → Fair e s → ∀ k : Nat, (∀ n, k ≤ n → ¬(e n).restarts) →
    ∃ n, k ≤ n ∧ (s n).busy = false ∧ coreTurns e k n ≤ 232

/-- 30_encoding.md R89: WAITIDLE "terminates under the fairness of `20_memory.md` rule R62", so every fair run of every
host program ends, and what it did until then is a run of `HostRun`. That a host which is not done goes on is the model's
hypothesis (log entries 18 and 20). -/
def Obligations.FairHostProgramsEnd : Prop :=
  ∀ (e : Nat → Event) (s : Nat → State) (ops : Nat → List HostOp), FairHostRun e s ops →
    ∃ n vs, ops n = [] ∧ HostRun (s 0) (ops 0) (s n) vs
end

