-- ==== Sys2Proof/Laws/Decode.lean ====
section
/-! SUPPORT. Fields and words: reading a field of an assembled word gives the field, and assembling the fields of a word
gives the word. -/

namespace Sys2Proof.Laws

/-! ## Two adjoining fields -/

@[simp] theorem extract_high {n m : Nat} (x : BitVec n) (y : BitVec m) : (x ++ y).extractLsb' m n = x := by
  apply BitVec.eq_of_getLsbD_eq
  intro i hi
  simp [BitVec.getLsbD_append, hi]

@[simp] theorem extract_low {n m : Nat} (x : BitVec n) (y : BitVec m) : (x ++ y).extractLsb' 0 m = y := by
  apply BitVec.eq_of_getLsbD_eq
  intro i hi
  simp [BitVec.getLsbD_append, hi]

/-- A value of `n + m` bits is its two fields, put together. -/
theorem append_extract {n m : Nat} (w : BitVec (n + m)) : w.extractLsb' m n ++ w.extractLsb' 0 m = w := by
  apply BitVec.eq_of_getLsbD_eq
  intro i hi
  simp only [BitVec.getLsbD_extractLsb', BitVec.getLsbD_append]
  by_cases h : i < m
  · simp [h]
  · have : i - m < n := by omega
    simp [h, this, show m + (i - m) = i by omega]

/-! ## HT words -/

section
variable (rw : BitVec 1) (off : BitVec 4) (data : Word)

@[simp] theorem htRW_htWord : htRW (htWord rw off data) = rw := by
  apply BitVec.eq_of_getLsbD_eq
  intro i hi
  simp only [htRW, htWord, BitVec.getLsbD_extractLsb', BitVec.getLsbD_append]
  simp [hi, show ¬36 + i < 32 by omega, show ¬36 + i - 32 < 4 by omega, show 36 + i - 32 - 4 = i by omega]

@[simp] theorem htOFF_htWord : htOFF (htWord rw off data) = off := by
  apply BitVec.eq_of_getLsbD_eq
  intro i hi
  simp only [htOFF, htWord, BitVec.getLsbD_extractLsb', BitVec.getLsbD_append]
  simp [hi]

@[simp] theorem htDATA_htWord : htDATA (htWord rw off data) = data := by
  apply BitVec.eq_of_getLsbD_eq
  intro i hi
  simp only [htDATA, htWord, BitVec.getLsbD_extractLsb', BitVec.getLsbD_append]
  simp [hi]

@[simp] theorem decodeHT_htWord :
    decodeHT (htWord rw off data) = if rw = 1 then decodeWrite off data else decodeRead off data := by
  simp [decodeHT]

end

/-- Every HT word is a host transaction. -/
theorem decodeHT_isHost (w : HTWord) : (decodeHT w).isHost = true := by
  unfold decodeHT decodeWrite decodeRead decodeCTRL
  repeat' split
  all_goals rfl

theorem htWord_fields (w : HTWord) : htWord (htRW w) (htOFF w) (htDATA w) = w := by
  apply BitVec.eq_of_getLsbD_eq
  intro i hi
  simp only [htRW, htOFF, htDATA, htWord, BitVec.getLsbD_extractLsb', BitVec.getLsbD_append]
  by_cases h1 : i < 32
  · simp [h1]
  · by_cases h2 : i - 32 < 4
    · simp [h1, h2, show 32 + (i - 32) = i by omega]
    · simp [show i = 36 by omega]

/-! ## Sequencer words -/

section
variable (p : BitVec 4) (t : BitVec 6)

@[simp] theorem seqPHASE_seqWord : seqPHASE (seqWord p t) = p := extract_high p t

@[simp] theorem seqT_seqWord : seqT (seqWord p t) = t := extract_low p t

@[simp] theorem decodeSEQ_seqWord : decodeSEQ (seqWord p t) = decodePhaseT p t := by simp [decodeSEQ]

end

theorem seqWord_fields (w : SeqWord) : seqWord (seqPHASE w) (seqT w) = w := append_extract (n := 4) (m := 6) w

/-! ## Offsets with an operand in them -/

theorem bitVec1_cases (o : BitVec 1) : o = 0 ∨ o = 1 := by revert o; decide

theorem bitVec2_cases (o : BitVec 2) : o = 0 ∨ o = 1 ∨ o = 2 ∨ o = 3 := by revert o; decide

theorem bitVec3_cases (k : BitVec 3) : k = 0 ∨ k = 1 ∨ k = 2 ∨ k = 3 ∨ k = 4 ∨ k = 5 ∨ k = 6 ∨ k = 7 := by
  revert k; decide

/-- The offsets of the write rows. -/
theorem writeOffset_cases (o : BitVec 4) : o = 0 ∨ o = 1 ∨ o = 2 ∨ o = 3 ∨ (∃ k : BitVec 2, o = 0b01#2 ++ k) ∨
    (∃ k : BitVec 3, o = 0b1#1 ++ k) := by
  revert o; decide

/-- The offsets of the read rows. -/
theorem readOffset_cases (o : BitVec 4) : o = 0 ∨ o = 1 ∨ (∃ k : BitVec 1, o = 0b001#3 ++ k) ∨ o = 4 ∨ o = 5 ∨
    (∃ k : BitVec 1, o = 0b011#3 ++ k) ∨ (∃ k : BitVec 3, o = 0b1#1 ++ k) := by
  revert o; decide

@[simp] theorem decodeWrite_lenRsv (o : BitVec 2) (x : Word) : decodeWrite (0b01#2 ++ o) x = .wignLenRsv o x := by
  rcases bitVec2_cases o with rfl | rfl | rfl | rfl <;> rfl

@[simp] theorem decodeWrite_digest (k : BitVec 3) (x : Word) : decodeWrite (0b1#1 ++ k) x = .wignDigest k x := by
  rcases bitVec3_cases k with rfl | rfl | rfl | rfl | rfl | rfl | rfl | rfl <;> rfl

@[simp] theorem decodeRead_data (o : BitVec 1) (x : Word) : decodeRead (0b001#3 ++ o) x = .rddata o x := by
  rcases bitVec1_cases o with rfl | rfl <;> rfl

@[simp] theorem decodeRead_rsv (o : BitVec 1) (x : Word) : decodeRead (0b011#3 ++ o) x = .rrsv o x := by
  rcases bitVec1_cases o with rfl | rfl <;> rfl

@[simp] theorem decodeRead_digest (k : BitVec 3) (x : Word) : decodeRead (0b1#1 ++ k) x = .rdig k x := by
  rcases bitVec3_cases k with rfl | rfl | rfl | rfl | rfl | rfl | rfl | rfl <;> rfl

@[simp] theorem decodeWrite_putb (x : BitVec 24) (b : Byte) : decodeWrite 0b0010 (x ++ b) = .putb x b :=
  congrArg₂ Instr.putb (extract_high x b) (extract_low x b)

end Sys2Proof.Laws
end

