-- ==== Sys2Proof/Laws/State.lean ====
section
/-! SUPPORT. The registers after each named update of State: the one updated holds the new value, every other one stays.
With these, no proof unfolds a record update. -/

namespace Sys2Proof.Machine.State

variable (s : State)

/-! ## setH -/

@[simp] theorem setH_H (v : Vector Word 8) : (s.setH v).H = v := rfl
@[simp] theorem setH_wr (v : Vector Word 8) : (s.setH v).wr = s.wr := rfl
@[simp] theorem setH_W (v : Vector Word 8) : (s.setH v).W = s.W := rfl
@[simp] theorem setH_BUF (v : Vector Word 8) : (s.setH v).BUF = s.BUF := rfl
@[simp] theorem setH_CNT (v : Vector Word 8) : (s.setH v).CNT = s.CNT := rfl
@[simp] theorem setH_LEN (v : Vector Word 8) : (s.setH v).LEN = s.LEN := rfl
@[simp] theorem setH_PHASE (v : Vector Word 8) : (s.setH v).PHASE = s.PHASE := rfl
@[simp] theorem setH_T (v : Vector Word 8) : (s.setH v).T = s.T := rfl
@[simp] theorem setH_LAST (v : Vector Word 8) : (s.setH v).LAST = s.LAST := rfl
@[simp] theorem setH_LENPEND (v : Vector Word 8) : (s.setH v).LENPEND = s.LENPEND := rfl
@[simp] theorem setH_err (v : Vector Word 8) : (s.setH v).err = s.err := rfl
@[simp] theorem setH_rdata (v : Vector Word 8) : (s.setH v).rdata = s.rdata := rfl
@[simp] theorem setH_inputs (v : Vector Word 8) : (s.setH v).inputs = s.inputs := rfl

/-! ## setWr -/

@[simp] theorem setWr_H (v : Work) : (s.setWr v).H = s.H := rfl
@[simp] theorem setWr_wr (v : Work) : (s.setWr v).wr = v := rfl
@[simp] theorem setWr_W (v : Work) : (s.setWr v).W = s.W := rfl
@[simp] theorem setWr_BUF (v : Work) : (s.setWr v).BUF = s.BUF := rfl
@[simp] theorem setWr_CNT (v : Work) : (s.setWr v).CNT = s.CNT := rfl
@[simp] theorem setWr_LEN (v : Work) : (s.setWr v).LEN = s.LEN := rfl
@[simp] theorem setWr_PHASE (v : Work) : (s.setWr v).PHASE = s.PHASE := rfl
@[simp] theorem setWr_T (v : Work) : (s.setWr v).T = s.T := rfl
@[simp] theorem setWr_LAST (v : Work) : (s.setWr v).LAST = s.LAST := rfl
@[simp] theorem setWr_LENPEND (v : Work) : (s.setWr v).LENPEND = s.LENPEND := rfl
@[simp] theorem setWr_err (v : Work) : (s.setWr v).err = s.err := rfl
@[simp] theorem setWr_rdata (v : Work) : (s.setWr v).rdata = s.rdata := rfl
@[simp] theorem setWr_inputs (v : Work) : (s.setWr v).inputs = s.inputs := rfl

/-! ## setW -/

@[simp] theorem setW_H (v : Vector Word 64) : (s.setW v).H = s.H := rfl
@[simp] theorem setW_wr (v : Vector Word 64) : (s.setW v).wr = s.wr := rfl
@[simp] theorem setW_W (v : Vector Word 64) : (s.setW v).W = v := rfl
@[simp] theorem setW_BUF (v : Vector Word 64) : (s.setW v).BUF = s.BUF := rfl
@[simp] theorem setW_CNT (v : Vector Word 64) : (s.setW v).CNT = s.CNT := rfl
@[simp] theorem setW_LEN (v : Vector Word 64) : (s.setW v).LEN = s.LEN := rfl
@[simp] theorem setW_PHASE (v : Vector Word 64) : (s.setW v).PHASE = s.PHASE := rfl
@[simp] theorem setW_T (v : Vector Word 64) : (s.setW v).T = s.T := rfl
@[simp] theorem setW_LAST (v : Vector Word 64) : (s.setW v).LAST = s.LAST := rfl
@[simp] theorem setW_LENPEND (v : Vector Word 64) : (s.setW v).LENPEND = s.LENPEND := rfl
@[simp] theorem setW_err (v : Vector Word 64) : (s.setW v).err = s.err := rfl
@[simp] theorem setW_rdata (v : Vector Word 64) : (s.setW v).rdata = s.rdata := rfl
@[simp] theorem setW_inputs (v : Vector Word 64) : (s.setW v).inputs = s.inputs := rfl

/-! ## setBUF -/

@[simp] theorem setBUF_H (v : Vector Byte 64) : (s.setBUF v).H = s.H := rfl
@[simp] theorem setBUF_wr (v : Vector Byte 64) : (s.setBUF v).wr = s.wr := rfl
@[simp] theorem setBUF_W (v : Vector Byte 64) : (s.setBUF v).W = s.W := rfl
@[simp] theorem setBUF_BUF (v : Vector Byte 64) : (s.setBUF v).BUF = v := rfl
@[simp] theorem setBUF_CNT (v : Vector Byte 64) : (s.setBUF v).CNT = s.CNT := rfl
@[simp] theorem setBUF_LEN (v : Vector Byte 64) : (s.setBUF v).LEN = s.LEN := rfl
@[simp] theorem setBUF_PHASE (v : Vector Byte 64) : (s.setBUF v).PHASE = s.PHASE := rfl
@[simp] theorem setBUF_T (v : Vector Byte 64) : (s.setBUF v).T = s.T := rfl
@[simp] theorem setBUF_LAST (v : Vector Byte 64) : (s.setBUF v).LAST = s.LAST := rfl
@[simp] theorem setBUF_LENPEND (v : Vector Byte 64) : (s.setBUF v).LENPEND = s.LENPEND := rfl
@[simp] theorem setBUF_err (v : Vector Byte 64) : (s.setBUF v).err = s.err := rfl
@[simp] theorem setBUF_rdata (v : Vector Byte 64) : (s.setBUF v).rdata = s.rdata := rfl
@[simp] theorem setBUF_inputs (v : Vector Byte 64) : (s.setBUF v).inputs = s.inputs := rfl

/-! ## setCNT -/

@[simp] theorem setCNT_H (v : BitVec 6) : (s.setCNT v).H = s.H := rfl
@[simp] theorem setCNT_wr (v : BitVec 6) : (s.setCNT v).wr = s.wr := rfl
@[simp] theorem setCNT_W (v : BitVec 6) : (s.setCNT v).W = s.W := rfl
@[simp] theorem setCNT_BUF (v : BitVec 6) : (s.setCNT v).BUF = s.BUF := rfl
@[simp] theorem setCNT_CNT (v : BitVec 6) : (s.setCNT v).CNT = v := rfl
@[simp] theorem setCNT_LEN (v : BitVec 6) : (s.setCNT v).LEN = s.LEN := rfl
@[simp] theorem setCNT_PHASE (v : BitVec 6) : (s.setCNT v).PHASE = s.PHASE := rfl
@[simp] theorem setCNT_T (v : BitVec 6) : (s.setCNT v).T = s.T := rfl
@[simp] theorem setCNT_LAST (v : BitVec 6) : (s.setCNT v).LAST = s.LAST := rfl
@[simp] theorem setCNT_LENPEND (v : BitVec 6) : (s.setCNT v).LENPEND = s.LENPEND := rfl
@[simp] theorem setCNT_err (v : BitVec 6) : (s.setCNT v).err = s.err := rfl
@[simp] theorem setCNT_rdata (v : BitVec 6) : (s.setCNT v).rdata = s.rdata := rfl
@[simp] theorem setCNT_inputs (v : BitVec 6) : (s.setCNT v).inputs = s.inputs := rfl

/-! ## setLEN -/

@[simp] theorem setLEN_H (v : BitVec 64) : (s.setLEN v).H = s.H := rfl
@[simp] theorem setLEN_wr (v : BitVec 64) : (s.setLEN v).wr = s.wr := rfl
@[simp] theorem setLEN_W (v : BitVec 64) : (s.setLEN v).W = s.W := rfl
@[simp] theorem setLEN_BUF (v : BitVec 64) : (s.setLEN v).BUF = s.BUF := rfl
@[simp] theorem setLEN_CNT (v : BitVec 64) : (s.setLEN v).CNT = s.CNT := rfl
@[simp] theorem setLEN_LEN (v : BitVec 64) : (s.setLEN v).LEN = v := rfl
@[simp] theorem setLEN_PHASE (v : BitVec 64) : (s.setLEN v).PHASE = s.PHASE := rfl
@[simp] theorem setLEN_T (v : BitVec 64) : (s.setLEN v).T = s.T := rfl
@[simp] theorem setLEN_LAST (v : BitVec 64) : (s.setLEN v).LAST = s.LAST := rfl
@[simp] theorem setLEN_LENPEND (v : BitVec 64) : (s.setLEN v).LENPEND = s.LENPEND := rfl
@[simp] theorem setLEN_err (v : BitVec 64) : (s.setLEN v).err = s.err := rfl
@[simp] theorem setLEN_rdata (v : BitVec 64) : (s.setLEN v).rdata = s.rdata := rfl
@[simp] theorem setLEN_inputs (v : BitVec 64) : (s.setLEN v).inputs = s.inputs := rfl

/-! ## setPHASE -/

@[simp] theorem setPHASE_H (v : Phase) : (s.setPHASE v).H = s.H := rfl
@[simp] theorem setPHASE_wr (v : Phase) : (s.setPHASE v).wr = s.wr := rfl
@[simp] theorem setPHASE_W (v : Phase) : (s.setPHASE v).W = s.W := rfl
@[simp] theorem setPHASE_BUF (v : Phase) : (s.setPHASE v).BUF = s.BUF := rfl
@[simp] theorem setPHASE_CNT (v : Phase) : (s.setPHASE v).CNT = s.CNT := rfl
@[simp] theorem setPHASE_LEN (v : Phase) : (s.setPHASE v).LEN = s.LEN := rfl
@[simp] theorem setPHASE_PHASE (v : Phase) : (s.setPHASE v).PHASE = v := rfl
@[simp] theorem setPHASE_T (v : Phase) : (s.setPHASE v).T = s.T := rfl
@[simp] theorem setPHASE_LAST (v : Phase) : (s.setPHASE v).LAST = s.LAST := rfl
@[simp] theorem setPHASE_LENPEND (v : Phase) : (s.setPHASE v).LENPEND = s.LENPEND := rfl
@[simp] theorem setPHASE_err (v : Phase) : (s.setPHASE v).err = s.err := rfl
@[simp] theorem setPHASE_rdata (v : Phase) : (s.setPHASE v).rdata = s.rdata := rfl
@[simp] theorem setPHASE_inputs (v : Phase) : (s.setPHASE v).inputs = s.inputs := rfl

/-! ## setT -/

@[simp] theorem setT_H (v : BitVec 6) : (s.setT v).H = s.H := rfl
@[simp] theorem setT_wr (v : BitVec 6) : (s.setT v).wr = s.wr := rfl
@[simp] theorem setT_W (v : BitVec 6) : (s.setT v).W = s.W := rfl
@[simp] theorem setT_BUF (v : BitVec 6) : (s.setT v).BUF = s.BUF := rfl
@[simp] theorem setT_CNT (v : BitVec 6) : (s.setT v).CNT = s.CNT := rfl
@[simp] theorem setT_LEN (v : BitVec 6) : (s.setT v).LEN = s.LEN := rfl
@[simp] theorem setT_PHASE (v : BitVec 6) : (s.setT v).PHASE = s.PHASE := rfl
@[simp] theorem setT_T (v : BitVec 6) : (s.setT v).T = v := rfl
@[simp] theorem setT_LAST (v : BitVec 6) : (s.setT v).LAST = s.LAST := rfl
@[simp] theorem setT_LENPEND (v : BitVec 6) : (s.setT v).LENPEND = s.LENPEND := rfl
@[simp] theorem setT_err (v : BitVec 6) : (s.setT v).err = s.err := rfl
@[simp] theorem setT_rdata (v : BitVec 6) : (s.setT v).rdata = s.rdata := rfl
@[simp] theorem setT_inputs (v : BitVec 6) : (s.setT v).inputs = s.inputs := rfl

/-! ## setLAST -/

@[simp] theorem setLAST_H (v : Bool) : (s.setLAST v).H = s.H := rfl
@[simp] theorem setLAST_wr (v : Bool) : (s.setLAST v).wr = s.wr := rfl
@[simp] theorem setLAST_W (v : Bool) : (s.setLAST v).W = s.W := rfl
@[simp] theorem setLAST_BUF (v : Bool) : (s.setLAST v).BUF = s.BUF := rfl
@[simp] theorem setLAST_CNT (v : Bool) : (s.setLAST v).CNT = s.CNT := rfl
@[simp] theorem setLAST_LEN (v : Bool) : (s.setLAST v).LEN = s.LEN := rfl
@[simp] theorem setLAST_PHASE (v : Bool) : (s.setLAST v).PHASE = s.PHASE := rfl
@[simp] theorem setLAST_T (v : Bool) : (s.setLAST v).T = s.T := rfl
@[simp] theorem setLAST_LAST (v : Bool) : (s.setLAST v).LAST = v := rfl
@[simp] theorem setLAST_LENPEND (v : Bool) : (s.setLAST v).LENPEND = s.LENPEND := rfl
@[simp] theorem setLAST_err (v : Bool) : (s.setLAST v).err = s.err := rfl
@[simp] theorem setLAST_rdata (v : Bool) : (s.setLAST v).rdata = s.rdata := rfl
@[simp] theorem setLAST_inputs (v : Bool) : (s.setLAST v).inputs = s.inputs := rfl

/-! ## setLENPEND -/

@[simp] theorem setLENPEND_H (v : Bool) : (s.setLENPEND v).H = s.H := rfl
@[simp] theorem setLENPEND_wr (v : Bool) : (s.setLENPEND v).wr = s.wr := rfl
@[simp] theorem setLENPEND_W (v : Bool) : (s.setLENPEND v).W = s.W := rfl
@[simp] theorem setLENPEND_BUF (v : Bool) : (s.setLENPEND v).BUF = s.BUF := rfl
@[simp] theorem setLENPEND_CNT (v : Bool) : (s.setLENPEND v).CNT = s.CNT := rfl
@[simp] theorem setLENPEND_LEN (v : Bool) : (s.setLENPEND v).LEN = s.LEN := rfl
@[simp] theorem setLENPEND_PHASE (v : Bool) : (s.setLENPEND v).PHASE = s.PHASE := rfl
@[simp] theorem setLENPEND_T (v : Bool) : (s.setLENPEND v).T = s.T := rfl
@[simp] theorem setLENPEND_LAST (v : Bool) : (s.setLENPEND v).LAST = s.LAST := rfl
@[simp] theorem setLENPEND_LENPEND (v : Bool) : (s.setLENPEND v).LENPEND = v := rfl
@[simp] theorem setLENPEND_err (v : Bool) : (s.setLENPEND v).err = s.err := rfl
@[simp] theorem setLENPEND_rdata (v : Bool) : (s.setLENPEND v).rdata = s.rdata := rfl
@[simp] theorem setLENPEND_inputs (v : Bool) : (s.setLENPEND v).inputs = s.inputs := rfl

/-! ## setErr -/

@[simp] theorem setErr_H (v : Errors) : (s.setErr v).H = s.H := rfl
@[simp] theorem setErr_wr (v : Errors) : (s.setErr v).wr = s.wr := rfl
@[simp] theorem setErr_W (v : Errors) : (s.setErr v).W = s.W := rfl
@[simp] theorem setErr_BUF (v : Errors) : (s.setErr v).BUF = s.BUF := rfl
@[simp] theorem setErr_CNT (v : Errors) : (s.setErr v).CNT = s.CNT := rfl
@[simp] theorem setErr_LEN (v : Errors) : (s.setErr v).LEN = s.LEN := rfl
@[simp] theorem setErr_PHASE (v : Errors) : (s.setErr v).PHASE = s.PHASE := rfl
@[simp] theorem setErr_T (v : Errors) : (s.setErr v).T = s.T := rfl
@[simp] theorem setErr_LAST (v : Errors) : (s.setErr v).LAST = s.LAST := rfl
@[simp] theorem setErr_LENPEND (v : Errors) : (s.setErr v).LENPEND = s.LENPEND := rfl
@[simp] theorem setErr_err (v : Errors) : (s.setErr v).err = v := rfl
@[simp] theorem setErr_rdata (v : Errors) : (s.setErr v).rdata = s.rdata := rfl
@[simp] theorem setErr_inputs (v : Errors) : (s.setErr v).inputs = s.inputs := rfl

/-! ## setRdata -/

@[simp] theorem setRdata_H (v : Option Word) : (s.setRdata v).H = s.H := rfl
@[simp] theorem setRdata_wr (v : Option Word) : (s.setRdata v).wr = s.wr := rfl
@[simp] theorem setRdata_W (v : Option Word) : (s.setRdata v).W = s.W := rfl
@[simp] theorem setRdata_BUF (v : Option Word) : (s.setRdata v).BUF = s.BUF := rfl
@[simp] theorem setRdata_CNT (v : Option Word) : (s.setRdata v).CNT = s.CNT := rfl
@[simp] theorem setRdata_LEN (v : Option Word) : (s.setRdata v).LEN = s.LEN := rfl
@[simp] theorem setRdata_PHASE (v : Option Word) : (s.setRdata v).PHASE = s.PHASE := rfl
@[simp] theorem setRdata_T (v : Option Word) : (s.setRdata v).T = s.T := rfl
@[simp] theorem setRdata_LAST (v : Option Word) : (s.setRdata v).LAST = s.LAST := rfl
@[simp] theorem setRdata_LENPEND (v : Option Word) : (s.setRdata v).LENPEND = s.LENPEND := rfl
@[simp] theorem setRdata_err (v : Option Word) : (s.setRdata v).err = s.err := rfl
@[simp] theorem setRdata_rdata (v : Option Word) : (s.setRdata v).rdata = v := rfl
@[simp] theorem setRdata_inputs (v : Option Word) : (s.setRdata v).inputs = s.inputs := rfl

/-! ## setInputs -/

@[simp] theorem setInputs_H (v : List Event) : (s.setInputs v).H = s.H := rfl
@[simp] theorem setInputs_wr (v : List Event) : (s.setInputs v).wr = s.wr := rfl
@[simp] theorem setInputs_W (v : List Event) : (s.setInputs v).W = s.W := rfl
@[simp] theorem setInputs_BUF (v : List Event) : (s.setInputs v).BUF = s.BUF := rfl
@[simp] theorem setInputs_CNT (v : List Event) : (s.setInputs v).CNT = s.CNT := rfl
@[simp] theorem setInputs_LEN (v : List Event) : (s.setInputs v).LEN = s.LEN := rfl
@[simp] theorem setInputs_PHASE (v : List Event) : (s.setInputs v).PHASE = s.PHASE := rfl
@[simp] theorem setInputs_T (v : List Event) : (s.setInputs v).T = s.T := rfl
@[simp] theorem setInputs_LAST (v : List Event) : (s.setInputs v).LAST = s.LAST := rfl
@[simp] theorem setInputs_LENPEND (v : List Event) : (s.setInputs v).LENPEND = s.LENPEND := rfl
@[simp] theorem setInputs_err (v : List Event) : (s.setInputs v).err = s.err := rfl
@[simp] theorem setInputs_rdata (v : List Event) : (s.setInputs v).rdata = s.rdata := rfl
@[simp] theorem setInputs_inputs (v : List Event) : (s.setInputs v).inputs = v := rfl

/-! ## Functions of one register are unchanged by updates of the others -/

@[simp] theorem setH_busy (v : Vector Word 8) : (s.setH v).busy = s.busy := rfl
@[simp] theorem setWr_busy (v : Work) : (s.setWr v).busy = s.busy := rfl
@[simp] theorem setW_busy (v : Vector Word 64) : (s.setW v).busy = s.busy := rfl
@[simp] theorem setBUF_busy (v : Vector Byte 64) : (s.setBUF v).busy = s.busy := rfl
@[simp] theorem setCNT_busy (v : BitVec 6) : (s.setCNT v).busy = s.busy := rfl
@[simp] theorem setLEN_busy (v : BitVec 64) : (s.setLEN v).busy = s.busy := rfl
@[simp] theorem setT_busy (v : BitVec 6) : (s.setT v).busy = s.busy := rfl
@[simp] theorem setLAST_busy (v : Bool) : (s.setLAST v).busy = s.busy := rfl
@[simp] theorem setLENPEND_busy (v : Bool) : (s.setLENPEND v).busy = s.busy := rfl
@[simp] theorem setErr_busy (v : Errors) : (s.setErr v).busy = s.busy := rfl
@[simp] theorem setRdata_busy (v : Option Word) : (s.setRdata v).busy = s.busy := rfl
@[simp] theorem setInputs_busy (v : List Event) : (s.setInputs v).busy = s.busy := rfl
@[simp] theorem setPHASE_busy (v : Phase) : (s.setPHASE v).busy = v.busy := rfl

/-- Two states are equal when their registers are. -/
theorem eq_of_fields {s t : State} (h1 : s.H = t.H) (h2 : s.wr = t.wr) (h3 : s.W = t.W) (h4 : s.BUF = t.BUF)
    (h5 : s.CNT = t.CNT) (h6 : s.LEN = t.LEN) (h7 : s.PHASE = t.PHASE) (h8 : s.T = t.T) (h9 : s.LAST = t.LAST)
    (h10 : s.LENPEND = t.LENPEND) (h11 : s.err = t.err) (h12 : s.rdata = t.rdata) (h13 : s.inputs = t.inputs) :
    s = t := by
  cases s; cases t; simp_all

end Sys2Proof.Machine.State
end

