-- ==== Sys2Proof/Laws/Ops.lean ====
section
/-! SUPPORT. What the shared operations do: each register after appending bytes, padding, parsing, advancing T; the error
bits; and, for the transactions with checks, which branch an answer came from. -/

namespace Sys2Proof.Machine

/-! ## Phases -/

theorem Phase.busy_iff (p : Phase) : p.busy = true ↔ 3 ≤ p.toNat ∧ p.toNat ≤ 9 := by
  revert p; decide

/-- A transaction is accepted only in OPEN, which is not a busy phase. -/
theorem Phase.not_busy_of_open {p : Phase} (h : p = Phase.OPEN) : p.busy = false := by
  subst h; decide

/-! ## Error bits -/

theorem Errors.get_set (e : Errors) (x y : ErrBit) : (e.set x).get y = (decide (x = y) || e.get y) := by
  cases x <;> cases y <;> simp [Errors.get, Errors.set]

@[simp] theorem Errors.get_set_self (e : Errors) (x : ErrBit) : (e.set x).get x = true := by simp [Errors.get_set]

/-- A bit that is set stays set when another is raised. -/
theorem Errors.get_set_of_get {e : Errors} {x y : ErrBit} (h : e.get y = true) : (e.set x).get y = true := by
  simp [Errors.get_set, h]

@[simp] theorem Errors.get_none (x : ErrBit) : Errors.none.get x = false := by cases x <;> rfl

/-! ## Bytes -/

@[simp] theorem length_bytes32 (w : Word) : (bytes32 w).length = 4 := rfl

@[simp] theorem length_be64bytes (l : BitVec 64) : (be64bytes l).length = 8 := by simp [be64bytes]

/-- Assembling the four bytes of a word gives the word. -/
theorem be32_bytes (w : Word) :
    be32 (w.extractLsb' 24 8) (w.extractLsb' 16 8) (w.extractLsb' 8 8) (w.extractLsb' 0 8) = w := by
  apply BitVec.eq_of_getLsbD_eq
  intro i hi
  simp only [be32, BitVec.getLsbD_append, BitVec.getLsbD_extractLsb']
  by_cases h1 : i < 8
  · simp [h1]
  · by_cases h2 : i < 16
    · simp [h1, show i - 8 < 8 by omega, show 8 + (i - 8) = i by omega]
    · by_cases h3 : i < 24
      · simp [h1, show ¬i - 8 < 8 by omega, show i - 8 - 8 < 8 by omega, show 16 + (i - 8 - 8) = i by omega]
      · simp [h1, show ¬i - 8 < 8 by omega, show ¬i - 8 - 8 < 8 by omega, show i - 8 - 8 - 8 < 8 by omega,
          show 24 + (i - 8 - 8 - 8) = i by omega]

/-! ## Appending bytes -/

theorem getElem_bufAppend (s : State) (bs : List Byte) (i : Nat) (h : i < 64) :
    (s.bufAppend bs)[i] =
      if s.CNT.toNat ≤ i ∧ i < s.CNT.toNat + bs.length then bs.getD (i - s.CNT.toNat) 0 else s.BUF[i] := by
  simp [State.bufAppend]

section
variable (bs : List Byte) (s : State)

@[simp] theorem appendBytes_H : (appendBytes bs s).H = s.H := by
  unfold appendBytes; split <;> simp
@[simp] theorem appendBytes_wr : (appendBytes bs s).wr = s.wr := by
  unfold appendBytes; split <;> simp
@[simp] theorem appendBytes_W : (appendBytes bs s).W = s.W := by
  unfold appendBytes; split <;> simp
@[simp] theorem appendBytes_T : (appendBytes bs s).T = s.T := by
  unfold appendBytes; split <;> simp
@[simp] theorem appendBytes_LAST : (appendBytes bs s).LAST = s.LAST := by
  unfold appendBytes; split <;> simp
@[simp] theorem appendBytes_LENPEND : (appendBytes bs s).LENPEND = s.LENPEND := by
  unfold appendBytes; split <;> simp
@[simp] theorem appendBytes_err : (appendBytes bs s).err = s.err := by
  unfold appendBytes; split <;> simp
@[simp] theorem appendBytes_rdata : (appendBytes bs s).rdata = s.rdata := by
  unfold appendBytes; split <;> simp
@[simp] theorem appendBytes_inputs : (appendBytes bs s).inputs = s.inputs := by
  unfold appendBytes; split <;> simp
@[simp] theorem appendBytes_BUF : (appendBytes bs s).BUF = s.bufAppend bs := by
  unfold appendBytes; split <;> simp
@[simp] theorem appendBytes_LEN : (appendBytes bs s).LEN = s.LEN + BitVec.ofNat 64 (8 * bs.length) := by
  unfold appendBytes; split <;> simp
theorem appendBytes_CNT : (appendBytes bs s).CNT =
    if s.CNT.toNat + bs.length = 64 then 0 else s.CNT + BitVec.ofNat 6 bs.length := by
  unfold appendBytes; split <;> simp
theorem appendBytes_PHASE : (appendBytes bs s).PHASE =
    if s.CNT.toNat + bs.length = 64 then Phase.LOAD else s.PHASE := by
  unfold appendBytes; split <;> simp

/-- The block is not complete: CNT moves past the bytes, PHASE stays. -/
theorem appendBytes_partial (h : s.CNT.toNat + bs.length < 64) :
    (appendBytes bs s).CNT.toNat = s.CNT.toNat + bs.length ∧ (appendBytes bs s).PHASE = s.PHASE := by
  rw [appendBytes_CNT, appendBytes_PHASE, if_neg (by omega), if_neg (by omega)]
  simp only [BitVec.toNat_add, BitVec.toNat_ofNat, and_true]
  omega

/-- The block is complete: it is parsed next. -/
theorem appendBytes_full (h : s.CNT.toNat + bs.length = 64) :
    (appendBytes bs s).CNT = 0 ∧ (appendBytes bs s).PHASE = Phase.LOAD := by
  rw [appendBytes_CNT, appendBytes_PHASE, if_pos h, if_pos h]
  exact ⟨rfl, rfl⟩

/-- LEN does not wrap below the limit. -/
theorem appendBytes_LEN_toNat (h : s.LEN.toNat + 8 * bs.length < 2 ^ 64) :
    (appendBytes bs s).LEN.toNat = s.LEN.toNat + 8 * bs.length := by
  simp only [appendBytes_LEN, BitVec.toNat_add, BitVec.toNat_ofNat]
  omega

end

/-! ## Padding and parsing -/

section
variable (s : State) (i : Nat) (h : i < 64)

theorem getElem_bufPadFits : s.bufPadFits[i] =
    if i < s.CNT.toNat then s.BUF[i] else if i = s.CNT.toNat then 0x80 else if i ≤ 55 then 0
    else be64byte s.LEN (i - 56) := by
  simp [State.bufPadFits]

theorem getElem_bufPadSpill : s.bufPadSpill[i] =
    if i < s.CNT.toNat then s.BUF[i] else if i = s.CNT.toNat then 0x80 else 0 := by
  simp [State.bufPadSpill]

theorem getElem_bufPadLen : s.bufPadLen[i] = if i ≤ 55 then 0 else be64byte s.LEN (i - 56) := by
  simp [State.bufPadLen]

theorem getElem_parsedW_low (hi : i < 16) : s.parsedW[i] =
    be32 s.BUF[4 * i] s.BUF[4 * i + 1] s.BUF[4 * i + 2] s.BUF[4 * i + 3] := by
  simp [State.parsedW, hi]

theorem getElem_parsedW_high (hi : ¬i < 16) : s.parsedW[i] = s.W[i] := by
  simp [State.parsedW, hi]

end

/-! ## Advancing T -/

section
variable (s : State) (t : BitVec 6) (p : Phase)

@[simp] theorem nextIndex_H : (s.nextIndex t p).H = s.H := by unfold State.nextIndex; split <;> rfl
@[simp] theorem nextIndex_wr : (s.nextIndex t p).wr = s.wr := by unfold State.nextIndex; split <;> rfl
@[simp] theorem nextIndex_W : (s.nextIndex t p).W = s.W := by unfold State.nextIndex; split <;> rfl
@[simp] theorem nextIndex_BUF : (s.nextIndex t p).BUF = s.BUF := by unfold State.nextIndex; split <;> rfl
@[simp] theorem nextIndex_CNT : (s.nextIndex t p).CNT = s.CNT := by unfold State.nextIndex; split <;> rfl
@[simp] theorem nextIndex_LEN : (s.nextIndex t p).LEN = s.LEN := by unfold State.nextIndex; split <;> rfl
@[simp] theorem nextIndex_LAST : (s.nextIndex t p).LAST = s.LAST := by unfold State.nextIndex; split <;> rfl
@[simp] theorem nextIndex_LENPEND : (s.nextIndex t p).LENPEND = s.LENPEND := by unfold State.nextIndex; split <;> rfl
@[simp] theorem nextIndex_err : (s.nextIndex t p).err = s.err := by unfold State.nextIndex; split <;> rfl
@[simp] theorem nextIndex_rdata : (s.nextIndex t p).rdata = s.rdata := by unfold State.nextIndex; split <;> rfl
@[simp] theorem nextIndex_inputs : (s.nextIndex t p).inputs = s.inputs := by unfold State.nextIndex; split <;> rfl
theorem nextIndex_T : (s.nextIndex t p).T = if t = 63 then 0 else t + 1 := by unfold State.nextIndex; split <;> rfl
theorem nextIndex_PHASE : (s.nextIndex t p).PHASE = if t = 63 then p else s.PHASE := by
  unfold State.nextIndex; split <;> rfl

/-- "T never wraps: every increment is from a value below 63" (10_state.md R29). -/
theorem toNat_index_succ {t : BitVec 6} (h : t ≠ 63) : (t + 1).toNat = t.toNat + 1 ∧ t.toNat < 63 := by
  have h1 : t.toNat ≠ 63 := fun e => h (by apply BitVec.eq_of_toNat_eq; simpa using e)
  have h2 := t.isLt
  simp only [BitVec.toNat_add, show BitVec.toNat (1 : BitVec 6) = 1 from rfl]
  omega

end

/-! ## The arms of exec -/

section
variable (s : State)

@[simp] theorem exec_nop : exec .nop s = execNop s := rfl
@[simp] theorem exec_init : exec .init s = execInit s := rfl
@[simp] theorem exec_final : exec .final s = execFinal s := rfl
@[simp] theorem exec_illcmd (v : Word) : exec (.illcmd v) s = execIllcmd v s := rfl
@[simp] theorem exec_wignStatus (x : Word) : exec (.wignStatus x) s = execWignStatus x s := rfl
@[simp] theorem exec_putb (x : BitVec 24) (b : Byte) : exec (.putb x b) s = execPutb x b s := rfl
@[simp] theorem exec_putw (w : Word) : exec (.putw w) s = execPutw w s := rfl
@[simp] theorem exec_wignLenRsv (o : BitVec 2) (x : Word) : exec (.wignLenRsv o x) s = execWignLenRsv o x s := rfl
@[simp] theorem exec_wignDigest (k : BitVec 3) (x : Word) : exec (.wignDigest k x) s = execWignDigest k x s := rfl
@[simp] theorem exec_rdctrl (x : Word) : exec (.rdctrl x) s = execRdctrl x s := rfl
@[simp] theorem exec_rstat (x : Word) : exec (.rstat x) s = execRstat x s := rfl
@[simp] theorem exec_rddata (o : BitVec 1) (x : Word) : exec (.rddata o x) s = execRddata o x s := rfl
@[simp] theorem exec_rlenlo (x : Word) : exec (.rlenlo x) s = execRlenlo x s := rfl
@[simp] theorem exec_rlenhi (x : Word) : exec (.rlenhi x) s = execRlenhi x s := rfl
@[simp] theorem exec_rrsv (o : BitVec 1) (x : Word) : exec (.rrsv o x) s = execRrsv o x s := rfl
@[simp] theorem exec_rdig (k : BitVec 3) (x : Word) : exec (.rdig k x) s = execRdig k x s := rfl
@[simp] theorem exec_pad : exec .pad s = execPad s := rfl
@[simp] theorem exec_padlen : exec .padlen s = execPadlen s := rfl
@[simp] theorem exec_load : exec .load s = execLoad s := rfl
@[simp] theorem exec_expand (t : BitVec 6) : exec (.expand t) s = execExpand t s := rfl
@[simp] theorem exec_winit : exec .winit s = execWinit s := rfl
@[simp] theorem exec_round (t : BitVec 6) : exec (.round t) s = execRound t s := rfl
@[simp] theorem exec_fold : exec .fold s = execFold s := rfl

end

/-! ## Transactions with checks: which branch an answer came from -/

theorem execFinal_cases {s t : State} (h : execFinal s = .next t) :
    (s.busy = true ∧ t = s.setErr (s.err.set .busy)) ∨
    (s.busy = false ∧ s.PHASE ≠ Phase.OPEN ∧ t = s.setErr (s.err.set .seq)) ∨
    (s.busy = false ∧ s.PHASE = Phase.OPEN ∧ t = s.setPHASE Phase.PAD) := by
  unfold execFinal raise at h
  split at h <;> rename_i h1
  · cases h; exact .inl ⟨h1, rfl⟩
  · split at h <;> rename_i h2 <;> cases h
    · exact .inr (.inl ⟨by simpa using h1, h2, rfl⟩)
    · exact .inr (.inr ⟨by simpa using h1, by simpa using h2, rfl⟩)

theorem execPutb_cases {x : BitVec 24} {b : Byte} {s t : State} (h : execPutb x b s = .next t) :
    (s.busy = true ∧ t = s.setErr (s.err.set .busy)) ∨
    (s.busy = false ∧ s.PHASE ≠ Phase.OPEN ∧ t = s.setErr (s.err.set .seq)) ∨
    (s.busy = false ∧ s.PHASE = Phase.OPEN ∧ s.LEN.toNat + 8 > LEN_MAX ∧ t = s.setErr (s.err.set .len)) ∨
    (s.busy = false ∧ s.PHASE = Phase.OPEN ∧ s.LEN.toNat + 8 ≤ LEN_MAX ∧ t = appendBytes [b] s) := by
  unfold execPutb raise at h
  split at h <;> rename_i h1
  · cases h; exact .inl ⟨h1, rfl⟩
  · have h1 : s.busy = false := by simpa using h1
    split at h <;> rename_i h2
    · cases h; exact .inr (.inl ⟨h1, h2, rfl⟩)
    · have h2 : s.PHASE = Phase.OPEN := by simpa using h2
      split at h <;> rename_i h3 <;> cases h
      · exact .inr (.inr (.inl ⟨h1, h2, h3, rfl⟩))
      · exact .inr (.inr (.inr ⟨h1, h2, by omega, rfl⟩))

theorem execPutw_cases {w : Word} {s t : State} (h : execPutw w s = .next t) :
    (s.busy = true ∧ t = s.setErr (s.err.set .busy)) ∨
    (s.busy = false ∧ s.PHASE ≠ Phase.OPEN ∧ t = s.setErr (s.err.set .seq)) ∨
    (s.busy = false ∧ s.PHASE = Phase.OPEN ∧ s.CNT.toNat % 4 ≠ 0 ∧ t = s.setErr (s.err.set .align)) ∨
    (s.busy = false ∧ s.PHASE = Phase.OPEN ∧ s.CNT.toNat % 4 = 0 ∧ s.LEN.toNat + 32 > LEN_MAX ∧
      t = s.setErr (s.err.set .len)) ∨
    (s.busy = false ∧ s.PHASE = Phase.OPEN ∧ s.CNT.toNat % 4 = 0 ∧ s.LEN.toNat + 32 ≤ LEN_MAX ∧
      t = appendBytes (bytes32 w) s) := by
  unfold execPutw raise at h
  split at h <;> rename_i h1
  · cases h; exact .inl ⟨h1, rfl⟩
  · have h1 : s.busy = false := by simpa using h1
    split at h <;> rename_i h2
    · cases h; exact .inr (.inl ⟨h1, h2, rfl⟩)
    · have h2 : s.PHASE = Phase.OPEN := by simpa using h2
      split at h <;> rename_i h3
      · cases h; exact .inr (.inr (.inl ⟨h1, h2, h3, rfl⟩))
      · have h3 : s.CNT.toNat % 4 = 0 := by simpa using h3
        split at h <;> rename_i h4 <;> cases h
        · exact .inr (.inr (.inr (.inl ⟨h1, h2, h3, h4, rfl⟩)))
        · exact .inr (.inr (.inr (.inr ⟨h1, h2, h3, by omega, rfl⟩)))

/-- PUTB is accepted in OPEN below the length limit. -/
theorem execPutb_accepted (x : BitVec 24) (b : Byte) {s : State} (hp : s.PHASE = Phase.OPEN)
    (hl : s.LEN.toNat + 8 ≤ LEN_MAX) : execPutb x b s = .next (appendBytes [b] s) := by
  have hb : s.busy = false := Phase.not_busy_of_open hp
  unfold execPutb
  rw [if_neg (by simp [hb]), if_neg (by simpa using hp), if_neg (by omega)]

/-- PUTW is accepted in OPEN at a multiple of 4 below the length limit. -/
theorem execPutw_accepted (w : Word) {s : State} (hp : s.PHASE = Phase.OPEN) (hc : s.CNT.toNat % 4 = 0)
    (hl : s.LEN.toNat + 32 ≤ LEN_MAX) : execPutw w s = .next (appendBytes (bytes32 w) s) := by
  have hb : s.busy = false := Phase.not_busy_of_open hp
  unfold execPutw
  rw [if_neg (by simp [hb]), if_neg (by simpa using hp), if_neg (by omega), if_neg (by omega)]

/-- What a host transaction can do: nothing, a read, an error bit, INIT, an accepted FINAL, or accepted bytes. -/
theorem exec_host_cases {i : Instr} {s t : State} (hi : i.isHost = true) (h : exec i s = .next t) :
    (t = s) ∨ (∃ v, t = s.setRdata (some v)) ∨ (∃ e, t = s.setErr (s.err.set e)) ∨
    (i = .init ∧ execInit s = .next t) ∨
    (i = .final ∧ s.PHASE = Phase.OPEN ∧ t = s.setPHASE Phase.PAD) ∨
    (∃ bs : List Byte, s.PHASE = Phase.OPEN ∧ s.LEN.toNat + 8 * bs.length ≤ LEN_MAX ∧ t = appendBytes bs s ∧
      ((∃ x b, i = .putb x b ∧ bs = [b]) ∨ (∃ w, i = .putw w ∧ bs = bytes32 w ∧ s.CNT.toNat % 4 = 0))) := by
  cases i with
  | init => exact .inr (.inr (.inr (.inl ⟨rfl, h⟩)))
  | illcmd v => rw [exec_illcmd] at h; cases h; exact .inr (.inr (.inl ⟨.cmd, rfl⟩))
  | final =>
    rcases execFinal_cases h with ⟨_, rfl⟩ | ⟨_, _, rfl⟩ | ⟨_, ho, rfl⟩
    · exact .inr (.inr (.inl ⟨.busy, rfl⟩))
    · exact .inr (.inr (.inl ⟨.seq, rfl⟩))
    · exact .inr (.inr (.inr (.inr (.inl ⟨rfl, ho, rfl⟩))))
  | putb x b =>
    rcases execPutb_cases (x := x) h with ⟨_, rfl⟩ | ⟨_, _, rfl⟩ | ⟨_, _, _, rfl⟩ | ⟨_, ho, hl, rfl⟩
    · exact .inr (.inr (.inl ⟨.busy, rfl⟩))
    · exact .inr (.inr (.inl ⟨.seq, rfl⟩))
    · exact .inr (.inr (.inl ⟨.len, rfl⟩))
    · exact .inr (.inr (.inr (.inr (.inr ⟨[b], ho, hl, rfl, .inl ⟨x, b, rfl, rfl⟩⟩))))
  | putw w =>
    rcases execPutw_cases (w := w) h with ⟨_, rfl⟩ | ⟨_, _, rfl⟩ | ⟨_, _, _, rfl⟩ | ⟨_, _, _, _, rfl⟩ | ⟨_, ho, hc, hl, rfl⟩
    · exact .inr (.inr (.inl ⟨.busy, rfl⟩))
    · exact .inr (.inr (.inl ⟨.seq, rfl⟩))
    · exact .inr (.inr (.inl ⟨.align, rfl⟩))
    · exact .inr (.inr (.inl ⟨.len, rfl⟩))
    · exact .inr (.inr (.inr (.inr (.inr ⟨bytes32 w, ho, hl, rfl, .inr ⟨w, rfl, rfl, hc⟩⟩))))
  | nop => cases h; exact .inl rfl
  | wignStatus x => cases h; exact .inl rfl
  | wignLenRsv o x => cases h; exact .inl rfl
  | wignDigest k x => cases h; exact .inl rfl
  | rdctrl x => cases h; exact .inr (.inl ⟨_, rfl⟩)
  | rstat x => cases h; exact .inr (.inl ⟨_, rfl⟩)
  | rddata o x => cases h; exact .inr (.inl ⟨_, rfl⟩)
  | rlenlo x => cases h; exact .inr (.inl ⟨_, rfl⟩)
  | rlenhi x => cases h; exact .inr (.inl ⟨_, rfl⟩)
  | rrsv o x => cases h; exact .inr (.inl ⟨_, rfl⟩)
  | rdig k x => cases h; exact .inr (.inl ⟨_, rfl⟩)
  | pad | padlen | load | expand | winit | round | fold => simp [Instr.isHost] at hi

/-! ## The micro-operations

Each with the value it computes held in a variable of its own, so that a proof about the other registers never meets it. -/

theorem execLoad_next (s : State) : execLoad s = .next (((s.setW s.parsedW).setT 16).setPHASE Phase.EXPAND) := rfl

theorem execWinit_next (s : State) : execWinit s = .next (((s.setWr (Work.ofH s.H)).setT 0).setPHASE Phase.ROUND) := rfl

theorem execFold_next (s : State) : execFold s = .next ((s.setH (foldH s.H s.wr)).setPHASE s.afterFold) := rfl

theorem execPad_cases {s t : State} (h : execPad s = .next t) :
    (s.CNT.toNat ≤ 55 ∧ ∃ v, v = s.bufPadFits ∧
      t = ((((s.setBUF v).setLAST true).setLENPEND false).setCNT 0).setPHASE Phase.LOAD) ∨
    (¬s.CNT.toNat ≤ 55 ∧ ∃ v, v = s.bufPadSpill ∧
      t = ((((s.setBUF v).setLAST false).setLENPEND true).setCNT 0).setPHASE Phase.LOAD) := by
  unfold execPad at h
  dsimp only at h
  split at h <;> rename_i h1 <;> cases h
  · exact .inl ⟨h1, _, rfl, rfl⟩
  · exact .inr ⟨h1, _, rfl, rfl⟩

theorem execPadlen_cases {s t : State} (h : execPadlen s = .next t) :
    ∃ v, v = s.bufPadLen ∧ t = (((s.setBUF v).setLAST true).setLENPEND false).setPHASE Phase.LOAD := by
  cases h; exact ⟨_, rfl, rfl⟩

theorem execLoad_cases {s t : State} (h : execLoad s = .next t) :
    ∃ v, v = s.parsedW ∧ t = ((s.setW v).setT 16).setPHASE Phase.EXPAND := by
  cases h; exact ⟨_, rfl, rfl⟩

/-- The word EXPAND t derives, t ≥ 16. -/
def expandWord (s : State) (t : BitVec 6) : Word :=
  scheduleSum (s.w (t.toNat - 2) (by omega)) (s.w (t.toNat - 7) (by omega)) (s.w (t.toNat - 15) (by omega))
    (s.w (t.toNat - 16) (by omega))

theorem execExpand_next {t : BitVec 6} {s : State} (h : 16 ≤ t.toNat) :
    execExpand t s = .next ((s.setW (s.W.set t.toNat (expandWord s t))).nextIndex t Phase.WINIT) := by
  unfold execExpand expandWord
  rw [if_neg (by omega)]

theorem execExpand_cases {t : BitVec 6} {s u : State} (h : execExpand t s = .next u) :
    16 ≤ t.toNat ∧ ∃ v, v = s.W.set t.toNat (expandWord s t) ∧ u = (s.setW v).nextIndex t Phase.WINIT := by
  by_cases h1 : 16 ≤ t.toNat
  · rw [execExpand_next h1] at h
    cases h
    exact ⟨h1, _, rfl, rfl⟩
  · unfold execExpand at h
    rw [if_pos (by omega)] at h
    cases h

theorem execWinit_cases {s t : State} (h : execWinit s = .next t) :
    ∃ v, v = Work.ofH s.H ∧ t = ((s.setWr v).setT 0).setPHASE Phase.ROUND := by
  cases h; exact ⟨_, rfl, rfl⟩

theorem execRound_cases {t : BitVec 6} {s u : State} (h : execRound t s = .next u) :
    ∃ v, v = s.wr.round (K t) (s.w t.toNat (by omega)) ∧ u = (s.setWr v).nextIndex t Phase.FOLD := by
  cases h; exact ⟨_, rfl, rfl⟩

theorem execFold_cases {s t : State} (h : execFold s = .next t) :
    ∃ v, v = foldH s.H s.wr ∧ t = (s.setH v).setPHASE s.afterFold := by
  cases h; exact ⟨_, rfl, rfl⟩

end Sys2Proof.Machine
end

