-- ==== Sys2Proof/Laws/Step.lean ====
section
/-! SUPPORT. What a step can do: one equation for each kind of event, and the inversion of a core turn and of a step. -/

namespace Sys2Proof.Machine

/-! ## The state a step's event acts in -/

section
variable (s : State) (rest : List Event)

@[simp] theorem begin_H : (s.begin rest).H = s.H := rfl
@[simp] theorem begin_wr : (s.begin rest).wr = s.wr := rfl
@[simp] theorem begin_W : (s.begin rest).W = s.W := rfl
@[simp] theorem begin_BUF : (s.begin rest).BUF = s.BUF := rfl
@[simp] theorem begin_CNT : (s.begin rest).CNT = s.CNT := rfl
@[simp] theorem begin_LEN : (s.begin rest).LEN = s.LEN := rfl
@[simp] theorem begin_PHASE : (s.begin rest).PHASE = s.PHASE := rfl
@[simp] theorem begin_T : (s.begin rest).T = s.T := rfl
@[simp] theorem begin_LAST : (s.begin rest).LAST = s.LAST := rfl
@[simp] theorem begin_LENPEND : (s.begin rest).LENPEND = s.LENPEND := rfl
@[simp] theorem begin_err : (s.begin rest).err = s.err := rfl
@[simp] theorem begin_rdata : (s.begin rest).rdata = none := rfl
@[simp] theorem begin_inputs : (s.begin rest).inputs = rest := rfl
@[simp] theorem begin_busy : (s.begin rest).busy = s.busy := rfl
@[simp] theorem begin_seqWord : (s.begin rest).seqWord = s.seqWord := rfl

end

/-! ## The sequencer word -/

/-- The micro-operation a sequencer state selects, read backwards: which PHASE and T give it. -/
theorem decodePhaseT_ok {p : BitVec 4} {t : BitVec 6} {i : Instr} (h : decodePhaseT p t = .ok i) :
    (p = Phase.PAD ∧ t = 0 ∧ i = .pad) ∨ (p = Phase.PADLEN ∧ t = 0 ∧ i = .padlen) ∨
    (p = Phase.LOAD ∧ t = 0 ∧ i = .load) ∨ (p = Phase.EXPAND ∧ 16 ≤ t.toNat ∧ i = .expand t) ∨
    (p = Phase.WINIT ∧ t = 0 ∧ i = .winit) ∨ (p = Phase.ROUND ∧ i = .round t) ∨
    (p = Phase.FOLD ∧ t = 0 ∧ i = .fold) := by
  simp only [decodePhaseT] at h
  repeat' split at h
  all_goals simp_all

/-- The sequencer states without a micro-operation. -/
theorem decodePhaseT_noMicroOp {p : BitVec 4} {t : BitVec 6} (h : decodePhaseT p t = .error .noMicroOp) :
    t = 0 ∧ (p = Phase.IDLE ∨ p = Phase.OPEN ∨ p = Phase.DONE) := by
  simp only [decodePhaseT] at h
  repeat' split at h
  all_goals simp_all

/-- A sequencer state has a meaning exactly when it is not one of those R87 lists. -/
theorem seqSpecified_iff (s : State) : seqSpecified s.PHASE s.T = true ↔ ¬s.unspecified := by
  have hp : ∀ p : Phase, p = 0 ∨ p = 1 ∨ p = 2 ∨ p = 3 ∨ p = 4 ∨ p = 5 ∨ p = 6 ∨ p = 7 ∨ p = 8 ∨ p = 9 ∨
      10 ≤ p.toNat := by decide
  unfold seqSpecified State.unspecified
  rw [Laws.decodeSEQ_seqWord]
  rcases hp s.PHASE with h | h | h | h | h | h | h | h | h | h | h
  case inr.inr.inr.inr.inr.inr.inr.inr.inr.inr =>
    have hne : ∀ p : Phase, p.toNat ≤ 9 → s.PHASE ≠ p := fun p hp e => by rw [e] at h; omega
    by_cases hT : s.T = 0 <;> simp [decodePhaseT, h, hne, hT]
  case inr.inr.inr.inr.inr.inr.inl =>
    rw [h]
    by_cases h16 : 16 ≤ s.T.toNat
    · simp [decodePhaseT, h16]
    · simp [decodePhaseT, h16]
  all_goals
    rw [h]
    by_cases hT : s.T = 0 <;> simp_all [decodePhaseT]

/-- What a core turn can do: nothing in IDLE, OPEN and DONE, else the micro-operation PHASE names. -/
theorem coreTurn_cases {s t : State} (h : coreTurn s = .next t) :
    (t = s ∧ s.T = 0 ∧ (s.PHASE = Phase.IDLE ∨ s.PHASE = Phase.OPEN ∨ s.PHASE = Phase.DONE)) ∨
    (s.PHASE = Phase.PAD ∧ s.T = 0 ∧ execPad s = .next t) ∨
    (s.PHASE = Phase.PADLEN ∧ s.T = 0 ∧ execPadlen s = .next t) ∨
    (s.PHASE = Phase.LOAD ∧ s.T = 0 ∧ execLoad s = .next t) ∨
    (s.PHASE = Phase.EXPAND ∧ 16 ≤ s.T.toNat ∧ execExpand s.T s = .next t) ∨
    (s.PHASE = Phase.WINIT ∧ s.T = 0 ∧ execWinit s = .next t) ∨
    (s.PHASE = Phase.ROUND ∧ execRound s.T s = .next t) ∨
    (s.PHASE = Phase.FOLD ∧ s.T = 0 ∧ execFold s = .next t) := by
  unfold coreTurn State.seqWord at h
  rw [Laws.decodeSEQ_seqWord] at h
  split at h <;> rename_i hd
  · rcases decodePhaseT_ok hd with ⟨a, b, rfl⟩ | ⟨a, b, rfl⟩ | ⟨a, b, rfl⟩ | ⟨a, b, rfl⟩ | ⟨a, b, rfl⟩ | ⟨a, rfl⟩ |
      ⟨a, b, rfl⟩
    · exact .inr (.inl ⟨a, b, h⟩)
    · exact .inr (.inr (.inl ⟨a, b, h⟩))
    · exact .inr (.inr (.inr (.inl ⟨a, b, h⟩)))
    · exact .inr (.inr (.inr (.inr (.inl ⟨a, b, h⟩))))
    · exact .inr (.inr (.inr (.inr (.inr (.inl ⟨a, b, h⟩)))))
    · exact .inr (.inr (.inr (.inr (.inr (.inr (.inl ⟨a, h⟩))))))
    · exact .inr (.inr (.inr (.inr (.inr (.inr (.inr ⟨a, b, h⟩))))))
  · obtain ⟨hT, hp⟩ := decodePhaseT_noMicroOp hd
    cases h
    exact .inl ⟨rfl, hT, hp⟩
  · cases h

/-! ## A step, by its event -/

theorem step_nil {s : State} (h : s.inputs = []) : step s = inSpecified s (coreTurn (s.begin [])) := by
  simp [step, advance, h]

theorem step_core {s : State} {rest : List Event} (h : s.inputs = .core :: rest) :
    step s = inSpecified s (coreTurn (s.begin rest)) := by
  simp [step, advance, h]

/-- With no event left, or `core` next, the turn is the core's. -/
theorem step_of_coreNext {s : State} (h : s.coreNext = true) :
    step s = inSpecified s (coreTurn (s.begin s.inputs.tail)) := by
  cases hi : s.inputs with
  | nil => exact step_nil hi
  | cons e rest => cases e <;> simp_all [State.coreNext]; exact step_core hi

theorem step_txn {s : State} {w : HTWord} {rest : List Event} (h : s.inputs = .txn w :: rest) :
    step s = inSpecified s (exec (decodeHT w) (s.begin rest)) := by
  simp [step, advance, h, hostTurn]

theorem step_access {s : State} {a : BusAccess} {rest : List Event} (h : s.inputs = .access a :: rest) :
    step s = inSpecified s (busTurn a (s.begin rest)) := by
  simp [step, advance, h]

theorem step_reset {s : State} {p : Option HTWord} {rest : List Event} (h : s.inputs = .reset p :: rest) :
    step s = resetTurn p rest := by
  simp [step, advance, h]

theorem inSpecified_next {s t : State} {r : Result} (h : inSpecified s r = .next t) :
    seqSpecified s.PHASE s.T = true ∧ r = .next t := by
  unfold inSpecified at h
  split at h
  · exact ⟨‹_›, h⟩
  · cases h

/-- What a step can do: reset, a core turn, or the meaning of the transaction presented. -/
theorem step_cases {s t : State} (h : step s = .next t) :
    (∃ p, s.inputs = .reset p :: s.inputs.tail ∧ t = (State.reset.setInputs s.inputs.tail).setRdata (resetRdata p)) ∨
    (s.coreNext = true ∧ seqSpecified s.PHASE s.T = true ∧ coreTurn (s.begin s.inputs.tail) = .next t) ∨
    (∃ w, s.presented = some (decodeHT w) ∧ seqSpecified s.PHASE s.T = true ∧
      exec (decodeHT w) (s.begin s.inputs.tail) = .next t) := by
  cases hi : s.inputs with
  | nil =>
    rw [step_nil hi] at h
    obtain ⟨h1, h2⟩ := inSpecified_next h
    exact .inr (.inl ⟨by simp [State.coreNext, hi], h1, h2⟩)
  | cons e rest =>
    cases e with
    | core =>
      rw [step_core hi] at h
      obtain ⟨h1, h2⟩ := inSpecified_next h
      exact .inr (.inl ⟨by simp [State.coreNext, hi], h1, h2⟩)
    | reset p =>
      rw [step_reset hi] at h
      cases h
      exact .inl ⟨p, rfl, rfl⟩
    | txn w =>
      rw [step_txn hi] at h
      obtain ⟨h1, h2⟩ := inSpecified_next h
      exact .inr (.inr ⟨w, by simp [State.presented, Event.presented, hi], h1, h2⟩)
    | access a =>
      rw [step_access hi] at h
      obtain ⟨h1, h2⟩ := inSpecified_next h
      unfold busTurn at h2
      split at h2
      · cases h2
      · split at h2
        · cases h2
        · exact .inr (.inr ⟨a.toHT, by simp_all [State.presented, Event.presented], h1, h2⟩)

end Sys2Proof.Machine
end

