-- ==== Sys2Proof/Laws/Block.lean ====
section
/-! SUPPORT. Runs of core steps with no host step between: how a run unfolds, the words the schedule holds after n EXPAND
steps, and the working registers after n ROUND steps, in the terms of the contract. -/

namespace Sys2Proof.Machine

/-! ## Runs -/

/-- A run of the core of Host/Core.lean. -/
abbrev runCore (k : Nat) (s : State) : Result := Host.Core.run Sys2Proof.core k s

theorem runCore_zero (s : State) : runCore 0 s = .next s := rfl

theorem run_of_next (M : Host.Core) (s t : M.State) (k : Nat) (h : M.step s = .next t) : M.run (k + 1) s = M.run k t := by
  rw [Host.Core.run.eq_def]; simp only [h]

theorem run_ne_next (M : Host.Core) (s t : M.State) (k : Nat) (h : ∀ u, M.step s ≠ .next u) : M.run (k + 1) s ≠ .next t := by
  rw [Host.Core.run.eq_def]
  cases hs : M.step s with
  | next u => exact absurd hs (h u)
  | fault r => simp [hs]
  | refused r => simp [hs]

theorem runCore_succ {s t : State} (k : Nat) (h : step s = .next t) : runCore (k + 1) s = runCore k t :=
  run_of_next Sys2Proof.core s t k h

theorem runCore_add {s t : State} (m k : Nat) (h : runCore m s = .next t) : runCore (m + k) s = runCore k t := by
  induction m generalizing s with
  | zero =>
    cases h
    rw [Nat.zero_add]
  | succ m ih =>
    cases hs : step s with
    | next u =>
      rw [runCore_succ m hs] at h
      rw [show m + 1 + k = m + k + 1 by omega, runCore_succ (m + k) hs]
      exact ih h
    | fault r => exact absurd h (run_ne_next Sys2Proof.core s t m fun u e => by cases hs.symm.trans e)
    | refused r => exact absurd h (run_ne_next Sys2Proof.core s t m fun u e => by cases hs.symm.trans e)

/-- One more step at the end of a run. -/
theorem runCore_snoc {s t u : State} (k : Nat) (h : runCore k s = .next t) (h' : step t = .next u) :
    runCore (k + 1) s = .next u := by
  rw [runCore_add k 1 h, runCore_succ 0 h', runCore_zero]

/-- With no event left, a step is the micro-operation of the sequencer word. -/
theorem step_quiet {s : State} {i : Instr} (h : s.inputs = []) (hd : decodePhaseT s.PHASE s.T = .ok i) :
    step s = exec i (s.begin []) := by
  rw [step_nil h]
  unfold inSpecified seqSpecified coreTurn State.seqWord
  simp only [begin_PHASE, begin_T, Laws.decodeSEQ_seqWord, hd, if_true]

/-- The step's starting state, where no event is left and nothing was read. -/
theorem begin_nil {s : State} (h : s.inputs = []) : s.begin [] = s.setRdata none := by
  apply State.eq_of_fields <;> simp [h]

/-! ## The schedule -/

namespace Contract

theorem length_schedule (ws : List Word) (n : Nat) : (schedule ws n).length = ws.length + n := by
  induction n with
  | zero => rfl
  | succ n ih => simp [schedule, ih]; omega

/-- A word once derived stays. -/
theorem getD_schedule_succ (ws : List Word) (n i : Nat) (h : i < ws.length + n) :
    (schedule ws (n + 1)).getD i 0 = (schedule ws n).getD i 0 := by
  rw [← length_schedule ws n] at h
  simp [schedule, List.getElem?_append_left h]

/-- The word derived last. -/
theorem getD_schedule_last (ws : List Word) (n : Nat) :
    (schedule ws (n + 1)).getD (ws.length + n) 0 =
      scheduleSum ((schedule ws n).getD (n + 14) 0) ((schedule ws n).getD (n + 9) 0) ((schedule ws n).getD (n + 1) 0)
        ((schedule ws n).getD n 0) := by
  rw [← length_schedule ws n]
  simp [schedule]

end Contract

/-! ## Runs of EXPAND -/

/-- After n EXPAND steps from T = 16: W[0..15 + n] are the contract's schedule over the first sixteen words, nothing
but W, T and PHASE has changed, and the next step is EXPAND 16 + n, or WINIT after the 48th. -/
theorem expand_run (s : State) (hp : s.PHASE = Phase.EXPAND) (hT : s.T = 16) (hi : s.inputs = []) (hr : s.rdata = none)
    (ws : List Word) (hlen : ws.length = 16) (hws : ∀ (i : Nat) (h : i < 16), s.W[i] = ws.getD i 0) (n : Nat)
    (hn : n ≤ 48) :
    ∃ t, runCore n s = .next t ∧ (∀ (i : Nat) (h : i < 64), i < 16 + n → t.W[i] = (Contract.schedule ws n).getD i 0) ∧
      (∃ w q p, t = ((s.setW w).setT q).setPHASE p) ∧
      (n < 48 → t.PHASE = Phase.EXPAND ∧ t.T.toNat = 16 + n) ∧ (n = 48 → t.PHASE = Phase.WINIT ∧ t.T = 0) := by
  induction n with
  | zero =>
    refine ⟨s, rfl, fun i h hi16 => hws i (by omega), ⟨s.W, s.T, s.PHASE, ?_⟩, fun _ => ⟨hp, by rw [hT]; rfl⟩,
      fun h => by omega⟩
    apply State.eq_of_fields <;> simp
  | succ n ih =>
    obtain ⟨t, hrun, hw, ⟨w, q, p, rfl⟩, hph, _⟩ := ih (by omega)
    obtain ⟨hpe, hq⟩ := hph (by omega)
    simp only [State.setPHASE_PHASE, State.setPHASE_T, State.setT_T] at hpe hq
    have hd : decodePhaseT p q = .ok (.expand q) := by
      rw [hpe]
      simp [decodePhaseT, show 16 ≤ q.toNat by omega]
    have hs := step_quiet (s := ((s.setW w).setT q).setPHASE p) (i := .expand q) hi hd
    rw [begin_nil (by simpa using hi), exec_expand, execExpand_next (by omega)] at hs
    have hs' : ((((s.setW w).setT q).setPHASE p).setRdata none) = (((s.setW w).setT q).setPHASE p) := by
      apply State.eq_of_fields <;> simp [hr]
    rw [hs'] at hs
    simp only [State.setPHASE_W, State.setT_W, State.setW_W] at hs hw
    have hval : expandWord (((s.setW w).setT q).setPHASE p) q = (Contract.schedule ws (n + 1)).getD (16 + n) 0 := by
      rw [← hlen, Contract.getD_schedule_last]
      unfold expandWord State.w
      simp only [State.setPHASE_W, State.setT_W, State.setW_W]
      congr 1
      · rw [hw _ (by omega) (by omega)]; congr 1; omega
      · rw [hw _ (by omega) (by omega)]; congr 1; omega
      · rw [hw _ (by omega) (by omega)]; congr 1; omega
      · rw [hw _ (by omega) (by omega)]; congr 1; omega
    rw [hval] at hs
    refine ⟨_, runCore_snoc n hrun hs, ?_, ?_, ?_, ?_⟩
    · intro i h hlt
      simp only [nextIndex_W, State.setW_W]
      by_cases he : i = q.toNat
      · subst he
        rw [Vector.getElem_set_self]
        congr 1; omega
      · rw [Vector.getElem_set_ne _ _ (Ne.symm he), hw i h (by omega), Contract.getD_schedule_succ _ _ _ (by omega)]
    · refine ⟨w.set q.toNat ((Contract.schedule ws (n + 1)).getD (16 + n) 0), if q = 63 then 0 else q + 1,
        if q = 63 then Phase.WINIT else p, ?_⟩
      unfold State.nextIndex
      split <;> apply State.eq_of_fields <;> simp
    · intro hlt
      have hne : q ≠ 63 := fun e => by rw [e] at hq; simp at hq; omega
      rw [nextIndex_PHASE, nextIndex_T, if_neg hne, if_neg hne]
      exact ⟨by simp [hpe], by have := (toNat_index_succ hne).1; omega⟩
    · intro heq
      have he : q = 63 := by apply BitVec.eq_of_toNat_eq; simp; omega
      rw [nextIndex_PHASE, nextIndex_T, if_pos he, if_pos he]
      exact ⟨rfl, rfl⟩

/-! ## Runs of ROUND -/

/-- After n ROUND steps from T = 0: the working registers are the contract's after n rounds over W, nothing but them,
T and PHASE has changed, and the next step is ROUND n, or FOLD after the 64th. -/
theorem round_run (s : State) (hp : s.PHASE = Phase.ROUND) (hT : s.T = 0) (hi : s.inputs = []) (hr : s.rdata = none)
    (ws : List Word) (hws : ∀ (i : Nat) (h : i < 64), s.W[i] = ws.getD i 0) (n : Nat) (hn : n ≤ 64) :
    ∃ t, runCore n s = .next t ∧ (∃ q p, t = ((s.setWr (Contract.rounds ws s.wr n)).setT q).setPHASE p) ∧
      (n < 64 → t.PHASE = Phase.ROUND ∧ t.T.toNat = n) ∧ (n = 64 → t.PHASE = Phase.FOLD ∧ t.T = 0) := by
  induction n with
  | zero =>
    refine ⟨s, rfl, ⟨s.T, s.PHASE, ?_⟩, fun _ => ⟨hp, by rw [hT]; rfl⟩, fun h => by omega⟩
    apply State.eq_of_fields <;> simp [Contract.rounds]
  | succ n ih =>
    obtain ⟨t, hrun, ⟨q, p, rfl⟩, hph, _⟩ := ih (by omega)
    obtain ⟨hpe, hq⟩ := hph (by omega)
    generalize hR : Contract.rounds ws s.wr n = r at *
    simp only [State.setPHASE_PHASE, State.setPHASE_T, State.setT_T] at hpe hq
    have hd : decodePhaseT p q = .ok (.round q) := by
      rw [hpe]
      simp [decodePhaseT]
    have hs := step_quiet (s := ((s.setWr r).setT q).setPHASE p) (i := .round q) hi hd
    have hs' : (((s.setWr r).setT q).setPHASE p).setRdata none = ((s.setWr r).setT q).setPHASE p := by
      apply State.eq_of_fields <;> simp [hr]
    rw [begin_nil (by simpa using hi), hs', exec_round] at hs
    have hval : Contract.rounds ws s.wr (n + 1) = r.round (K q) (s.w q.toNat (by omega)) := by
      unfold Contract.rounds State.w
      rw [hR, hws, hq]
      congr 1
      rw [← hq, BitVec.ofNat_toNat, BitVec.setWidth_eq]
    have hex : execRound q (((s.setWr r).setT q).setPHASE p) =
        .next (((((s.setWr r).setT q).setPHASE p).setWr (Contract.rounds ws s.wr (n + 1))).nextIndex q Phase.FOLD) := by
      rw [hval]; rfl
    rw [hex] at hs
    generalize Contract.rounds ws s.wr (n + 1) = r' at *
    refine ⟨_, runCore_snoc n hrun hs, ?_, ?_, ?_⟩
    · refine ⟨if q = 63 then 0 else q + 1, if q = 63 then Phase.FOLD else p, ?_⟩
      unfold State.nextIndex
      split <;> apply State.eq_of_fields <;> simp
    · intro hlt
      have hne : q ≠ 63 := fun e => by rw [e] at hq; simp at hq; omega
      rw [nextIndex_PHASE, nextIndex_T, if_neg hne, if_neg hne]
      exact ⟨by simp [hpe], by have := (toNat_index_succ hne).1; omega⟩
    · intro heq
      have he : q = 63 := by apply BitVec.eq_of_toNat_eq; simp; omega
      rw [nextIndex_PHASE, nextIndex_T, if_pos he, if_pos he]
      exact ⟨rfl, rfl⟩

/-! ## From LOAD to WINIT, from WINIT to FOLD, and a whole block -/

/-- 49 steps from LOAD: the schedule of the block in BUF stands in W. -/
theorem load_run (s : State) (hp : s.PHASE = Phase.LOAD) (hT : s.T = 0) (hi : s.inputs = []) :
    ∃ w, runCore 49 s = .next ((((s.setRdata none).setW w).setT 0).setPHASE Phase.WINIT) ∧
      ∀ (i : Nat) (h : i < 64), w[i] = (Contract.schedule (Contract.blockWords s.BUF.toList) 48).getD i 0 := by
  have e1 := step_quiet (i := .load) hi (by rw [hp, hT]; rfl)
  rw [exec_load, begin_nil hi, execLoad_next] at e1
  generalize hw0 : (s.setRdata none).parsedW = w0 at *
  generalize hs0 : (((s.setRdata none).setW w0).setT 16).setPHASE Phase.EXPAND = s0 at *
  obtain ⟨t, r, hw, ⟨w, q, p, ht⟩, -, hend⟩ := expand_run s0 (by rw [← hs0]; rfl) (by rw [← hs0]; rfl)
    (by rw [← hs0]; exact hi) (by rw [← hs0]; rfl) (Contract.blockWords s.BUF.toList) (by simp [Contract.blockWords])
    (fun i h => by
      rw [← hs0]
      simp only [State.setPHASE_W, State.setT_W, State.setW_W]
      rw [← hw0, getElem_parsedW_low _ _ _ h]
      simp [Contract.blockWords, h, show 4 * i < 64 by omega, show 4 * i + 1 < 64 by omega,
        show 4 * i + 2 < 64 by omega, show 4 * i + 3 < 64 by omega])
    48 (by omega)
  obtain ⟨hp1, hT1⟩ := hend rfl
  refine ⟨w, ?_, ?_⟩
  · have ht' : t = (((s.setRdata none).setW w).setT 0).setPHASE Phase.WINIT := by
      rw [ht] at hp1 hT1 ⊢
      simp only [State.setPHASE_PHASE, State.setPHASE_T, State.setT_T] at hp1 hT1
      rw [hp1, hT1, ← hs0]
      apply State.eq_of_fields <;> simp
    rw [← ht', show 49 = 1 + 48 from rfl, runCore_add 1 48 ((runCore_succ 0 e1).trans rfl), r]
  · intro i h
    have := hw i h (by omega)
    rw [ht] at this
    exact this

/-- 65 steps from WINIT: a..h have gone through 64 rounds from H over W. -/
theorem winit_run (s : State) (hp : s.PHASE = Phase.WINIT) (hT : s.T = 0) (hi : s.inputs = []) (ws : List Word)
    (hws : ∀ (i : Nat) (h : i < 64), s.W[i] = ws.getD i 0) :
    runCore 65 s = .next ((((s.setRdata none).setWr (Contract.rounds ws (Work.ofH s.H) 64)).setT 0).setPHASE
      Phase.FOLD) := by
  have e1 := step_quiet (i := .winit) hi (by rw [hp, hT]; rfl)
  rw [exec_winit, begin_nil hi, execWinit_next, State.setRdata_H] at e1
  generalize hv : Work.ofH s.H = v at *
  generalize hs0 : (((s.setRdata none).setWr v).setT 0).setPHASE Phase.ROUND = s0 at *
  obtain ⟨t, r, ⟨q, p, ht⟩, -, hend⟩ := round_run s0 (by rw [← hs0]; rfl) (by rw [← hs0]; rfl)
    (by rw [← hs0]; exact hi) (by rw [← hs0]; rfl) ws (fun i h => by rw [← hs0]; exact hws i h) 64 (by omega)
  obtain ⟨hp1, hT1⟩ := hend rfl
  have hwr : s0.wr = v := by rw [← hs0]; rfl
  rw [hwr] at ht
  obtain ⟨R, hR⟩ : ∃ R, R = Contract.rounds ws v 64 := ⟨_, rfl⟩
  rw [← hR] at ht ⊢
  have ht' : t = (((s.setRdata none).setWr R).setT 0).setPHASE Phase.FOLD := by
    rw [ht] at hp1 hT1 ⊢
    simp only [State.setPHASE_PHASE, State.setPHASE_T, State.setT_T] at hp1 hT1
    rw [hp1, hT1, ← hs0]
    apply State.eq_of_fields <;> simp
  rw [← ht', show 65 = 1 + 64 from rfl, runCore_add 1 64 ((runCore_succ 0 e1).trans rfl), r]

/-- The last step of a block. -/
theorem fold_run (s : State) (hp : s.PHASE = Phase.FOLD) (hT : s.T = 0) (hi : s.inputs = []) :
    runCore 1 s = .next (((s.setRdata none).setH (foldH s.H s.wr)).setPHASE s.afterFold) := by
  have e1 := step_quiet (i := .fold) hi (by rw [hp, hT]; rfl)
  rw [exec_fold, begin_nil hi, execFold_next, State.setRdata_H, State.setRdata_wr] at e1
  rw [runCore_succ 0 e1, runCore_zero]
  rfl

/-- The sequencer's way through a block: from LOAD, 115 core steps reach the phase FOLD leads to. -/
theorem block_run (s : State) (hp : s.PHASE = Phase.LOAD) (hT : s.T = 0) (hi : s.inputs = []) :
    ∃ t, runCore 115 s = .next t ∧ t.PHASE = s.afterFold ∧ t.T = 0 ∧ t.inputs = [] := by
  obtain ⟨w, r1, hw⟩ := load_run s hp hT hi
  generalize hs1 : (((s.setRdata none).setW w).setT 0).setPHASE Phase.WINIT = s1 at *
  have r2 := winit_run s1 (by rw [← hs1]; rfl) (by rw [← hs1]; rfl) (by rw [← hs1]; exact hi) w.toList
    (fun i h => by rw [← hs1]; simp [h])
  obtain ⟨R, hR⟩ : ∃ R, R = Contract.rounds w.toList (Work.ofH s1.H) 64 := ⟨_, rfl⟩
  rw [← hR] at r2
  generalize hs2 : (((s1.setRdata none).setWr R).setT 0).setPHASE Phase.FOLD = s2 at *
  have i2 : s2.inputs = [] := by rw [← hs2, ← hs1]; exact hi
  have r3 := fold_run s2 (by rw [← hs2]; rfl) (by rw [← hs2]; rfl) i2
  refine ⟨_, by rw [show 115 = 49 + (65 + 1) from rfl, runCore_add 49 _ r1, runCore_add 65 _ r2, r3], ?_, ?_, ?_⟩
  · rw [State.setPHASE_PHASE, ← hs2, ← hs1]; rfl
  · simp only [State.setPHASE_T, State.setH_T, State.setRdata_T]; rw [← hs2]; rfl
  · simpa using i2

end Sys2Proof.Machine
end

