-- ==== Sys2Proof/Laws/Status.lean ====
section
/-! SUPPORT. STATUS bit by bit (10_state.md R37). -/

namespace Sys2Proof.Machine

theorem getLsbD_bitWord (b : Bool) (i : Nat) : (bitWord b).getLsbD i = (decide (i = 0) && b) := by
  cases b <;> simp [bitWord, BitVec.getLsbD_one]

/-- Every bit of STATUS. -/
theorem getLsbD_status (s : State) (i : Nat) : s.status.getLsbD i =
    ((decide (16 ≤ i ∧ i < 32) && s.CNT.getLsbD (i - 16)) || (decide (i = 12) && s.err.align) ||
      (decide (i = 11) && s.err.cmd) || (decide (i = 10) && s.err.len) || (decide (i = 9) && s.err.busy) ||
      (decide (i = 8) && s.err.seq) || (decide (4 ≤ i ∧ i < 32) && s.PHASE.getLsbD (i - 4)) ||
      (decide (i = 2) && s.ready) || (decide (i = 1) && s.done) || (decide (i = 0) && s.busy)) := by
  unfold State.status
  simp only [BitVec.getLsbD_or, BitVec.getLsbD_shiftLeft, BitVec.getLsbD_setWidth, getLsbD_bitWord]
  by_cases h : i < 16
  · interval_cases i <;> simp
  · have a : ∀ k, k ≤ 12 → ¬i - k = 0 := by omega
    have b : ∀ k, k ≤ 12 → ¬i = k := by omega
    by_cases h32 : i < 32
    · simp [a, b, h32, show ¬i < 16 by omega, show ¬i < 4 by omega, show 16 ≤ i by omega, show 4 ≤ i by omega,
        show i - 16 < 32 by omega, show i - 4 < 32 by omega]
    · simp [b, h32]

end Sys2Proof.Machine
end

