-- ==== Sys2Proof/Laws/Host.lean ====
section
/-! SUPPORT. Steps with one event presented (`stepOn`), and how runs of the core make up a host's run. -/

namespace Sys2Proof.Machine

/-- Where no event is left, a core turn presented is the step. -/
theorem stepOn_core {s : State} (hi : s.inputs = []) : stepOn .core s = step s := by
  unfold stepOn
  rw [step_core (rest := []) (by simp), step_nil hi]
  rfl

/-- A transaction presented is the meaning of the instruction it decodes to. -/
theorem stepOn_txn (w : HTWord) {s : State} (h : ¬s.unspecified) :
    stepOn (.txn w) s = exec (decodeHT w) (s.begin []) := by
  unfold stepOn
  rw [step_txn (w := w) (rest := []) (by simp)]
  unfold inSpecified
  rw [if_pos (by simpa using (seqSpecified_iff s).2 h)]
  rfl

/-- A step that takes no reset keeps the schedule's tail; from an empty schedule the schedule stays empty. -/
theorem step_inputs_nil {s t : State} (hi : s.inputs = []) (h : step s = .next t) : t.inputs = [] := by
  rw [step_nil hi] at h
  have hc := (inSpecified_next h).2
  rcases coreTurn_cases hc with ⟨rfl, _⟩ | ⟨_, _, h⟩ | ⟨_, _, h⟩ | ⟨_, _, h⟩ | ⟨_, _, h⟩ | ⟨_, _, h⟩ | ⟨_, h⟩ | ⟨_, _, h⟩
  · rfl
  · rcases execPad_cases h with ⟨_, v, _, rfl⟩ | ⟨_, v, _, rfl⟩ <;> simp
  · obtain ⟨v, _, rfl⟩ := execPadlen_cases h; simp
  · obtain ⟨v, _, rfl⟩ := execLoad_cases h; simp
  · obtain ⟨_, v, _, rfl⟩ := execExpand_cases h; simp
  · obtain ⟨v, _, rfl⟩ := execWinit_cases h; simp
  · obtain ⟨v, _, rfl⟩ := execRound_cases h; simp
  · obtain ⟨v, _, rfl⟩ := execFold_cases h; simp

/-- The core may take any number of turns before the host's next step. -/
theorem hostRun_of_runCore {s t u : State} {ops : List HostOp} {vs : List Word} (k : Nat) (hi : s.inputs = [])
    (h : runCore k s = .next t) (rest : HostRun t ops u vs) : HostRun s ops u vs := by
  induction k generalizing s with
  | zero => rw [runCore_zero] at h; cases h; exact rest
  | succ k ih =>
    cases hs : step s with
    | next s' =>
      rw [runCore_succ k hs] at h
      exact .cons (.core (by rw [stepOn_core hi, hs])) (ih (step_inputs_nil hi hs) h)
    | fault r => exact absurd h (run_ne_next Sys2Proof.core s t k fun u e => by cases hs.symm.trans e)
    | refused r => exact absurd h (run_ne_next Sys2Proof.core s t k fun u e => by cases hs.symm.trans e)

end Sys2Proof.Machine
end

