-- ==== Sys2Proof/Laws/Fair.lean ====
section
/-! SUPPORT. Progress: how many core steps are left until BUSY = 0 (20_memory.md R62, counted along 10_state.md R29). A
core step takes one away; a transaction other than INIT leaves the number as it is while BUSY. -/

namespace Sys2Proof.Machine

/-- The core steps left after the next FOLD. -/
def State.remainingAfterFold (s : State) : Nat := if s.LAST then 0 else if s.LENPEND then 116 else 0

/-- The core steps left until BUSY = 0, if no INIT and no reset comes. -/
def State.remaining (s : State) : Nat :=
  if s.PHASE = Phase.PAD then (if s.CNT.toNat ≤ 55 then 116 else 232)
  else if s.PHASE = Phase.PADLEN then 116
  else if s.PHASE = Phase.LOAD then 115 + s.remainingAfterFold
  else if s.PHASE = Phase.EXPAND then 130 - s.T.toNat + s.remainingAfterFold
  else if s.PHASE = Phase.WINIT then 66 + s.remainingAfterFold
  else if s.PHASE = Phase.ROUND then 65 - s.T.toNat + s.remainingAfterFold
  else if s.PHASE = Phase.FOLD then 1 + s.remainingAfterFold
  else 0

/-- The number depends on PHASE, T, LAST, LENPEND and CNT alone. -/
theorem remaining_congr {s t : State} (hp : t.PHASE = s.PHASE) (hT : t.T = s.T) (hl : t.LAST = s.LAST)
    (hn : t.LENPEND = s.LENPEND) (hc : t.CNT = s.CNT) : t.remaining = s.remaining := by
  unfold State.remaining State.remainingAfterFold
  rw [hp, hT, hl, hn, hc]

/-- Outside the seven busy phases no step is left. -/
theorem remaining_of_not_busy {s : State} (h : s.busy = false) : s.remaining = 0 := by
  unfold State.busy Phase.busy at h
  simp only [decide_eq_false_iff_not, not_or] at h
  obtain ⟨h1, h2, h3, h4, h5, h6, h7⟩ := h
  unfold State.remaining
  rw [if_neg h1, if_neg h2, if_neg h3, if_neg h4, if_neg h5, if_neg h6, if_neg h7]

/-- R62: "at most 1 + 115 + 1 + 115 = 232 steps", in a sequencer state the spec specifies. -/
theorem remaining_le {s : State} (h : s.PHASE = Phase.EXPAND → 16 ≤ s.T.toNat) : s.remaining ≤ 232 := by
  unfold State.remaining State.remainingAfterFold
  split
  · split <;> omega
  · split
    · omega
    · split
      · split <;> [omega; split <;> omega]
      · split
        · have := h ‹_›
          split <;> [omega; split <;> omega]
        · repeat' split
          all_goals omega

section
variable {s : State}

theorem remaining_PAD (h : s.PHASE = Phase.PAD) : s.remaining = if s.CNT.toNat ≤ 55 then 116 else 232 := by
  simp [State.remaining, h]
theorem remaining_PADLEN (h : s.PHASE = Phase.PADLEN) : s.remaining = 116 := by simp [State.remaining, h]
theorem remaining_LOAD (h : s.PHASE = Phase.LOAD) : s.remaining = 115 + s.remainingAfterFold := by
  simp [State.remaining, h]
theorem remaining_EXPAND (h : s.PHASE = Phase.EXPAND) : s.remaining = 130 - s.T.toNat + s.remainingAfterFold := by
  simp [State.remaining, h]
theorem remaining_WINIT (h : s.PHASE = Phase.WINIT) : s.remaining = 66 + s.remainingAfterFold := by
  simp [State.remaining, h]
theorem remaining_ROUND (h : s.PHASE = Phase.ROUND) : s.remaining = 65 - s.T.toNat + s.remainingAfterFold := by
  simp [State.remaining, h]
theorem remaining_FOLD (h : s.PHASE = Phase.FOLD) : s.remaining = 1 + s.remainingAfterFold := by
  simp [State.remaining, h]
theorem remainingAfterFold_congr {t : State} (hl : t.LAST = s.LAST) (hn : t.LENPEND = s.LENPEND) :
    t.remainingAfterFold = s.remainingAfterFold := by
  rw [State.remainingAfterFold, hl, hn, State.remainingAfterFold]

end

/-- A step of the core, while BUSY, takes one away. -/
theorem remaining_coreTurn {s t : State} (hb : s.busy = true) (h : coreTurn s = .next t) :
    t.remaining + 1 = s.remaining := by
  rcases coreTurn_cases h with ⟨rfl, _, hp⟩ | ⟨a, b, h⟩ | ⟨a, b, h⟩ | ⟨a, b, h⟩ | ⟨a, b, h⟩ | ⟨a, b, h⟩ | ⟨a, h⟩ | ⟨a, b, h⟩
  · exfalso
    unfold State.busy at hb
    rcases hp with e | e | e <;> rw [e] at hb <;> revert hb <;> decide
  · rcases execPad_cases h with ⟨hc, v, _, rfl⟩ | ⟨hc, v, _, rfl⟩ <;>
      rw [remaining_LOAD (by simp), remaining_PAD a] <;> simp [State.remainingAfterFold, hc]
  · obtain ⟨v, _, rfl⟩ := execPadlen_cases h
    rw [remaining_LOAD (by simp), remaining_PADLEN a]
    simp [State.remainingAfterFold]
  · obtain ⟨v, _, rfl⟩ := execLoad_cases h
    rw [remaining_EXPAND (by simp), remaining_LOAD a, remainingAfterFold_congr (s := s) (by simp) (by simp)]
    simp
    omega
  · obtain ⟨_, v, _, rfl⟩ := execExpand_cases h
    by_cases e : s.T = 63
    · rw [remaining_WINIT (by rw [nextIndex_PHASE, if_pos e]), remaining_EXPAND a,
        remainingAfterFold_congr (s := s) (by simp) (by simp), e]
      simp
      omega
    · obtain ⟨h1, h2⟩ := toNat_index_succ e
      rw [remaining_EXPAND (by rw [nextIndex_PHASE, if_neg e]; exact a), remaining_EXPAND a,
        remainingAfterFold_congr (s := s) (by simp) (by simp), nextIndex_T, if_neg e, h1]
      omega
  · obtain ⟨v, _, rfl⟩ := execWinit_cases h
    rw [remaining_ROUND (by simp), remaining_WINIT a, remainingAfterFold_congr (s := s) (by simp) (by simp)]
    simp
    omega
  · obtain ⟨v, _, rfl⟩ := execRound_cases h
    by_cases e : s.T = 63
    · rw [remaining_FOLD (by rw [nextIndex_PHASE, if_pos e]), remaining_ROUND a,
        remainingAfterFold_congr (s := s) (by simp) (by simp), e]
      simp
      omega
    · obtain ⟨h1, h2⟩ := toNat_index_succ e
      rw [remaining_ROUND (by rw [nextIndex_PHASE, if_neg e]; exact a), remaining_ROUND a,
        remainingAfterFold_congr (s := s) (by simp) (by simp), nextIndex_T, if_neg e, h1]
      omega
  · obtain ⟨v, _, rfl⟩ := execFold_cases h
    rw [remaining_FOLD a]
    cases hl : s.LAST <;> cases hn : s.LENPEND <;>
      simp [State.remaining, State.remainingAfterFold, State.afterFold, hl, hn]

/-- A transaction other than INIT, while BUSY, leaves the sequencer alone. -/
theorem remaining_transaction {w : HTWord} {s t : State} (hb : s.busy = true) (hi : decodeHT w ≠ .init)
    (h : exec (decodeHT w) s = .next t) : t.remaining = s.remaining ∧ t.busy = true := by
  have hopen : s.PHASE ≠ Phase.OPEN := fun e => by
    have hf := Phase.not_busy_of_open e
    unfold State.busy at hb
    rw [hf] at hb
    cases hb
  rcases exec_host_cases (Laws.decodeHT_isHost w) h with rfl | ⟨v, rfl⟩ | ⟨e', rfl⟩ | ⟨hi', _⟩ | ⟨_, ho, _⟩ | ⟨_, ho, _⟩
  · exact ⟨rfl, hb⟩
  · exact ⟨rfl, hb⟩
  · exact ⟨rfl, hb⟩
  · exact absurd hi' hi
  · exact absurd ho hopen
  · exact absurd ho hopen

/-! ## Infinite runs -/

/-- A step with an event presented, while BUSY, if it is no INIT and no reset: a core turn takes one away, any other event
leaves the number and BUSY. -/
theorem remaining_stepOn {e : Event} {s t : State} (hb : s.busy = true) (hr : ¬e.restarts) (h : stepOn e s = .next t) :
    (e = .core ∧ t.remaining + 1 = s.remaining) ∨ (e ≠ .core ∧ t.remaining = s.remaining ∧ t.busy = true) := by
  unfold stepOn at h
  have hb' : ∀ rest, ((s.setInputs [e]).begin rest).busy = true := fun _ => hb
  have hrem : ∀ rest, ((s.setInputs [e]).begin rest).remaining = s.remaining := fun _ => remaining_congr rfl rfl rfl rfl rfl
  rcases step_cases h with ⟨p, hi, -⟩ | ⟨hc, -, h⟩ | ⟨w, hp, -, h⟩
  · refine absurd (.inr ?_) hr
    rw [List.cons.inj hi |>.1]
    rfl
  · have he : e = .core := by
      cases e <;> first | rfl | cases hc
    exact .inl ⟨he, by rw [remaining_coreTurn (hb' _) h, hrem]⟩
  · have hp : e.presented = some (decodeHT w) := hp
    obtain ⟨h1, h2⟩ := remaining_transaction (hb' _) (fun hi => hr (.inl (by rw [hp, hi]))) h
    exact .inr ⟨(fun he => by rw [he] at hp; cases hp), by rw [h1, hrem], h2⟩

theorem coreTurns_self (e : Nat → Event) (k : Nat) : coreTurns e k k = 0 := by simp [coreTurns]

/-- Counting the core turns from the first event on. -/
theorem coreTurns_succ (e : Nat → Event) {k n : Nat} (h : k < n) :
    coreTurns e k n = (if e k = .core then 1 else 0) + coreTurns e (k + 1) n := by
  obtain ⟨d, rfl⟩ : ∃ d, n = k + 1 + d := ⟨n - (k + 1), by omega⟩
  unfold coreTurns
  rw [show k + 1 + d - k = d + 1 by omega, show k + 1 + d - (k + 1) = d by omega, List.range_succ_eq_map,
    List.countP_cons, List.countP_map, Nat.add_comm]
  congr 1
  · simp
  · exact List.countP_congr fun x _ => by simp [show k + (x + 1) = k + 1 + x by omega]

/-- A step of a host program is a step of the machine. -/
theorem HostStep.stepOn {e : Event} {s s' : State} {ops ops' : List HostOp} {v : List Word}
    (h : HostStep e s ops s' ops' v) : stepOn e s = .next s' := by
  cases h <;> assumption

/-- A core turn leaves the host's program where it is. -/
theorem HostStep.ops_core {s s' : State} {ops ops' : List HostOp} {v : List Word} (h : HostStep .core s ops s' ops' v) :
    ops' = ops := by
  cases h; rfl

/-- The states of a fair run of a host program are a run. -/
theorem FairHostRun.run {e : Nat → Event} {s : Nat → State} {ops : Nat → List HostOp} (h : FairHostRun e s ops) : Run e s :=
  fun n => (h.steps n).elim fun _ h => h.stepOn

/-- In DONE a core turn changes nothing but the read port and the events. -/
theorem stepOn_core_done {s : State} (hp : s.PHASE = Phase.DONE) (hT : s.T = 0) : stepOn .core s = .next (s.begin []) := by
  unfold stepOn
  rw [step_core (rest := []) (by simp)]
  unfold inSpecified seqSpecified coreTurn State.seqWord
  simp only [begin_PHASE, begin_T, State.setInputs_PHASE, State.setInputs_T, Laws.decodeSEQ_seqWord, hp, hT]
  rfl

/-- A host's run that ends in DONE goes on as a fair infinite run. -/
theorem fairHostRun_of_hostRun {s t : State} {ops : List HostOp} {vs : List Word} (h : HostRun s ops t vs)
    (hp : t.PHASE = Phase.DONE) (hT : t.T = 0) : ∃ e σ os, FairHostRun e σ os ∧ σ 0 = s ∧ os 0 = ops := by
  induction h with
  | done t =>
    refine ⟨fun _ => .core, fun n => n.casesOn t fun _ => t.begin [], fun _ => [], ⟨fun n => ⟨[], .core ?_⟩, ?_, ?_⟩, rfl, rfl⟩
    · cases n <;> exact stepOn_core_done hp hT
    · exact fun n _ => ⟨n, le_rfl, .inl rfl⟩
    · exact fun n h => absurd rfl h
  | @cons e s s' t ops ops' v vs h _ ih =>
    obtain ⟨e', σ, os, hf, rfl, rfl⟩ := ih hp hT
    refine ⟨fun n => n.casesOn e e', fun n => n.casesOn s σ, fun n => n.casesOn ops os, ⟨fun n => ?_, fun n hb => ?_, fun n hn => ?_⟩,
      rfl, rfl⟩
    · cases n with
      | zero => exact ⟨v, h⟩
      | succ n => exact hf.steps n
    · cases n with
      | zero =>
        by_cases hr : e.restarts
        · exact ⟨0, le_rfl, .inr hr⟩
        · rcases remaining_stepOn hb hr h.stepOn with ⟨he, -⟩ | ⟨-, -, hb'⟩
          · exact ⟨0, le_rfl, .inl he⟩
          · obtain ⟨m, _, hc⟩ := hf.fair 0 hb'
            exact ⟨m + 1, by omega, hc⟩
      | succ n =>
        obtain ⟨m, hm, hc⟩ := hf.fair n hb
        exact ⟨m + 1, by omega, hc⟩
    · cases n with
      | zero =>
        by_cases he : e = .core
        · subst he
          obtain ⟨m, _, hc⟩ := hf.host 0 (by rw [h.ops_core]; exact hn)
          exact ⟨m + 1, by omega, hc⟩
        · exact ⟨0, le_rfl, he⟩
      | succ n =>
        obtain ⟨m, hm, hc⟩ := hf.host n hn
        exact ⟨m + 1, by omega, hc⟩

end Sys2Proof.Machine
end

