-- ==== Sys2Proof/Laws/PerInstr.lean ====
section
/-! SUPPORT. The family Format: the word the encoder gives an instruction lies in that instruction's row of
spec/opcode_table.json, by the table's own `match` and `mask` columns, and in the format its agent uses (30_encoding.md
R80, R84, R85). -/

namespace Sys2Proof.Laws.Format

/-- A row of the table: its format, `match` and `mask`. -/
inductive Row where
  | ht (pattern mask : HTWord)
  | seq (pattern mask : SeqWord)

/-- The row of an instruction, as spec/opcode_table.json writes it. -/
def row : Instr → Row
  | .nop => .ht 0x1000000000 0x1fffffffff
  | .init => .ht 0x1000000001 0x1fffffffff
  | .final => .ht 0x1000000002 0x1fffffffff
  | .illcmd _ => .ht 0x1000000000 0x1f00000000
  | .wignStatus _ => .ht 0x1100000000 0x1f00000000
  | .putb _ _ => .ht 0x1200000000 0x1f00000000
  | .putw _ => .ht 0x1300000000 0x1f00000000
  | .wignLenRsv _ _ => .ht 0x1400000000 0x1c00000000
  | .wignDigest _ _ => .ht 0x1800000000 0x1800000000
  | .rdctrl _ => .ht 0x0000000000 0x1f00000000
  | .rstat _ => .ht 0x0100000000 0x1f00000000
  | .rddata _ _ => .ht 0x0200000000 0x1e00000000
  | .rlenlo _ => .ht 0x0400000000 0x1f00000000
  | .rlenhi _ => .ht 0x0500000000 0x1f00000000
  | .rrsv _ _ => .ht 0x0600000000 0x1e00000000
  | .rdig _ _ => .ht 0x0800000000 0x1800000000
  | .pad => .seq 0x0c0 0x3ff
  | .padlen => .seq 0x100 0x3ff
  | .load => .seq 0x140 0x3ff
  | .expand _ => .seq 0x180 0x3c0
  | .winit => .seq 0x1c0 0x3ff
  | .round _ => .seq 0x200 0x3c0
  | .fold => .seq 0x240 0x3ff

/-- The word `e` lies in the row. -/
def Row.Has : Row → Encoded → Prop
  | .ht p k, .ht w => w &&& k = p
  | .seq p k, .seq w => w &&& k = p
  | .ht _ _, .seq _ => False
  | .seq _ _, .ht _ => False

/-- Transactions of the host are HT words, micro-operations of the core SEQ words, each in its row. -/
def Statement (i : Instr) : Prop :=
  (row i).Has (encode i) ∧ (i.isHost = true ↔ ∃ w, encode i = .ht w)

/-- Masked bits of a word put together from fields are decided bit by bit. -/
theorem htWord_and (rw : BitVec 1) (off : BitVec 4) (x : Word) (krw : BitVec 1) (koff : BitVec 4) (kx : Word) :
    htWord rw off x &&& htWord krw koff kx = htWord (rw &&& krw) (off &&& koff) (x &&& kx) := by
  apply BitVec.eq_of_getLsbD_eq
  intro i hi
  simp only [htWord, BitVec.getLsbD_and, BitVec.getLsbD_append]
  split <;> [rfl; split <;> rfl]

theorem seqWord_and (p kp : BitVec 4) (t kt : BitVec 6) :
    seqWord p t &&& seqWord kp kt = seqWord (p &&& kp) (t &&& kt) := by
  apply BitVec.eq_of_getLsbD_eq
  intro i hi
  simp only [seqWord, BitVec.getLsbD_and, BitVec.getLsbD_append]
  split <;> rfl

theorem nop : Statement (.nop) := by
  refine ⟨rfl, ?_⟩
  simp [Instr.isHost, encode]

theorem init : Statement (.init) := by
  refine ⟨rfl, ?_⟩
  simp [Instr.isHost, encode]

theorem final : Statement (.final) := by
  refine ⟨rfl, ?_⟩
  simp [Instr.isHost, encode]

theorem illcmd (v : Word) : Statement (.illcmd v) := by
  refine ⟨?_, by simp [Instr.isHost, encode]⟩
  show htWord 1 0 v &&& htWord 1 15 0 = htWord 1 0 0
  rw [htWord_and]
  simp

theorem wignStatus (x : Word) : Statement (.wignStatus x) := by
  refine ⟨?_, by simp [Instr.isHost, encode]⟩
  show htWord 1 1 x &&& htWord 1 15 0 = htWord 1 1 0
  rw [htWord_and]
  simp

theorem putb (x : BitVec 24) (b : Byte) : Statement (.putb x b) := by
  refine ⟨?_, by simp [Instr.isHost, encode]⟩
  show htWord 1 2 (x ++ b) &&& htWord 1 15 0 = htWord 1 2 0
  rw [htWord_and]
  simp

theorem putw (w : Word) : Statement (.putw w) := by
  refine ⟨?_, by simp [Instr.isHost, encode]⟩
  show htWord 1 3 w &&& htWord 1 15 0 = htWord 1 3 0
  rw [htWord_and]
  simp

theorem wignLenRsv (o : BitVec 2) (x : Word) : Statement (.wignLenRsv o x) := by
  refine ⟨?_, by simp [Instr.isHost, encode]⟩
  show htWord 1 (0b01#2 ++ o) x &&& htWord 1 12 0 = htWord 1 4 0
  rw [htWord_and]
  rcases bitVec2_cases o with rfl | rfl | rfl | rfl <;> simp

theorem wignDigest (k : BitVec 3) (x : Word) : Statement (.wignDigest k x) := by
  refine ⟨?_, by simp [Instr.isHost, encode]⟩
  show htWord 1 (0b1#1 ++ k) x &&& htWord 1 8 0 = htWord 1 8 0
  rw [htWord_and]
  rcases bitVec3_cases k with rfl | rfl | rfl | rfl | rfl | rfl | rfl | rfl <;> simp

theorem rdctrl (x : Word) : Statement (.rdctrl x) := by
  refine ⟨?_, by simp [Instr.isHost, encode]⟩
  show htWord 0 0 x &&& htWord 1 15 0 = htWord 0 0 0
  rw [htWord_and]
  simp

theorem rstat (x : Word) : Statement (.rstat x) := by
  refine ⟨?_, by simp [Instr.isHost, encode]⟩
  show htWord 0 1 x &&& htWord 1 15 0 = htWord 0 1 0
  rw [htWord_and]
  simp

theorem rddata (o : BitVec 1) (x : Word) : Statement (.rddata o x) := by
  refine ⟨?_, by simp [Instr.isHost, encode]⟩
  show htWord 0 (0b001#3 ++ o) x &&& htWord 1 14 0 = htWord 0 2 0
  rw [htWord_and]
  rcases bitVec1_cases o with rfl | rfl <;> simp

theorem rlenlo (x : Word) : Statement (.rlenlo x) := by
  refine ⟨?_, by simp [Instr.isHost, encode]⟩
  show htWord 0 4 x &&& htWord 1 15 0 = htWord 0 4 0
  rw [htWord_and]
  simp

theorem rlenhi (x : Word) : Statement (.rlenhi x) := by
  refine ⟨?_, by simp [Instr.isHost, encode]⟩
  show htWord 0 5 x &&& htWord 1 15 0 = htWord 0 5 0
  rw [htWord_and]
  simp

theorem rrsv (o : BitVec 1) (x : Word) : Statement (.rrsv o x) := by
  refine ⟨?_, by simp [Instr.isHost, encode]⟩
  show htWord 0 (0b011#3 ++ o) x &&& htWord 1 14 0 = htWord 0 6 0
  rw [htWord_and]
  rcases bitVec1_cases o with rfl | rfl <;> simp

theorem rdig (k : BitVec 3) (x : Word) : Statement (.rdig k x) := by
  refine ⟨?_, by simp [Instr.isHost, encode]⟩
  show htWord 0 (0b1#1 ++ k) x &&& htWord 1 8 0 = htWord 0 8 0
  rw [htWord_and]
  rcases bitVec3_cases k with rfl | rfl | rfl | rfl | rfl | rfl | rfl | rfl <;> simp

theorem pad : Statement (.pad) := by
  refine ⟨rfl, ?_⟩
  simp [Instr.isHost, encode]

theorem padlen : Statement (.padlen) := by
  refine ⟨rfl, ?_⟩
  simp [Instr.isHost, encode]

theorem load : Statement (.load) := by
  refine ⟨rfl, ?_⟩
  simp [Instr.isHost, encode]

theorem expand (t : BitVec 6) : Statement (.expand t) := by
  refine ⟨?_, by simp [Instr.isHost, encode]⟩
  show seqWord 6 t &&& seqWord 15 0 = seqWord 6 0
  rw [seqWord_and]
  simp

theorem winit : Statement (.winit) := by
  refine ⟨rfl, ?_⟩
  simp [Instr.isHost, encode]

theorem round (t : BitVec 6) : Statement (.round t) := by
  refine ⟨?_, by simp [Instr.isHost, encode]⟩
  show seqWord 8 t &&& seqWord 15 0 = seqWord 8 0
  rw [seqWord_and]
  simp

theorem fold : Statement (.fold) := by
  refine ⟨rfl, ?_⟩
  simp [Instr.isHost, encode]

end Sys2Proof.Laws.Format
end

