-- ==== Sys2Proof/Tests/Slice0.lean ====
section
/-! SUPPORT. Tests. Expected values come from spec/: the encodings of opcode_table.json and 30_encoding.md R84, R85, and
the vectors of 95_test_vectors.md (named V-… below). The second half are the witnesses: states and operands that meet
the hypotheses of the statements in Certificates/Slice0/Obligations.lean. -/

namespace Sys2Proof.Machine.Tests

/-! ## Helpers -/

/-- A result is a next state with the property. -/
def after (r : Result) (p : State → Bool) : Bool :=
  match r with
  | .next t => p t
  | .fault _ => false
  | .refused _ => false

/-- The state after INIT from reset. -/
def opened : State := { State.reset with PHASE := Phase.OPEN }

/-- A state in the given sequencer state. -/
def at' (p : Phase) (t : BitVec 6) : State := { State.reset with PHASE := p, T := t }

/-- Bytes from position 0 on, zeros behind them. -/
def bytes (bs : List Byte) : Vector Byte 64 := Vector.ofFn fun i : Fin 64 => bs.getD i.val 0

/-- Three message bytes "abc" accepted. -/
def abc : State := { opened with BUF := bytes [0x61, 0x62, 0x63], CNT := 3, LEN := 24 }

/-- 64 bytes accepted (V-D8, H7). -/
def full : State := { (at' Phase.LOAD 0) with LEN := 512 }

/-- W with the given words at the given places. -/
def words (ws : List (Nat × Word)) : Vector Word 64 :=
  Vector.ofFn fun i : Fin 64 => ((ws.find? fun p => p.1 == i.val).map (·.2)).getD 0

/-- V-D5, the row of round 62. -/
def row62 : Work := ⟨0xd39a2165, 0x04d24d6c, 0xb85e2ce9, 0xb6ae8fff, 0xfb121210, 0x948d25b6, 0x961f4894, 0xb21bad3d⟩

/-- V-D5, the row of round 63. -/
def row63 : Work := ⟨0x506e3058, 0xd39a2165, 0x04d24d6c, 0xb85e2ce9, 0x5ef50f24, 0xfb121210, 0x948d25b6, 0x961f4894⟩

/-! ## WellFormed -/

theorem test_illcmd_refuses_0 : (Instr.illcmd 0).wf = false := by decide
theorem test_illcmd_refuses_1 : (Instr.illcmd 1).wf = false := by decide
theorem test_illcmd_refuses_2 : (Instr.illcmd 2).wf = false := by decide
theorem test_illcmd_admits_3 : (Instr.illcmd 3).wf = true := by decide
theorem test_expand_refuses_15 : (Instr.expand 15).wf = false := by decide
theorem test_expand_admits_16 : (Instr.expand 16).wf = true := by decide

/-! ## Decoding: one word, written from the `encoding` column, for every constructor -/

theorem test_decode_nop : decodeTableWord 40 0b1000000000000000000000000000000000000 = some .nop := by decide
theorem test_decode_init : decodeTableWord 40 0b1000000000000000000000000000000000001 = some .init := by decide
theorem test_decode_final : decodeTableWord 40 0b1000000000000000000000000000000000010 = some .final := by decide
theorem test_decode_illcmd : decodeTableWord 40 0b1000000000000000000000000000000000011 = some (.illcmd 3) := by decide
theorem test_decode_illcmd_high :
    decodeTableWord 40 0b1000010000000000000000000000000000001 = some (.illcmd 0x80000001) := by decide
theorem test_decode_wignStatus :
    decodeTableWord 40 0b1000110000000000000000000000000000001 = some (.wignStatus 0x80000001) := by decide
theorem test_decode_putb :
    decodeTableWord 40 0b1001010000000000000000000000101100001 = some (.putb 0x800001 0x61) := by decide
theorem test_decode_putw :
    decodeTableWord 40 0b1001101100001011000100110001101100100 = some (.putw 0x61626364) := by decide
theorem test_decode_wignLenRsv :
    decodeTableWord 40 0b1011000000000000000000000000000000101 = some (.wignLenRsv 2 5) := by decide
theorem test_decode_wignDigest :
    decodeTableWord 40 0b1111000000000000000000000000000000101 = some (.wignDigest 6 5) := by decide
theorem test_decode_rdctrl : decodeTableWord 40 0b0000000000000000000000000000000000001 = some (.rdctrl 1) := by decide
theorem test_decode_rstat : decodeTableWord 40 0b0000100000000000000000000000000000000 = some (.rstat 0) := by decide
theorem test_decode_rddata : decodeTableWord 40 0b0001100000000000000000000000000000000 = some (.rddata 1 0) := by decide
theorem test_decode_rlenlo : decodeTableWord 40 0b0010000000000000000000000000000000000 = some (.rlenlo 0) := by decide
theorem test_decode_rlenhi : decodeTableWord 40 0b0010100000000000000000000000000000000 = some (.rlenhi 0) := by decide
theorem test_decode_rrsv : decodeTableWord 40 0b0011100000000000000000000000000000000 = some (.rrsv 1 0) := by decide
theorem test_decode_rdig : decodeTableWord 40 0b0110000000000000000000000000000000000 = some (.rdig 4 0) := by decide
theorem test_decode_pad : decodeTableWord 16 0b0011000000 = some .pad := by decide
theorem test_decode_padlen : decodeTableWord 16 0b0100000000 = some .padlen := by decide
theorem test_decode_load : decodeTableWord 16 0b0101000000 = some .load := by decide
theorem test_decode_expand : decodeTableWord 16 0b0110010000 = some (.expand 16) := by decide
theorem test_decode_winit : decodeTableWord 16 0b0111000000 = some .winit := by decide
theorem test_decode_round : decodeTableWord 16 0b1000111110 = some (.round 62) := by decide
theorem test_decode_fold : decodeTableWord 16 0b1001000000 = some .fold := by decide

/-- R87: EXPAND with T = 15, LOAD with T = 1, PHASE 10. -/
theorem test_unspecified_words_decode_to_nothing :
    decodeTableWord 16 0b0110001111 = none ∧ decodeTableWord 16 0b0101000001 = none ∧
      decodeTableWord 16 0b1010000000 = none := by decide

/-- R85: IDLE, OPEN, DONE have no micro-operation. -/
theorem test_resting_words_decode_to_nothing :
    decodeSEQ 0b0000000000 = .error .noMicroOp ∧ decodeSEQ 0b0001000000 = .error .noMicroOp ∧
      decodeSEQ 0b0010000000 = .error .noMicroOp := ⟨rfl, rfl, rfl⟩

/-! ## Primitives (V-D1) -/

theorem test_rotr : rotr 7 (by decide) 0x00000001 = 0x02000000 ∧ rotr 2 (by decide) 0x12345678 = 0x048d159e ∧
    rotr 31 (by decide) 0x80000001 = 0x00000003 ∧ rotr 1 (by decide) 0x00000001 = 0x80000000 := by decide
theorem test_shr : shr 10 0x80000000 = 0x00200000 ∧ shr 3 0x00000007 = 0 := by decide
theorem test_ch : ch 0x510e527f 0x9b05688c 0x1f83d9ab = 0x1f85c98c ∧ ch 0 0x12345678 0x9abcdef0 = 0x9abcdef0 := by
  decide
theorem test_maj : maj 0x6a09e667 0xbb67ae85 0x3c6ef372 = 0x3a6fe667 ∧ maj 0xffffffff 0 0x12345678 = 0x12345678 := by
  decide
theorem test_bigSigma0 : bigSigma0 0x6a09e667 = 0xce20b47e ∧ bigSigma0 0x80000000 = 0x20040200 := by decide
theorem test_bigSigma1 : bigSigma1 0x510e527f = 0x3587272b ∧ bigSigma1 0x00000001 = 0x04200080 := by decide
theorem test_smallSigma0 : smallSigma0 0x6a09e667 = 0xba0cf582 ∧ smallSigma0 0xffffffff = 0x1fffffff := by decide
theorem test_smallSigma1 : smallSigma1 0x510e527f = 0xe3640132 ∧ smallSigma1 0xffffffff = 0x003fffff := by decide

/-! ## Host transactions (V-D8) -/

/-- H8 -/
theorem test_nop : step (full.withFetchWord 40 0x1000000000) = .next full ∧ full.status = 0x00000051 := ⟨rfl, rfl⟩
/-- H3 -/
theorem test_init : after (step (State.reset.withFetchWord 40 0x1000000001)) (fun t => t.status = 0x00000014 ∧
    t.digest 0 = 0x6a09e667) = true := by decide
/-- H10 -/
theorem test_init_aborts : after (step ({ (at' Phase.EXPAND 20) with LEN := 512 }.withFetchWord 40 0x1000000001))
    (fun t => t.PHASE = Phase.OPEN ∧ t.LEN = 0 ∧ t.T = 0 ∧ t.H = IV ∧ t.status = 0x00000014) = true := by decide
/-- H2 -/
theorem test_final_before_init : after (step (State.reset.withFetchWord 40 0x1000000002))
    (fun t => t.status = 0x00000100) = true := by decide
/-- H16 -/
theorem test_final : after (step (abc.withFetchWord 40 0x1000000002)) (fun t => t.status = 0x00030031) = true := by decide
/-- H5 -/
theorem test_illcmd : after (step (opened.withFetchWord 40 0x1000000011)) (fun t => t.PHASE = Phase.OPEN ∧
    t.status = 0x00000814) = true := by decide
/-- H9: two error bits -/
theorem test_illcmd_busy : after (step ({ full with err := ⟨false, true, false, false, false⟩ }.withFetchWord 40 0x1000000007))
    (fun t => t.status = 0x00000a51) = true := by decide
/-- H14 -/
theorem test_wignStatus : step (opened.withFetchWord 40 0x11ffffffff) = .next opened ∧ opened.status = 0x00000014 :=
  ⟨rfl, rfl⟩
/-- H14 -/
theorem test_wignLenRsv : step (opened.withFetchWord 40 0x1400000005) = .next opened ∧ opened.LEN = 0 := ⟨rfl, rfl⟩
/-- H14 -/
theorem test_wignDigest : step (opened.withFetchWord 40 0x1800000000) = .next opened ∧ opened.digest 0 = 0x6a09e667 :=
  ⟨rfl, rfl⟩
/-- H1 -/
theorem test_putb_before_init : after (step (State.reset.withFetchWord 40 0x1200000061)) (fun t => t.status = 0x00000100 ∧
    t.LEN = 0) = true := by decide
/-- H11: the last byte a message may have, at 2^64 - 16 bits -/
theorem test_putb_limit : after (step ({ opened with LEN := 0xfffffffffffffff0, CNT := 62 }.withFetchWord 40 0x1200000061))
    (fun t => t.LEN = 0xfffffffffffffff8 ∧ t.BUF[62] = 0x61 ∧ t.status = 0x003f0014) = true := by decide
/-- H6 -/
theorem test_putw_misaligned : after (step ({ opened with LEN := 8, CNT := 1 }.withFetchWord 40 0x1362636465))
    (fun t => t.CNT = 1 ∧ t.LEN = 8 ∧ t.status = 0x00011014) = true := by decide
/-- V-P3, line 2 -/
theorem test_putw : after (step (opened.withFetchWord 40 0x1361626364)) (fun t => t.CNT = 4 ∧ t.LEN = 32 ∧
    t.BUF[0] = 0x61 ∧ t.BUF[3] = 0x64 ∧ t.status = 0x00040014) = true := by decide
/-- H13 -/
theorem test_rdctrl : step (abc.withFetchWord 40 0x0000000000) = .next { abc with rdata := some 0 } := rfl
/-- V-P2, line 5 -/
theorem test_rstat : after (step (abc.withFetchWord 40 0x0100000000)) (fun t => t.rdata = some 0x00030014) = true := by
  decide
/-- H13 -/
theorem test_rddata : step (abc.withFetchWord 40 0x0300000000) = .next { abc with rdata := some 0 } := rfl
/-- H15 -/
theorem test_rlenlo : after (step (abc.withFetchWord 40 0x0400000000)) (fun t => t.rdata = some 0x00000018) = true := by
  decide
/-- LEN = 2^32 + 24, R147 -/
theorem test_rlenhi : after (step ({ abc with LEN := 0x100000018 }.withFetchWord 40 0x0500000000))
    (fun t => t.rdata = some 1) = true := by decide
/-- H13 -/
theorem test_rrsv : step (abc.withFetchWord 40 0x0600000000) = .next { abc with rdata := some 0 } := rfl
/-- V-L1f: the last word of IV -/
theorem test_rdig : after (step (opened.withFetchWord 40 0x0f00000000)) (fun t => t.rdata = some 0x5be0cd19) = true := by
  decide

/-! ## Micro-operations (V-D2 to V-D6) -/

/-- V-D2, n = 55 -/
theorem test_pad_fits : after (step ({ opened with CNT := 55, LEN := 440 }.withFetchWord 16 0x0c0)) (fun t =>
    t.BUF[55] = 0x80 ∧ t.BUF[61] = 0x00 ∧ t.BUF[62] = 0x01 ∧ t.BUF[63] = 0xb8 ∧ t.LAST ∧ t.LENPEND = false ∧ t.CNT = 0 ∧
      t.PHASE = Phase.LOAD) = true := by decide
/-- V-D2, n = 56 -/
theorem test_pad_spills : after (step ({ opened with CNT := 56, LEN := 448 }.withFetchWord 16 0x0c0)) (fun t =>
    t.BUF[56] = 0x80 ∧ t.BUF[57] = 0x00 ∧ t.BUF[63] = 0x00 ∧ t.LAST = false ∧ t.LENPEND ∧ t.CNT = 0) = true := by decide
/-- V-D2, n = 120: the PADLEN block -/
theorem test_padlen : after (step ({ State.reset with LEN := 960, LENPEND := true, BUF := Vector.replicate 64 0x61 }.withFetchWord
    16 0x100)) (fun t => t.BUF[0] = 0 ∧ t.BUF[55] = 0 ∧ t.BUF[62] = 0x03 ∧ t.BUF[63] = 0xc0 ∧ t.LAST ∧
      t.LENPEND = false ∧ t.PHASE = Phase.LOAD) = true := by decide
/-- V-D3: the bytes 00, 01, …, 3f -/
theorem test_load : after (step ({ State.reset with BUF := Vector.ofFn fun i : Fin 64 => BitVec.ofNat 8 i.val }.withFetchWord
    16 0x140)) (fun t => t.W[0] = 0x00010203 ∧ t.W[1] = 0x04050607 ∧ t.W[15] = 0x3c3d3e3f ∧ t.T = 16 ∧
      t.PHASE = Phase.EXPAND) = true := by decide
/-- V-D4, W[17] -/
theorem test_expand : after (step ({ State.reset with W := words [(0, 0x61626380), (15, 0x18)] }.withFetchWord 16 0x191))
    (fun t => t.W[17] = 0x000f0000 ∧ t.T = 18 ∧ t.PHASE = Phase.EXPAND) = true := by decide
/-- V-D4, W[63] -/
theorem test_expand_last : after (step ({ State.reset with
    W := words [(47, 0x065c43da), (48, 0xfb3e89cb), (56, 0xef57b9cd), (61, 0x668b2ff8)] }.withFetchWord 16 0x1bf))
    (fun t => t.W[63] = 0x12b1edeb ∧ t.T = 0 ∧ t.PHASE = Phase.WINIT) = true := by decide
/-- V-D5: "After WINIT: a..h = IV" -/
theorem test_winit : after (step (State.reset.withFetchWord 16 0x1c0)) (fun t => t.wr.a = 0x6a09e667 ∧
    t.wr.h = 0x5be0cd19 ∧ t.PHASE = Phase.ROUND) = true := by decide
/-- V-D5, round 0 -/
theorem test_round_first : after (step ({ State.reset with wr := Work.ofH IV, W := words [(0, 0x61626380)] }.withFetchWord
    16 0x200)) (fun t => t.wr = ⟨0x5d6aebcd, 0x6a09e667, 0xbb67ae85, 0x3c6ef372, 0xfa2a4622, 0x510e527f, 0x9b05688c,
      0x1f83d9ab⟩ ∧ t.T = 1 ∧ t.PHASE = Phase.ROUND) = true := by decide
/-- V-D5, round 63 -/
theorem test_round_last : after (step ({ State.reset with wr := row62, W := words [(63, 0x12b1edeb)] }.withFetchWord
    16 0x23f)) (fun t =>
    t.wr.a = 0x506e3058 ∧ t.wr.e = 0x5ef50f24 ∧ t.T = 0 ∧ t.PHASE = Phase.FOLD) = true := by decide
/-- V-D6 -/
theorem test_fold : after (step ({ State.reset with LAST := true, wr := row63 }.withFetchWord 16 0x240)) (fun t => t.H = #v[0xba7816bf, 0x8f01cfea,
    0x414140de, 0x5dae2223, 0xb00361a3, 0x96177a9c, 0xb410ff61, 0xf20015ad] ∧ t.status = 0x00000022) = true := by decide

/-! ## Events -/

/-- R260: reset in the middle of a block, with a read presented. -/
theorem test_reset_edge : step { (at' Phase.ROUND 9) with LEN := 512, inputs := [.reset (some 0x0400000000), .core] }
    = .next { State.reset with rdata := some 0, inputs := [.core] } := rfl
/-- R28, R62: the core has no step in OPEN. -/
theorem test_core_rests : step { abc with inputs := [.core] } = .next abc := rfl
/-- R87 -/
theorem test_unspecified_refused : step (at' 12 0) = .refused .unspecifiedSequencerState := rfl

/-! ## Assembler lines (30_encoding.md R88; V-P2, V-P5) -/

theorem test_line_putb : parseLine "putb 0x61 ; a".toList = some (.op (.putb 0x61) none) := by decide
theorem test_line_wr : parseLine "WR 0, 0x3".toList = some (.op (.wr 0 3) none) := by decide
theorem test_line_result : parseLine "RDIG 7 -> d".toList = some (.op (.rdig 7) (some ['d'])) := by decide
theorem test_line_too_big : parseLine "PUTB 256".toList = none := by decide
theorem test_assemble : assemble (.putw 0x61626364) = 0x1361626364 ∧ assemble (.rdig 7) = 0x0f00000000 := by decide
/-- R89: three bytes go by PUTB, four by PUTW. -/
theorem test_putmsg : putmsg 0 [1, 2, 3] = [.tx (.putb 1), .tx (.putb 2), .tx (.putb 3)] ∧
    putmsg 0 [1, 2, 3, 4] = [.tx (.putw 0x01020304)] ∧
    putmsg 60 [1, 2, 3, 4, 5] = [.tx (.putw 0x01020304), .waitIdle, .tx (.putb 5)] := by decide

/-! ## Witnesses

For every statement with hypotheses, states and operands that meet all of them, at the boundaries of each clause. -/

/-- DecodeEncodeRoundTrip. -/
theorem witness_wellFormed : (Instr.illcmd 3).wf = true ∧ (Instr.putb 0xffffff 0xff).wf = true ∧
    (Instr.expand 16).wf = true ∧ (Instr.expand 63).wf = true := by decide

/-- EncodeDecodeRoundTrip; HtDecodeTable, last clause. -/
theorem witness_decodes : decode (.ht 0x1000000003) = .ok (.illcmd 3) ∧ decode (.seq 0x190) = .ok (.expand 16) ∧
    (Instr.illcmd 3).wf = true ∧ encode (.illcmd 3) = .ht 0x1000000003 := ⟨rfl, rfl, rfl, rfl⟩

/-- SeqDecodeTable: EXPAND at both ends. -/
theorem witness_expand_range : 16 ≤ (16 : BitVec 6).toNat ∧ 16 ≤ (63 : BitVec 6).toNat := by decide

/-- A state that is not unspecified. -/
theorem specified {s : State} (h : seqSpecified s.PHASE s.T = true) : ¬s.unspecified := (seqSpecified_iff s).1 h

/-- UnspecifiedSequencerStatesRefused: each kind of state R87 lists, at its boundaries, and a reachable state. -/
theorem witness_unspecified : (at' 10 0).unspecified ∧ (at' 15 63).unspecified ∧ (at' 0 1).unspecified ∧
    (at' 5 63).unspecified ∧ (at' 7 1).unspecified ∧ (at' 9 1).unspecified ∧ (at' 6 15).unspecified ∧
    (at' 10 0).resetNext = false ∧ Reachable (State.reset.setInputs []) := by
  refine ⟨?_, ?_, ?_, ?_, ?_, ?_, ?_, rfl, .reset []⟩ <;> simp [State.unspecified, at']

/-- StepRunsTransaction, in a busy state. -/
theorem witness_transaction : ∃ s : State, ¬s.unspecified ∧ s.inputs = [.txn 0x1000000001, .core] ∧ s.busy = true :=
  ⟨{ (at' Phase.ROUND 63) with inputs := [.txn 0x1000000001, .core] }, specified rfl, rfl, rfl⟩

/-- StepRunsMicroOperation, with `core` next and with no event left. -/
theorem witness_coreTurn : (at' Phase.PAD 0).coreNext = true ∧
    ({ (at' Phase.EXPAND 16) with inputs := [.core] } : State).coreNext = true ∧
    decodeSEQ (seqWord Phase.EXPAND 16) = .ok (.expand 16) ∧ decodeSEQ (seqWord Phase.DONE 0) = .error .noMicroOp :=
  ⟨rfl, rfl, rfl, rfl⟩

/-- StepRunsPlacedWord, both formats. -/
theorem witness_placed : decodeTableWord 40 0x1361626364 = some (.putw 0x61626364) ∧ (Instr.putw 0x61626364).isHost = true ∧
    ¬opened.unspecified ∧ decodeTableWord 16 0x1bf = some (.expand 63) ∧ (Instr.expand 63).isHost = false :=
  ⟨rfl, rfl, specified rfl, rfl, rfl⟩

/-- ResetEdge: from an unspecified state, a read presented. -/
theorem witness_reset : ∃ s : State, s.inputs = [.reset (some 0x0f00000000)] ∧ htRW 0x0f00000000 = 0 :=
  ⟨{ (at' 12 5) with inputs := [.reset (some 0x0f00000000)] }, rfl, by decide⟩

/-- SubWordAndMisalignedAccessesStuck: a halfword in the last register, a word at the first odd address. -/
theorem witness_access : ∃ (s s' : State) (a a' : BusAccess), ¬s.unspecified ∧ s.inputs = [.access a] ∧
    ¬s'.unspecified ∧ s'.inputs = [.access a'] ∧ Config.BASE ≤ a.addr ∧ a.addr < Config.BASE + 64 ∧ a.width ≠ .word ∧
    a'.width = .word ∧ Config.BASE ≤ a'.addr ∧ a'.addr < Config.BASE + 64 ∧ a'.addr % 4 ≠ 0 := by
  refine ⟨{ opened with inputs := [.access ⟨true, Config.BASE + 60, .half, 0⟩] },
    { opened with inputs := [.access ⟨false, Config.BASE + 1, .word, 0⟩] }, ⟨true, Config.BASE + 60, .half, 0⟩,
    ⟨false, Config.BASE + 1, .word, 0⟩, specified rfl, rfl, specified rfl, rfl, by simp, by simp, by simp, rfl, by simp,
    by simp, ?_⟩
  simp only [Config.BASE]
  omega

/-- FinalEffect: busy, not open, open. -/
theorem witness_final : (at' Phase.FOLD 0).busy = true ∧ (at' Phase.DONE 0).busy = false ∧
    (at' Phase.DONE 0).PHASE ≠ Phase.OPEN ∧ abc.PHASE = Phase.OPEN := by decide

/-- IllcmdEffect; HtDecodeTable, fourth clause. -/
theorem witness_illcmd : (3 : Word) ≠ 0 ∧ (3 : Word) ≠ 1 ∧ (3 : Word) ≠ 2 := by decide

/-- PutbEffect: refused (busy, not open), at the last length accepted and the first refused, at CNT 62 and 63. -/
theorem witness_putb : full.busy = true ∧ State.reset.busy = false ∧ State.reset.PHASE ≠ Phase.OPEN ∧
    (∃ s : State, s.PHASE = Phase.OPEN ∧ s.LEN.toNat + 8 > 2 ^ 64 - 8) ∧
    (∃ s : State, s.PHASE = Phase.OPEN ∧ s.LEN.toNat + 8 = 2 ^ 64 - 8 ∧ s.CNT = 62) ∧
    (∃ s : State, s.PHASE = Phase.OPEN ∧ s.LEN.toNat + 8 ≤ 2 ^ 64 - 8 ∧ s.CNT = 63) :=
  ⟨rfl, rfl, by decide, ⟨{ opened with LEN := 0xfffffffffffffff8, CNT := 63 }, by decide⟩,
    ⟨{ opened with LEN := 0xfffffffffffffff0, CNT := 62 }, by decide⟩, ⟨{ opened with LEN := 504, CNT := 63 }, by decide⟩⟩

/-- PutwEffect; PutwIsFourPutb: misaligned at CNT 1 and 63, at the last length accepted and the first refused, at CNT 56
and 60. -/
theorem witness_putw : full.busy = true ∧ State.reset.busy = false ∧ State.reset.PHASE ≠ Phase.OPEN ∧
    (∃ s : State, s.PHASE = Phase.OPEN ∧ s.CNT = 1 ∧ s.CNT.toNat % 4 ≠ 0) ∧
    (∃ s : State, s.PHASE = Phase.OPEN ∧ s.CNT = 63 ∧ s.CNT.toNat % 4 ≠ 0) ∧
    (∃ s : State, s.PHASE = Phase.OPEN ∧ s.CNT.toNat % 4 = 0 ∧ s.LEN.toNat + 32 = 2 ^ 64) ∧
    (∃ s : State, s.PHASE = Phase.OPEN ∧ s.CNT.toNat % 4 = 0 ∧ s.LEN.toNat + 32 = 2 ^ 64 - 8 ∧ s.CNT.toNat = 56) ∧
    (∃ s : State, s.PHASE = Phase.OPEN ∧ s.CNT.toNat % 4 = 0 ∧ s.LEN.toNat + 32 ≤ 2 ^ 64 - 8 ∧ s.CNT = 60) :=
  ⟨rfl, rfl, by decide, ⟨{ opened with LEN := 8, CNT := 1 }, by decide⟩, ⟨{ opened with LEN := 504, CNT := 63 }, by decide⟩,
    ⟨{ opened with LEN := 0xffffffffffffffe0, CNT := 60 }, by decide⟩,
    ⟨{ opened with LEN := 0xffffffffffffffd8, CNT := 56 }, by decide⟩,
    ⟨{ opened with LEN := 480, CNT := 60 }, by decide⟩⟩

/-- PutwWordReachesSchedule: the word at CNT 60, LOAD right after it. -/
theorem witness_putw_then_load : ∃ s t : State, s.PHASE = Phase.OPEN ∧ s.CNT.toNat % 4 = 0 ∧
    s.LEN.toNat + 32 ≤ 2 ^ 64 - 8 ∧ exec (.putw 0x61626364) s = .next t ∧
    ∀ (i : Nat) (h : i < 64), s.CNT.toNat ≤ i → i < s.CNT.toNat + 4 → t.BUF[i] = t.BUF[i] :=
  ⟨{ opened with LEN := 480, CNT := 60 }, appendBytes (bytes32 0x61626364) { opened with LEN := 480, CNT := 60 },
    by decide, by decide, by decide, execPutw_accepted _ rfl (by decide) (by decide), fun _ _ _ _ => rfl⟩

/-- StatusRegister, DigestReads: INIT answers a next state. InitForgetsThePast: two states to forget. -/
theorem witness_init : (∃ t, exec .init full = .next t) ∧ full.rdata = abc.rdata ∧ full.inputs = abc.inputs :=
  ⟨⟨_, rfl⟩, rfl, rfl⟩

/-- ReadsChangeNoState. -/
theorem witness_read : htRW 0x0fffffffff = 0 := by decide

/-- IgnoredBitsDoNotMatter: each of the four cases. -/
theorem witness_ignoredBits : (htRW 0x0fffffffff = 0) ∧ (htOFF 0x1100000000 = 0b0001) ∧ 4 ≤ (htOFF 0x1400000000).toNat ∧
    (htOFF 0x1200000061 = 0b0010 ∧ (0xffffff61 : Word).extractLsb' 0 8 = (0x00000061 : Word).extractLsb' 0 8) := by decide

/-- FirstErrorAlone: no error, and each of the five; two conditions at once report the first. -/
theorem witness_firstError : firstError (.putb 0 0x61) opened = none ∧ firstError .final full = some .busy ∧
    firstError (.putw 0) State.reset = some .seq ∧
    firstError (.putw 0) { opened with LEN := 0xfffffffffffffff8, CNT := 63 } = some .align ∧
    firstError (.putb 0 0) { opened with LEN := 0xfffffffffffffff8, CNT := 63 } = some .len ∧
    firstError (.illcmd 3) full = some .cmd ∧ (Instr.putw 0).isHost = true ∧ Instr.putw 0 ≠ .init := by decide

/-- ErrorBitsCleared: an error on top of another, an INIT and a reset that clear ERR_SEQ. -/
theorem witness_errorsCleared :
    (∃ s t : State, step s = .next t ∧ s.presented = some (.putb 0 0x61) ∧ ¬s.unspecified ∧
      firstError (.putb 0 0x61) s = some .busy ∧ s.err.get .cmd = true) ∧
    (∃ s t : State, step s = .next t ∧ s.err.get .seq = true ∧ t.err.get .seq = false ∧ s.presented = some .init) ∧
    (∃ s t : State, step s = .next t ∧ s.err.get .seq = true ∧ t.err.get .seq = false ∧ s.resetNext = true) :=
  ⟨⟨{ full with err := ⟨false, false, false, true, false⟩, inputs := [.txn 0x1200000061] }, _, rfl, rfl, specified rfl, rfl,
      rfl⟩,
    ⟨{ abc with err := ⟨true, false, false, false, false⟩, inputs := [.txn 0x1000000001] }, _, rfl, rfl, rfl, rfl⟩,
    ⟨{ abc with err := ⟨true, false, false, false, false⟩, inputs := [.reset none] }, _, rfl, rfl, rfl, rfl⟩⟩

/-- DatapathRaisesNothing. -/
theorem witness_microOperation : (Instr.expand 16).isHost = false ∧ (Instr.expand 16).wf = true ∧
    (Instr.fold).isHost = false ∧ (Instr.fold).wf = true := by decide

/-- SequencerTransitions: steps that change PHASE and that change T. -/
theorem witness_sequencer :
    (∃ s t : State, step s = .next t ∧ s.PHASE = Phase.OPEN ∧ t.PHASE = Phase.PAD) ∧
    (∃ s t : State, step s = .next t ∧ s.T = 62 ∧ t.T = 63) ∧
    (∃ s t : State, step s = .next t ∧ s.T = 63 ∧ t.T = 0 ∧ t.PHASE = Phase.FOLD) :=
  ⟨⟨{ abc with inputs := [.txn 0x1000000002] }, _, rfl, rfl, rfl⟩, ⟨at' Phase.ROUND 62, _, rfl, rfl, rfl⟩,
    ⟨at' Phase.ROUND 63, _, rfl, rfl, rfl, rfl⟩⟩

/-- RegisterWriters: an instruction that changes each register. -/
theorem witness_writers :
    (∃ t, exec .fold { full with wr := row63 } = .next t ∧ t.H ≠ full.H) ∧
    (∃ t, exec .winit full = .next t ∧ t.wr ≠ full.wr) ∧
    (∃ t, exec .load { full with BUF := bytes [0x61] } = .next t ∧ t.W[0] ≠ full.W[0]) ∧
    (∃ t, exec .pad abc = .next t ∧ t.BUF[3] ≠ abc.BUF[3] ∧ t.CNT ≠ abc.CNT ∧ t.LAST ≠ abc.LAST) ∧
    (∃ t, exec (.putb 0 0x61) opened = .next t ∧ t.LEN ≠ opened.LEN) :=
  ⟨⟨_, rfl, by decide⟩, ⟨_, rfl, by decide⟩, ⟨_, rfl, by decide⟩, ⟨_, rfl, by decide, by decide, by decide⟩,
    ⟨_, rfl, by decide⟩⟩

/-- PadEffect; PaddingStepCounts: CNT 55, 56 and 63. -/
theorem witness_pad : ∃ s s' s'' : State, (s.PHASE = Phase.PAD ∧ s.T = 0 ∧ s.inputs = [] ∧ s.CNT.toNat = 55) ∧
    (s'.PHASE = Phase.PAD ∧ s'.T = 0 ∧ s'.inputs = [] ∧ s'.CNT.toNat = 56) ∧
    (s''.PHASE = Phase.PAD ∧ s''.T = 0 ∧ s''.inputs = [] ∧ s''.CNT.toNat = 63) :=
  ⟨{ (at' Phase.PAD 0) with CNT := 55 }, { (at' Phase.PAD 0) with CNT := 56 }, { (at' Phase.PAD 0) with CNT := 63 },
    by decide⟩

/-- PaddingLength: the least number of zeros, at n = 55 and 56. -/
theorem witness_zeros : (55 + 1 + 0) % 64 = 56 ∧ (56 + 1 + 63) % 64 = 56 := by decide

/-- RotateAndShiftBits: the least and the greatest amount. -/
theorem witness_rotate : (0 < 1 ∧ 1 < 32) ∧ (0 < 31 ∧ 31 < 32) := by decide

/-- ChooseBits: bit 31 set, bit 0 clear. -/
theorem witness_choose : (0x80000000 : Word).getLsbD 31 = true ∧ (0x80000000 : Word).getLsbD 0 = false := by decide

/-- ExpandEffect, RoundEffect: the boundary indexes, and rounds' T1 and T2. -/
theorem witness_indexes : 16 ≤ (16 : BitVec 6).toNat ∧ (16 : BitVec 6) ≠ 63 ∧ (62 : BitVec 6) ≠ 63 ∧
    ∃ T1 T2 : Word, T1 = full.wr.h + bigSigma1 full.wr.e + ch full.wr.e full.wr.f full.wr.g + K 63 + full.W[63] ∧
      T2 = bigSigma0 full.wr.a + maj full.wr.a full.wr.b full.wr.c :=
  ⟨by decide, by decide, by decide, _, _, rfl, rfl⟩

/-- FoldEffect: the three cases of LAST and LENPEND. -/
theorem witness_fold : ∃ s s' s'' : State, s.LAST = true ∧ (s'.LAST = false ∧ s'.LENPEND = true) ∧
    (s''.LAST = false ∧ s''.LENPEND = false) :=
  ⟨{ full with LAST := true }, { full with LENPEND := true }, full, rfl, ⟨rfl, rfl⟩, ⟨rfl, rfl⟩⟩

/-- A state with the invariants: "abc" accepted, with the given event next. -/
theorem inv_abc (inputs : List Event) : Inv { abc with inputs := inputs } := by
  constructor <;> simp [abc, opened, State.reset, State.inBlock, LEN_MAX]

/-- The reset state has the invariants. -/
theorem inv_reset : Inv State.reset := by
  constructor <;> simp [State.reset, State.inBlock, LEN_MAX]

/-- InvKeptByStep: FINAL accepted. -/
theorem witness_inv_step : ∃ s t : State, Inv s ∧ step s = .next t ∧ t.PHASE = Phase.PAD :=
  ⟨{ abc with inputs := [.txn 0x1000000002] }, _, inv_abc _, rfl, rfl⟩

/-- StepCompletes: with an admitted access in the window, and with a transaction. -/
theorem witness_step_completes :
    (∃ s : State, Inv s ∧ s.inputs = [.access ⟨true, Config.BASE + 60, .word, 0⟩] ∧
      ∀ a rest, s.inputs = .access a :: rest → a.inWindow = true ∧ a.admitted = true) ∧
    (∃ s : State, Inv s ∧ s.inputs = [.txn 0] ∧
      ∀ a rest, s.inputs = .access a :: rest → a.inWindow = true ∧ a.admitted = true) := by
  refine ⟨⟨{ abc with inputs := [.access ⟨true, Config.BASE + 60, .word, 0⟩] }, inv_abc _, rfl, ?_⟩,
    ⟨{ abc with inputs := [.txn 0] }, inv_abc _, rfl, fun a rest h => by cases h⟩⟩
  intro a rest h
  cases h
  simp [BusAccess.inWindow, BusAccess.admitted, Config.BASE]
  omega

/-- UnwrittenRegistersNotObserved: two states that differ in BUF[3], in W and in a..h. -/
theorem witness_sameWritten : ∃ s s' t : State, Inv s ∧ SameWritten s s' ∧ s ≠ s' ∧ step s = .next t ∧
    t.PHASE = Phase.PAD := by
  refine ⟨{ abc with inputs := [.txn 0x1000000002] }, { abc with
    inputs := [.txn 0x1000000002], wr := row63, BUF := bytes [0x61, 0x62, 0x63, 0x64], W := Vector.replicate 64 1 }, _,
    inv_abc _, ?_, ?_, rfl, rfl⟩
  · refine ⟨⟨rfl, rfl, rfl, rfl, rfl, rfl, rfl, rfl, rfl, rfl⟩, ?_, ?_, ?_, ?_, ?_⟩
    · intro _ i h hi
      have hi : i < 3 := hi
      simp only [abc, bytes, Vector.getElem_ofFn]
      rcases i with _ | _ | _ | i
      · rfl
      · rfl
      · rfl
      · omega
    all_goals intro h; exact absurd h (by decide)
  · intro h
    exact absurd (congrArg (fun s => s.wr.a) h) (by decide)

/-- ControlIndependentOfData: the same two kinds of data under one control state. -/
theorem witness_control : ∃ s s' t : State, step s = .next t ∧ s ≠ s' ∧
    s' = { s with H := s'.H, wr := s'.wr, W := s'.W, BUF := s'.BUF, rdata := s'.rdata } :=
  ⟨{ full with inputs := [.txn 0x1200000061] }, { full with inputs := [.txn 0x1200000061], wr := row63 }, _, rfl,
    fun h => absurd (congrArg (fun s => s.wr.a) h) (by decide), rfl⟩

/-- BlockCompression: a full block to compress. -/
theorem witness_block : full.PHASE = Phase.LOAD ∧ full.T = 0 ∧ full.inputs = [] := ⟨rfl, rfl, rfl⟩

/-- Reads alone can always be run to their end. -/
theorem hostRun_reads (ks : List Nat) {s : State} (h : ¬s.unspecified) :
    ∃ t vs, HostRun s (ks.map fun k => .tx (.rdig (BitVec.ofNat 3 k))) t vs ∧ t.PHASE = s.PHASE ∧ t.T = s.T := by
  induction ks generalizing s with
  | nil => exact ⟨s, [], .done s, rfl, rfl⟩
  | cons k ks ih =>
    have hs : ∃ u, stepOn (.txn (assemble (.rdig (BitVec.ofNat 3 k)))) s = .next u ∧ ¬u.unspecified ∧ u.PHASE = s.PHASE ∧
        u.T = s.T := by
      rw [stepOn_txn _ h]
      have hd : decodeHT (assemble (.rdig (BitVec.ofNat 3 k))) = .rdig (BitVec.ofNat 3 k) 0 := by
        rcases Laws.bitVec3_cases (BitVec.ofNat 3 k) with h | h | h | h | h | h | h | h <;> rw [h] <;> decide
      rw [hd]
      exact ⟨_, rfl, h, rfl, rfl⟩
    obtain ⟨u, hu, hn, hp, hT⟩ := hs
    obtain ⟨t, vs, ht, hp', hT'⟩ := ih hn
    exact ⟨t, _, .cons (.tx hu) ht, hp'.trans hp, hT'.trans hT⟩

/-- The empty message, hashed from reset to the end. -/
theorem hostRun_empty : ∃ t vs, HostRun State.reset (hash []) t vs ∧ t.PHASE = Phase.DONE ∧ t.T = 0 := by
  have e1 : stepOn (.txn (assemble .init)) State.reset = .next opened := rfl
  have e2 : stepOn (.txn (assemble .final)) opened = .next (at' Phase.PAD 0) := rfl
  obtain ⟨p, hp, hl⟩ : ∃ p, step (at' Phase.PAD 0) = .next p ∧
      (p.PHASE = Phase.LOAD ∧ p.T = 0 ∧ p.inputs = [] ∧ p.LAST = true) := ⟨_, rfl, rfl, rfl, rfl, rfl⟩
  obtain ⟨d, hd, hph, hT, hi⟩ := block_run p hl.1 hl.2.1 hl.2.2.1
  have hph : d.PHASE = Phase.DONE := by rw [hph, State.afterFold, if_pos hl.2.2.2]
  have hsp : ¬d.unspecified := by simp [State.unspecified, hph, hT]
  have hr : stepOn (.txn (assemble .rstat)) d = .next ((d.begin []).setRdata (some (d.begin []).status)) := by
    rw [stepOn_txn _ hsp]; rfl
  obtain ⟨t, vs, ht, htp, htT⟩ := hostRun_reads (List.range 8) (s := (d.begin []).setRdata (some (d.begin []).status)) hsp
  have hb : (d.begin []).status.getLsbD 0 = false := by
    simp [State.status, State.busy, State.ready, State.done, hph, bitWord]
    decide
  have hw := hostRun_of_runCore 116 (s := at' Phase.PAD 0) rfl
    (by rw [show 116 = 1 + 115 from rfl, runCore_add 1 115 ((runCore_succ 0 hp).trans (runCore_zero p)), hd])
    (.cons (.idle hr rfl hb) ht)
  exact ⟨t, _, .cons (.tx e1) (.cons (.tx e2) hw), htp.trans hph, htT.trans hT⟩

/-- HashComputesSha256, HashCanBeRunToItsEnd. -/
theorem witness_hash : ([] : List Byte).length < 2 ^ 61 ∧ Inv State.reset ∧
    ∃ t vs, HostRun State.reset (hash []) t vs := by
  obtain ⟨t, vs, h, -, -⟩ := hostRun_empty
  exact ⟨by decide, inv_reset, t, vs, h⟩

/-- FairRunsReachRest: the core alone, from the FOLD of the last block on. -/
theorem witness_fair : ∃ (e : Nat → Event) (s : Nat → State), Run e s ∧ Fair e s ∧ (∀ n, ¬(e n).restarts) ∧
    (s 0).busy = true := by
  obtain ⟨d, hd, hp, hT⟩ : ∃ d, stepOn .core { (at' Phase.FOLD 0) with LAST := true } = .next d ∧ d.PHASE = Phase.DONE ∧
      d.T = 0 := ⟨_, rfl, rfl, rfl⟩
  refine ⟨fun _ => .core, fun n => n.casesOn { (at' Phase.FOLD 0) with LAST := true } fun k => k.casesOn d fun _ => d.begin [],
    fun n => ?_, fun n _ => ⟨n, le_rfl, .inl rfl⟩, fun _ h => ?_, rfl⟩
  · rcases n with _ | _ | n
    · exact hd
    · exact stepOn_core_done hp hT
    · exact stepOn_core_done (s := d.begin []) hp hT
  · rcases h with h | h <;> cases h

/-- FairHostProgramsEnd: a fair run of `HASH` of the empty message from reset. -/
theorem witness_fairHostRun : ∃ e s ops, FairHostRun e s ops ∧ s 0 = State.reset ∧ ops 0 = hash [] := by
  obtain ⟨t, vs, h, hp, hT⟩ := hostRun_empty
  exact fairHostRun_of_hostRun h hp hT

end Sys2Proof.Machine.Tests
end

section
/-! Whole blocks (O54): 115 core steps from LOAD compute the contract's compression, BUSY all the way. -/

namespace Sys2Proof.Machine

/-! ## BUSY along a run of the core -/

/-- The first step of a run that answers a next state. -/
theorem runCore_succ_inv {s t : State} {k : Nat} (h : runCore (k + 1) s = .next t) :
    ∃ u, step s = .next u ∧ runCore k u = .next t := by
  cases hs : step s with
  | next u => exact ⟨u, rfl, (runCore_succ k hs).symm.trans h⟩
  | fault r => exact absurd h (run_ne_next Sys2Proof.core s t k fun u e => by cases hs.symm.trans e)
  | refused r => exact absurd h (run_ne_next Sys2Proof.core s t k fun u e => by cases hs.symm.trans e)

/-- Core steps are left only while BUSY. -/
theorem busy_of_remaining_pos {s : State} (h : 0 < s.remaining) : s.busy = true := by
  cases hb : s.busy with
  | true => rfl
  | false => rw [remaining_of_not_busy hb] at h; omega

/-- With no event left, a step while BUSY takes one of the remaining core steps away. -/
theorem remaining_step_quiet {s t : State} (hi : s.inputs = []) (hb : s.busy = true) (h : step s = .next t) :
    t.remaining + 1 = s.remaining := by
  rw [step_nil hi] at h
  exact remaining_coreTurn (s := s.begin []) hb (inSpecified_next h).2

/-- A run of the core that is no longer than the core steps left is BUSY at every step before its end. -/
theorem busy_before_runCore_end {s t : State} {n : Nat} (hi : s.inputs = []) (hrun : runCore n s = .next t)
    (hn : n ≤ s.remaining) {k : Nat} (hk : k < n) : ∃ u, runCore k s = .next u ∧ u.busy = true := by
  induction n generalizing s k with
  | zero => omega
  | succ n ih =>
    obtain ⟨s', hs, hrun'⟩ := runCore_succ_inv hrun
    have hb : s.busy = true := busy_of_remaining_pos (by omega)
    have hrem := remaining_step_quiet hi hb hs
    cases k with
    | zero => exact ⟨s, runCore_zero s, hb⟩
    | succ k =>
      rw [runCore_succ k hs]
      exact ih (step_inputs_nil hi hs) hrun' (by omega) (by omega)

/-! ## Where FOLD leads: a matter of LAST and LENPEND alone -/

section
variable (s : State)

@[simp] theorem setWr_afterFold (v : Work) : (s.setWr v).afterFold = s.afterFold := rfl
@[simp] theorem setW_afterFold (v : Vector Word 64) : (s.setW v).afterFold = s.afterFold := rfl
@[simp] theorem setPHASE_afterFold (v : Phase) : (s.setPHASE v).afterFold = s.afterFold := rfl
@[simp] theorem setT_afterFold (v : BitVec 6) : (s.setT v).afterFold = s.afterFold := rfl
@[simp] theorem setRdata_afterFold (v : Option Word) : (s.setRdata v).afterFold = s.afterFold := rfl

/-- BUSY after FOLD: 1 exactly where PADLEN follows. -/
theorem busy_afterFold : s.afterFold.busy = (!s.LAST && s.LENPEND) := by
  unfold State.afterFold
  cases s.LAST <;> cases s.LENPEND <;> decide

end

/-! ## The result of a block -/

/-- 66 core steps from WINIT: the working registers after the 64 rounds over W are folded into H. They are held in a
variable `r` of their own, so that no proof about the other registers evaluates the rounds. -/
theorem winit_fold_run (s : State) (hp : s.PHASE = Phase.WINIT) (hT : s.T = 0) (hi : s.inputs = []) (ws : List Word)
    (hws : ∀ (i : Nat) (h : i < 64), s.W[i] = ws.getD i 0) {r : Work}
    (hr : r = Contract.rounds ws (Work.ofH s.H) 64) :
    runCore 66 s = .next ((((s.setRdata none).setWr r).setH (foldH s.H r)).setPHASE s.afterFold) := by
  have hwinit := winit_run s hp hT hi ws hws
  rw [← hr] at hwinit
  have hfold := fold_run ((((s.setRdata none).setWr r).setT 0).setPHASE Phase.FOLD) rfl rfl hi
  rw [show 66 = 65 + 1 from rfl, runCore_add 65 1 hwinit, hfold]
  congr 1
  apply State.eq_of_fields <;> simp [hT]

/-- 115 core steps from LOAD: H is the contract's compression of the block in BUF, PHASE is where FOLD leads, and of the
other registers only W, a..h and the read port may have changed. -/
theorem runCore_block (s : State) (hp : s.PHASE = Phase.LOAD) (hT : s.T = 0) (hi : s.inputs = []) :
    ∃ w r, runCore 115 s = .next (((((s.setRdata none).setW w).setWr r).setH
      (Contract.compress s.H s.BUF.toList)).setPHASE s.afterFold) := by
  obtain ⟨w, hload, hw⟩ := load_run s hp hT hi
  unfold Contract.compress
  obtain ⟨r, hr⟩ : ∃ r, r = Contract.rounds (Contract.schedule (Contract.blockWords s.BUF.toList) 48) (Work.ofH s.H) 64 :=
    ⟨_, rfl⟩
  rw [← hr]
  have hrest := winit_fold_run ((((s.setRdata none).setW w).setT 0).setPHASE Phase.WINIT) rfl rfl hi _ hw hr
  refine ⟨w, r, ?_⟩
  rw [show 115 = 49 + 66 from rfl, runCore_add 49 66 hload, hrest]
  congr 1
  apply State.eq_of_fields <;> simp [hT]

/-- Settles O54: `runCore_block` gives the state after the 115 steps, `busy_before_runCore_end` BUSY before, as from LOAD
at least 115 core steps are left. -/
theorem blockCompression : Obligations.BlockCompression := by
  intro s hp hT hi
  obtain ⟨w, r, hrun⟩ := runCore_block s hp hT hi
  refine ⟨⟨_, hrun, rfl, ?_, ?_⟩, fun k hk => busy_before_runCore_end hi hrun ?_ hk⟩
  · rw [State.setPHASE_busy, busy_afterFold]
  · rfl
  · rw [remaining_LOAD hp]
    omega

end Sys2Proof.Machine
end

section
/-! STATUS field by field (O22), each field read off `getLsbD_status`. -/

namespace Sys2Proof.Machine

section
variable (s : State)

/-! ## The flags as statements about PHASE (10_state.md R37) -/

theorem busy_iff_mem : s.busy = true ↔ s.PHASE ∈ [Phase.PAD, Phase.PADLEN, Phase.LOAD, Phase.EXPAND, Phase.WINIT,
    Phase.ROUND, Phase.FOLD] := by
  simp [State.busy, Phase.busy]

theorem done_iff : s.done = true ↔ s.PHASE = Phase.DONE := by simp [State.done]

theorem ready_iff : s.ready = true ↔ s.PHASE = Phase.OPEN := by simp [State.ready]

/-! ## The fields of more than one bit -/

/-- Bits 7:4. -/
theorem status_PHASE : s.status.extractLsb' 4 4 = s.PHASE := by
  apply BitVec.eq_of_getLsbD_eq
  intro i hi
  have hbelow : ∀ n, n < 4 → 4 + i ≠ n := fun n hn => by omega
  have habove : ∀ n, 8 ≤ n → 4 + i ≠ n := fun n hn => by omega
  rw [BitVec.getLsbD_extractLsb', getLsbD_status]
  simp [hi, hbelow, habove, show ¬16 ≤ 4 + i by omega, show 4 + i < 32 by omega]

/-- Bits 21:16, which PHASE's four bits from bit 4 on do not reach. -/
theorem status_CNT : s.status.extractLsb' 16 6 = s.CNT := by
  apply BitVec.eq_of_getLsbD_eq
  intro i hi
  have hbelow : ∀ n, n < 16 → 16 + i ≠ n := fun n hn => by omega
  have hphase : s.PHASE.getLsbD (16 + i - 4) = false := BitVec.getLsbD_of_ge _ _ (by omega)
  rw [BitVec.getLsbD_extractLsb', getLsbD_status]
  simp [hi, hbelow, hphase, show 16 + i < 32 by omega]

/-- The reserved bits above the error bits, 15:13 and 31:22. -/
theorem status_reserved {i : Nat} (h : (13 ≤ i ∧ i < 16) ∨ 22 ≤ i) : s.status.getLsbD i = false := by
  have hbelow : ∀ n, n ≤ 12 → i ≠ n := fun n hn => by omega
  have hphase : s.PHASE.getLsbD (i - 4) = false := BitVec.getLsbD_of_ge _ _ (by omega)
  have hcnt : 16 ≤ i → i < 32 → s.CNT.getLsbD (i - 16) = false := fun _ _ => BitVec.getLsbD_of_ge _ _ (by omega)
  rw [getLsbD_status]
  simpa [hphase, hbelow] using hcnt

/-- A field of reserved bits above the error bits is 0. -/
theorem status_extract_reserved (lo n : Nat) (h : (13 ≤ lo ∧ lo + n ≤ 16) ∨ 22 ≤ lo) :
    s.status.extractLsb' lo n = 0 := by
  apply BitVec.eq_of_getLsbD_eq
  intro i hi
  simp [BitVec.getLsbD_extractLsb', status_reserved s (i := lo + i) (by omega)]

end

/-- STATUS is a function of CNT, the error bits and PHASE. -/
theorem status_congr {s t : State} (hc : t.CNT = s.CNT) (he : t.err = s.err) (hp : t.PHASE = s.PHASE) :
    t.status = s.status := by
  unfold State.status State.busy State.ready State.done
  rw [hc, he, hp]

/-- Settles O22: the single bits from `getLsbD_status`, the wider fields from the lemmas above; after INIT, STATUS is that
of the reset state with PHASE = OPEN. -/
theorem statusRegister : Obligations.StatusRegister := by
  refine ⟨fun _ _ => rfl, fun s => ⟨?_, ?_, ?_, ?_, status_PHASE s, ?_, ?_, ?_, ?_, ?_, ?_, status_CNT s, ?_⟩,
    fun _ _ => rfl, by decide, fun s t h => ?_⟩
  · rw [← busy_iff_mem, getLsbD_status]
    simp
  · rw [← done_iff, getLsbD_status]
    simp
  · rw [← ready_iff, getLsbD_status]
    simp
  iterate 6
    · rw [getLsbD_status]
      simp
  · exact status_extract_reserved s 13 3 (by omega)
  · exact status_extract_reserved s 22 10 (by omega)
  · cases h
    exact (status_congr (s := State.reset.setPHASE Phase.OPEN) rfl rfl rfl).trans (by decide)

end Sys2Proof.Machine
end

section
/-! From PUTW to LOAD (O21): four bytes of a word at a multiple of 4 of BUF are parsed back into the word (20_memory.md
R55). -/

namespace Sys2Proof.Machine

/-- An appended byte stands in BUF at CNT plus its place in the list. -/
theorem getElem_bufAppend_CNT_add (s : State) {bs : List Byte} {k : Nat} (hk : k < bs.length)
    (h : s.CNT.toNat + k < 64) : (s.bufAppend bs)[s.CNT.toNat + k] = bs[k] := by
  rw [getElem_bufAppend, if_pos (by omega), Nat.add_sub_cancel_left, List.getD_eq_getElem bs 0 hk]

/-- If the bytes of `w` stand in BUF from `c` on, a multiple of 4, parsing puts `w` at `c / 4`. -/
theorem parsedW_of_bytes32 {s : State} {w : Word} {c : Nat} (hc : c % 4 = 0) (hlt : c < 64)
    (hw : ∀ (k : Nat) (hk : k < 4), s.BUF[c + k] = (bytes32 w)[k]) : s.parsedW[c / 4] = w := by
  obtain ⟨j, rfl⟩ : ∃ j, c = 4 * j := ⟨c / 4, by omega⟩
  simp only [Nat.mul_div_cancel_left j (show 0 < 4 by decide)]
  rw [getElem_parsedW_low _ _ _ (by omega), ← be32_bytes w]
  congr 1
  · exact hw 0 (by decide)
  · exact hw 1 (by decide)
  · exact hw 2 (by decide)
  · exact hw 3 (by decide)

/-- Settles O21: `execPutw_accepted` puts the four bytes into BUF from CNT on, and they are still there at LOAD, where
`parsedW_of_bytes32` assembles them. -/
theorem putwWordReachesSchedule : Obligations.PutwWordReachesSchedule := by
  intro w s t u hopen haligned hlen hputw hkept
  rw [exec_putw, execPutw_accepted w hopen haligned hlen] at hputw
  cases hputw
  refine ⟨_, execLoad_next u, parsedW_of_bytes32 haligned (by omega) fun k hk => ?_⟩
  rw [hkept _ (by omega) (by omega) (by omega)]
  simp only [appendBytes_BUF]
  exact getElem_bufAppend_CNT_add s hk (by omega)

end Sys2Proof.Machine
end

section
/-! Bus accesses by address (O12, O13): which access presents which transaction, and which one is stuck (20_memory.md R51,
R56). -/

namespace Sys2Proof.Machine

section
variable {a : BusAccess}

theorem BusAccess.inWindow_iff : a.inWindow = true ↔ Config.BASE ≤ a.addr ∧ a.addr < Config.BASE + 64 := by
  simp [BusAccess.inWindow]

theorem BusAccess.admitted_iff : a.admitted = true ↔ a.width = .word ∧ a.addr % 4 = 0 := by
  simp [BusAccess.admitted]

variable (s : State)

/-- The core performs the transaction an admitted access in its window presents. -/
theorem busTurn_of_admitted (hwin : a.inWindow = true) (hadm : a.admitted = true) : busTurn a s = hostTurn a.toHT s := by
  simp [busTurn, hwin, hadm]

/-- An access in the window that the core does not admit is stuck. -/
theorem busTurn_of_not_admitted (hwin : a.inWindow = true) (hadm : a.admitted = false) :
    busTurn a s = .fault .busAccessNotAdmitted := by
  simp [busTurn, hwin, hadm]

end

/-- Outside the states R87 lists, a step answers what its event does. -/
theorem inSpecified_of_specified {s : State} (h : ¬s.unspecified) (r : Result) : inSpecified s r = r :=
  if_pos ((seqSpecified_iff s).2 h)

theorem BASE_mod_64 : Config.BASE % 64 = 0 := by simp [Config.BASE]

/-- Address bits 5:2 of `BASE + 4 × off` are `off`, as BASE is a multiple of 64. -/
theorem ofNat_registerAddr (off : BitVec 4) : BitVec.ofNat 4 ((Config.BASE + 4 * off.toNat) / 4) = off := by
  have hbase := BASE_mod_64
  apply BitVec.eq_of_toNat_eq
  rw [BitVec.toNat_ofNat]
  omega

/-- A 32-bit access at `BASE + 4 × off` is the transaction on register `off`. -/
theorem busTurn_registerAddr (write : Bool) (off : BitVec 4) (data : Word) (s : State) :
    busTurn ⟨write, Config.BASE + 4 * off.toNat, .word, data⟩ s =
      hostTurn (htWord (if write then 1 else 0) off data) s := by
  have hbase := BASE_mod_64
  rw [busTurn_of_admitted s (BusAccess.inWindow_iff.2 ⟨Nat.le_add_right _ _, by dsimp only; omega⟩)
    (BusAccess.admitted_iff.2 ⟨rfl, by dsimp only; omega⟩), BusAccess.toHT, ofNat_registerAddr]

/-- Settles O12: either event acts in the same state, and `busTurn_registerAddr` says that they do the same there. -/
theorem windowAddressing : Obligations.WindowAddressing := by
  refine ⟨BASE_mod_64, fun s off write data rest => ?_⟩
  rw [step_access rfl, step_txn rfl, busTurn_registerAddr]
  rfl

/-- Settles O13: the access is in the window and not admitted. -/
theorem subWordAndMisalignedAccessesStuck : Obligations.SubWordAndMisalignedAccessesStuck := by
  intro s a rest hspec hinputs hlow hhigh hbad
  have hadm : a.admitted = false := by
    rw [Bool.eq_false_iff, Ne, BusAccess.admitted_iff]
    rintro ⟨hword, haligned⟩
    exact hbad.elim (· hword) (· haligned)
  rw [step_access hinputs, inSpecified_of_specified hspec,
    busTurn_of_not_admitted _ (BusAccess.inWindow_iff.2 ⟨hlow, hhigh⟩) hadm]

end Sys2Proof.Machine
end

section
/-! The two decode tables (O3, O4): each row is decoding undone by the encoder, at that row's instruction (30_encoding.md
R84, R85). -/

namespace Sys2Proof.Laws

/-! ## From the instruction to its word and back -/

theorem wf_illcmd_iff (v : Word) : (Instr.illcmd v).wf = true ↔ v ≠ 0 ∧ v ≠ 1 ∧ v ≠ 2 := by
  simp only [Instr.wf, Bool.and_eq_true, bne_iff_ne, and_assoc]

theorem wf_expand_iff (t : BitVec 6) : (Instr.expand t).wf = true ↔ 16 ≤ t.toNat := decide_eq_true_iff

theorem decodeCTRL_illcmd {v : Word} (h0 : v ≠ 0) (h1 : v ≠ 1) (h2 : v ≠ 2) : decodeCTRL v = .illcmd v := by
  rw [decodeCTRL, if_neg h0, if_neg h1, if_neg h2]

/-- The HT word of a well-formed instruction decodes to it. -/
theorem decodeHT_of_encode {i : Instr} {w : HTWord} (hwf : i.wf = true) (h : encode i = .ht w) : decodeHT w = i := by
  cases i with
  | pad | padlen | load | expand | winit | round | fold => cases h
  | illcmd v =>
    obtain ⟨h0, h1, h2⟩ := (wf_illcmd_iff v).1 hwf
    cases h
    rw [decodeHT_htWord]
    exact decodeCTRL_illcmd h0 h1 h2
  | putb x b =>
    cases h
    rw [decodeHT_htWord]
    exact decodeWrite_putb x b
  | wignLenRsv | wignDigest | rddata | rrsv | rdig =>
    cases h
    simp
  | nop | init | final | wignStatus | putw | rdctrl | rstat | rlenlo | rlenhi =>
    cases h
    rw [decodeHT_htWord]
    rfl

/-- The sequencer word of a well-formed instruction decodes to it. -/
theorem decodeSEQ_of_encode {i : Instr} {q : SeqWord} (hwf : i.wf = true) (h : encode i = .seq q) :
    decodeSEQ q = .ok i := by
  cases i with
  | expand t =>
    cases h
    rw [decodeSEQ_seqWord]
    exact if_pos ((wf_expand_iff t).1 hwf)
  | pad | padlen | load | winit | round | fold =>
    cases h
    rw [decodeSEQ_seqWord]
    rfl
  | _ => cases h

/-! ## From the word to its instruction and back -/

/-- A CTRL write is an instruction of its row for each of the four kinds of value. -/
theorem encode_decodeCTRL (data : Word) :
    (decodeCTRL data).wf = true ∧ encode (decodeCTRL data) = .ht (htWord 1 0 data) := by
  unfold decodeCTRL
  split_ifs with h0 h1 h2
  · exact ⟨rfl, by rw [h0]; rfl⟩
  · exact ⟨rfl, by rw [h1]; rfl⟩
  · exact ⟨rfl, by rw [h2]; rfl⟩
  · exact ⟨(wf_illcmd_iff data).2 ⟨h0, h1, h2⟩, rfl⟩

/-- A write decodes to a well-formed instruction with the write's word. -/
theorem encode_decodeWrite (off : BitVec 4) (data : Word) :
    (decodeWrite off data).wf = true ∧ encode (decodeWrite off data) = .ht (htWord 1 off data) := by
  rcases writeOffset_cases off with rfl | rfl | rfl | rfl | ⟨o, rfl⟩ | ⟨k, rfl⟩
  · exact encode_decodeCTRL data
  · exact ⟨rfl, rfl⟩
  · exact ⟨rfl, congrArg (fun d => Encoded.ht (htWord 1 0b0010 d)) (append_extract (n := 24) (m := 8) data)⟩
  · exact ⟨rfl, rfl⟩
  · rw [decodeWrite_lenRsv]
    exact ⟨rfl, rfl⟩
  · rw [decodeWrite_digest]
    exact ⟨rfl, rfl⟩

/-- A read decodes to a well-formed instruction with the read's word. -/
theorem encode_decodeRead (off : BitVec 4) (data : Word) :
    (decodeRead off data).wf = true ∧ encode (decodeRead off data) = .ht (htWord 0 off data) := by
  rcases readOffset_cases off with rfl | rfl | ⟨o, rfl⟩ | rfl | rfl | ⟨o, rfl⟩ | ⟨k, rfl⟩
  · exact ⟨rfl, rfl⟩
  · exact ⟨rfl, rfl⟩
  · rw [decodeRead_data]
    exact ⟨rfl, rfl⟩
  · exact ⟨rfl, rfl⟩
  · exact ⟨rfl, rfl⟩
  · rw [decodeRead_rsv]
    exact ⟨rfl, rfl⟩
  · rw [decodeRead_digest]
    exact ⟨rfl, rfl⟩

/-- An HT word decodes to a well-formed instruction, whose word it is. -/
theorem encode_decodeHT (w : HTWord) : (decodeHT w).wf = true ∧ encode (decodeHT w) = .ht w := by
  obtain ⟨r, off, data, rfl⟩ : ∃ r off data, w = htWord r off data := ⟨_, _, _, (htWord_fields w).symm⟩
  rw [decodeHT_htWord]
  rcases bitVec1_cases r with rfl | rfl
  · exact encode_decodeRead off data
  · exact encode_decodeWrite off data

/-- One well-formed instruction has a given HT word: the one decoded. -/
theorem wf_and_encode_iff (w : HTWord) (i : Instr) : i.wf = true ∧ encode i = .ht w ↔ i = decodeHT w := by
  constructor
  · rintro ⟨hwf, hword⟩
    exact (decodeHT_of_encode hwf hword).symm
  · rintro rfl
    exact encode_decodeHT w

/-! ## The tables -/

/-- Settles O3: `decodeHT_of_encode` at the instruction of each row, and `wf_and_encode_iff` for the last clause. -/
theorem htDecodeTable : Obligations.HtDecodeTable := by
  refine ⟨?_, ?_, ?_, fun v h0 h1 h2 => decodeHT_of_encode ((wf_illcmd_iff v).2 ⟨h0, h1, h2⟩) rfl,
    fun x => ?_, fun x b => ?_, fun w => ?_, fun o x => ?_, fun k x => ?_, fun x => ?_, fun x => ?_, fun o x => ?_,
    fun x => ?_, fun x => ?_, fun o x => ?_, fun k x => ?_, fun w => ⟨decodeHT_isHost w, wf_and_encode_iff w⟩⟩
  all_goals exact decodeHT_of_encode rfl rfl

/-- Settles O4: `decodeSEQ_of_encode` at the micro-operation of each row; the three phases without one are words of their
own. -/
theorem seqDecodeTable : Obligations.SeqDecodeTable := by
  refine ⟨?_, decodeSEQ_of_encode rfl rfl, decodeSEQ_of_encode rfl rfl, decodeSEQ_of_encode rfl rfl,
    fun t ht => decodeSEQ_of_encode ((wf_expand_iff t).2 ht) rfl, decodeSEQ_of_encode rfl rfl,
    fun t => decodeSEQ_of_encode rfl rfl, decodeSEQ_of_encode rfl rfl⟩
  rintro p (rfl | rfl | rfl)
  · rfl
  · rfl
  · rfl

end Sys2Proof.Laws
end

section
/-! The sequencer states R87 lists (O5): no step leads into one, and a step from one is refused unless it is a reset
(30_encoding.md R87). -/

namespace Sys2Proof.Machine

/-! ## The sequencer states that have a meaning -/

/-- The states R87 does not list, as bounds on PHASE and T (10_state.md R44.1, R44.3). -/
theorem specified_iff (s : State) : ¬s.unspecified ↔ s.PHASE.toNat ≤ 9 ∧ (s.PHASE = Phase.EXPAND → 16 ≤ s.T.toNat) ∧
    (s.PHASE ≠ Phase.EXPAND → s.PHASE ≠ Phase.ROUND → s.T = 0) := by
  have h6 : s.PHASE = Phase.EXPAND ↔ s.PHASE.toNat = 6 := BitVec.toNat_inj.symm
  have h8 : s.PHASE = Phase.ROUND ↔ s.PHASE.toNat = 8 := BitVec.toNat_inj.symm
  simp only [State.unspecified, ne_eq, h6, h8]
  by_cases hT : s.T = 0
  · simp only [hT, not_true_eq_false, and_false, false_or, implies_true, and_true]
    omega
  · simp only [hT, not_false_eq_true, and_true, imp_false]
    omega

/-- With T = 0 every phase but EXPAND and the six reserved codes has a meaning. -/
theorem specified_of_T_zero {s : State} {p : Phase} (hs : s.PHASE = p) (hp : p.toNat ≤ 9 ∧ p ≠ Phase.EXPAND)
    (hT : s.T = 0) : ¬s.unspecified := by
  subst hs
  exact (specified_iff s).2 ⟨hp.1, fun h => absurd h hp.2, fun _ _ => hT⟩

theorem T_zero_of_open {s : State} (h : ¬s.unspecified) (hp : s.PHASE = Phase.OPEN) : s.T = 0 :=
  ((specified_iff s).1 h).2.2 (by rw [hp]; decide) (by rw [hp]; decide)

/-- FOLD leads to DONE, PADLEN or OPEN. -/
theorem afterFold_cases (s : State) : s.afterFold = Phase.DONE ∨ s.afterFold = Phase.PADLEN ∨ s.afterFold = Phase.OPEN := by
  unfold State.afterFold
  split_ifs
  · exact .inl rfl
  · exact .inr (.inl rfl)
  · exact .inr (.inr rfl)

/-! ## No step leads into the others -/

/-- After T moved on from `t`, PHASE stays the same or, past the last index, is `p` with T = 0. -/
theorem nextIndex_specified {s : State} {t : BitVec 6} {p : Phase} (hs : s.PHASE = Phase.ROUND ∨ s.PHASE = Phase.EXPAND ∧
    16 ≤ t.toNat) (hp : p.toNat ≤ 9 ∧ p ≠ Phase.EXPAND) : ¬(s.nextIndex t p).unspecified := by
  by_cases ht : t = 63
  · exact specified_of_T_zero (by rw [nextIndex_PHASE, if_pos ht]) hp (by rw [nextIndex_T, if_pos ht])
  · have hT := (toNat_index_succ ht).1
    rw [specified_iff, nextIndex_PHASE, nextIndex_T, if_neg ht, if_neg ht]
    rcases hs with h | ⟨h, h16⟩
    · rw [h]
      exact ⟨by decide, fun he => absurd he (by decide), fun _ hr => absurd rfl hr⟩
    · rw [h]
      exact ⟨by decide, fun _ => by omega, fun he => absurd rfl he⟩

/-- The core's turn. -/
theorem coreTurn_specified {s t : State} (h : coreTurn s = .next t) : ¬t.unspecified := by
  rcases coreTurn_cases h with ⟨rfl, hT, hp⟩ | ⟨_, hT, h⟩ | ⟨_, hT, h⟩ | ⟨_, _, h⟩ | ⟨hp, hT, h⟩ | ⟨_, _, h⟩ | ⟨hp, h⟩ |
    ⟨_, hT, h⟩
  · rcases hp with hp | hp | hp <;> exact specified_of_T_zero hp (by decide) hT
  · rcases execPad_cases h with ⟨_, v, _, rfl⟩ | ⟨_, v, _, rfl⟩ <;>
      exact specified_of_T_zero (p := Phase.LOAD) rfl (by decide) hT
  · obtain ⟨v, _, rfl⟩ := execPadlen_cases h
    exact specified_of_T_zero (p := Phase.LOAD) rfl (by decide) hT
  · obtain ⟨v, _, rfl⟩ := execLoad_cases h
    simp [specified_iff]
  · obtain ⟨_, v, _, rfl⟩ := execExpand_cases h
    exact nextIndex_specified (.inr ⟨hp, hT⟩) (by decide)
  · obtain ⟨v, _, rfl⟩ := execWinit_cases h
    simp [specified_iff]
  · obtain ⟨v, _, rfl⟩ := execRound_cases h
    exact nextIndex_specified (.inl hp) (by decide)
  · obtain ⟨v, _, rfl⟩ := execFold_cases h
    rcases afterFold_cases s with hp | hp | hp <;> exact specified_of_T_zero hp (by decide) hT

/-- Appended bytes: only a message that is open takes them, and T = 0 there and in LOAD. -/
theorem appendBytes_specified {s : State} (hs : ¬s.unspecified) (hp : s.PHASE = Phase.OPEN) (bs : List Byte) :
    ¬(appendBytes bs s).unspecified := by
  have hT : (appendBytes bs s).T = 0 := (appendBytes_T bs s).trans (T_zero_of_open hs hp)
  have hPHASE : (appendBytes bs s).PHASE = Phase.LOAD ∨ (appendBytes bs s).PHASE = Phase.OPEN := by
    rw [appendBytes_PHASE, hp]
    exact ite_eq_or_eq _ _ _
  rcases hPHASE with h | h <;> exact specified_of_T_zero h (by decide) hT

/-- A host transaction. -/
theorem exec_host_specified {i : Instr} {s t : State} (hs : ¬s.unspecified) (hi : i.isHost = true)
    (h : exec i s = .next t) : ¬t.unspecified := by
  rcases exec_host_cases hi h with rfl | ⟨v, rfl⟩ | ⟨e, rfl⟩ | ⟨_, h⟩ | ⟨_, hp, rfl⟩ | ⟨bs, hp, _, rfl, _⟩
  · exact hs
  · exact hs
  · exact hs
  · cases h
    exact specified_of_T_zero (p := Phase.OPEN) rfl (by decide) rfl
  · exact specified_of_T_zero (p := Phase.PAD) rfl (by decide) (T_zero_of_open (s := s) hs hp)
  · exact appendBytes_specified hs hp bs

/-- From whatever state, a step that answers a next state answers one R87 does not list. -/
theorem step_specified {s t : State} (h : step s = .next t) : ¬t.unspecified := by
  rcases step_cases h with ⟨p, _, rfl⟩ | ⟨_, _, h⟩ | ⟨w, _, hs, h⟩
  · exact specified_of_T_zero (p := Phase.IDLE) rfl (by decide) rfl
  · exact coreTurn_specified h
  · exact exec_host_specified (s := s.begin s.inputs.tail) ((seqSpecified_iff s).1 hs) (Laws.decodeHT_isHost w) h

theorem reachable_specified {s : State} (h : Reachable s) : ¬s.unspecified := by
  cases h with
  | reset inputs => exact specified_of_T_zero (p := Phase.IDLE) rfl (by decide) rfl
  | next _ hstep => exact step_specified hstep

/-! ## A step from the others is refused -/

theorem inSpecified_of_unspecified {s : State} (h : s.unspecified) (r : Result) :
    inSpecified s r = .refused .unspecifiedSequencerState :=
  if_neg fun hs => (seqSpecified_iff s).1 hs h

/-- Whatever the event, if it is no reset. -/
theorem step_of_unspecified {s : State} (h : s.unspecified) (hr : s.resetNext = false) :
    step s = .refused .unspecifiedSequencerState := by
  cases hi : s.inputs with
  | nil => rw [step_nil hi, inSpecified_of_unspecified h]
  | cons e rest =>
    cases e with
    | core => rw [step_core hi, inSpecified_of_unspecified h]
    | txn w => rw [step_txn hi, inSpecified_of_unspecified h]
    | access a => rw [step_access hi, inSpecified_of_unspecified h]
    | reset p => simp [State.resetNext, Event.isReset, hi] at hr

/-- Settles O5: every state a run reaches is the reset state or what a step answers, and both have a sequencer state R87
does not list. -/
theorem unspecifiedSequencerStatesRefused : Obligations.UnspecifiedSequencerStatesRefused :=
  ⟨fun _ => reachable_specified, fun _ => step_of_unspecified⟩

end Sys2Proof.Machine
end

section
/-! The primitives of the datapath, bit by bit (O38, O39), and its sums as sums of naturals (O40). -/

namespace Sys2Proof.Machine

/-! ## Choice and majority -/

/-- Ch is a multiplexer in every bit below 32; above, `~x` has no ones to choose by. -/
theorem getLsbD_ch (x y z : Word) {i : Nat} (hi : i < 32) :
    (ch x y z).getLsbD i = if x.getLsbD i then y.getLsbD i else z.getLsbD i := by
  simp only [ch, BitVec.getLsbD_xor, BitVec.getLsbD_and, BitVec.getLsbD_not, hi, decide_true, Bool.true_and]
  cases x.getLsbD i <;> simp

theorem getLsbD_maj (x y z : Word) (i : Nat) :
    (maj x y z).getLsbD i =
      ((x.getLsbD i && y.getLsbD i) ^^ (x.getLsbD i && z.getLsbD i) ^^ (y.getLsbD i && z.getLsbD i)) := by
  simp [maj]

/-- The exclusive or of the three pairwise conjunctions is the majority, as one or all three of them are 1 when two bits
are. -/
theorem xor_and_pairs_iff (a b c : Bool) :
    ((a && b) ^^ (a && c) ^^ (b && c)) = true ↔ 2 ≤ a.toNat + b.toNat + c.toNat := by
  revert a b c
  decide

/-- Settles O38: `getLsbD_ch`, once with x's bit 1 and once with it 0. -/
theorem chooseBits : Obligations.ChooseBits := by
  intro x y z i hi
  rw [getLsbD_ch x y z hi]
  exact ⟨fun hx => if_pos hx, fun hx => if_neg (Bool.eq_false_iff.1 hx)⟩

/-- Settles O39: bit i of Maj depends on the three bits i alone, and `xor_and_pairs_iff` counts them. -/
theorem majorityBits : Obligations.MajorityBits := by
  intro x y z i _
  rw [getLsbD_maj]
  exact xor_and_pairs_iff _ _ _

/-! ## Sums of words -/

/-- One more operand in a sum of words: the reduction modulo 2^32 may wait until after it. -/
theorem toNat_add_of_mod {x : Word} {n : Nat} (hx : x.toNat = n % 2 ^ 32) (y : Word) :
    (x + y).toNat = (n + y.toNat) % 2 ^ 32 := by
  rw [BitVec.toNat_add, hx, Nat.mod_add_mod]

theorem toNat_add_three (x y z : Word) : (x + y + z).toNat = (x.toNat + y.toNat + z.toNat) % 2 ^ 32 :=
  toNat_add_of_mod (BitVec.toNat_add x y) z

theorem toNat_add_four (x y z u : Word) :
    (x + y + z + u).toNat = (x.toNat + y.toNat + z.toNat + u.toNat) % 2 ^ 32 :=
  toNat_add_of_mod (toNat_add_three x y z) u

theorem toNat_add_five (x y z u v : Word) :
    (x + y + z + u + v).toNat = (x.toNat + y.toNat + z.toNat + u.toNat + v.toNat) % 2 ^ 32 :=
  toNat_add_of_mod (toNat_add_four x y z u) v

/-- R203 by index: word k of the fold adds the k-th working register. -/
theorem getElem_foldH (h : Vector Word 8) (r : Work) (k : Nat) (hk : k < 8) :
    (foldH h r)[k] = h[k] + [r.a, r.b, r.c, r.d, r.e, r.f, r.g, r.h].getD k 0 := by
  interval_cases k <;> rfl

/-- Settles O40: each sum is its number of words added from the left, the fold's by `getElem_foldH`. -/
theorem sumsModulo32 : Obligations.SumsModulo32 := by
  refine ⟨BitVec.toNat_add, fun r => ?_, fun r k w => ?_, fun w2 w7 w15 w16 => ?_, fun h r k hk => ?_⟩
  · exact BitVec.toNat_add (bigSigma0 r.a) (maj r.a r.b r.c)
  · exact toNat_add_five r.h (bigSigma1 r.e) (ch r.e r.f r.g) k w
  · exact toNat_add_four (smallSigma1 w2) w7 (smallSigma0 w15) w16
  · rw [getElem_foldH, BitVec.toNat_add]

end Sys2Proof.Machine
end

section
/-! The checks FINAL, PUTB and PUTW make before anything else (60_exceptions.md R236), and the flags of a known phase
(10_state.md R37). -/

namespace Sys2Proof.Machine

section
variable {s : State}

/-! ## The two checks of a write that needs an open message -/

/-- `r` in OPEN; elsewhere the refusal, ERR_BUSY before ERR_SEQ. -/
def inOpen (s : State) (r : Result) : Result :=
  if s.busy then raise .busy s else if s.PHASE ≠ Phase.OPEN then raise .seq s else r

theorem inOpen_of_busy (h : s.busy = true) (r : Result) : inOpen s r = raise .busy s := if_pos h

theorem inOpen_of_not_open (hb : s.busy = false) (hp : s.PHASE ≠ Phase.OPEN) (r : Result) :
    inOpen s r = raise .seq s :=
  (if_neg (Bool.eq_false_iff.1 hb)).trans (if_pos hp)

theorem inOpen_of_open (hp : s.PHASE = Phase.OPEN) (r : Result) : inOpen s r = r :=
  (if_neg (Bool.eq_false_iff.1 (Phase.not_busy_of_open hp))).trans (if_neg (not_not_intro hp))

theorem exec_final_eq_inOpen : exec .final s = inOpen s (.next (s.setPHASE Phase.PAD)) := rfl

theorem exec_putb_eq_inOpen (x : BitVec 24) (b : Byte) : exec (.putb x b) s =
    inOpen s (if s.LEN.toNat + 8 > LEN_MAX then raise .len s else .next (appendBytes [b] s)) := rfl

theorem exec_putw_eq_inOpen (w : Word) : exec (.putw w) s =
    inOpen s (if s.CNT.toNat % 4 ≠ 0 then raise .align s
      else if s.LEN.toNat + 32 > LEN_MAX then raise .len s else .next (appendBytes (bytes32 w) s)) := rfl

/-! ## Flags -/

variable {p : Phase}

theorem busy_of_PHASE (h : s.PHASE = p) : s.busy = p.busy := congrArg Phase.busy h

theorem done_of_PHASE (h : s.PHASE = p) : s.done = decide (p = Phase.DONE) := by rw [State.done, h]

theorem ready_of_PHASE (h : s.PHASE = p) : s.ready = decide (p = Phase.OPEN) := by rw [State.ready, h]

end

end Sys2Proof.Machine
end

section
/-! Message input (O18, O19): the refusals of PUTB and PUTW, and what `appendBytes` writes where they are accepted
(41_host_commands.md R140, R141). -/

namespace Sys2Proof.Machine

section
variable (s : State) {bs : List Byte}

/-! ## The registers appended bytes change -/

/-- BUF, LEN, CNT and PHASE alone. -/
theorem appendBytes_frame (bs : List Byte) : appendBytes bs s =
    { s with BUF := (appendBytes bs s).BUF, LEN := (appendBytes bs s).LEN, CNT := (appendBytes bs s).CNT,
             PHASE := (appendBytes bs s).PHASE } := by
  apply State.eq_of_fields <;> simp

/-- Byte `k` of the list comes to stand `k` places behind CNT. -/
theorem getElem_appendBytes_of_eq_CNT_add {i k : Nat} (hi : i < 64) (hk : k < bs.length)
    (h : i = s.CNT.toNat + k) : (appendBytes bs s).BUF[i] = bs[k] := by
  subst h
  simp only [appendBytes_BUF]
  exact getElem_bufAppend_CNT_add s hk hi

/-- The bytes of BUF before and behind the appended ones stay. -/
theorem getElem_appendBytes_outside {i : Nat} (hi : i < 64)
    (h : i < s.CNT.toNat ∨ s.CNT.toNat + bs.length ≤ i) : (appendBytes bs s).BUF[i] = s.BUF[i] := by
  simp only [appendBytes_BUF]
  rw [getElem_bufAppend, if_neg (by omega)]

variable {s}

/-- CNT and PHASE by the one value of CNT, `last`, at which the bytes complete the block. -/
theorem appendBytes_CNT_PHASE (hp : s.PHASE = Phase.OPEN) (hfit : s.CNT.toNat + bs.length ≤ 64) {last : BitVec 6}
    (hlast : last.toNat + bs.length = 64) :
    (s.CNT = last → (appendBytes bs s).CNT = 0 ∧ (appendBytes bs s).PHASE = Phase.LOAD ∧
      (appendBytes bs s).busy = true ∧ (appendBytes bs s).ready = false) ∧
    (s.CNT ≠ last → (appendBytes bs s).CNT.toNat = s.CNT.toNat + bs.length ∧
      (appendBytes bs s).PHASE = Phase.OPEN) := by
  constructor
  · rintro rfl
    obtain ⟨hcnt, hphase⟩ := appendBytes_full bs s hlast
    exact ⟨hcnt, hphase, busy_of_PHASE hphase, ready_of_PHASE hphase⟩
  · intro hne
    have hne' : s.CNT.toNat ≠ last.toNat := fun e => hne (BitVec.eq_of_toNat_eq e)
    obtain ⟨hcnt, hphase⟩ := appendBytes_partial bs s (by omega)
    exact ⟨hcnt, hphase.trans hp⟩

/-- The length limit leaves room in LEN for the bytes it admits: no wrap. -/
theorem appendBytes_LEN_of_le_LEN_MAX (h : s.LEN.toNat + 8 * bs.length ≤ LEN_MAX) :
    (appendBytes bs s).LEN.toNat = s.LEN.toNat + 8 * bs.length :=
  appendBytes_LEN_toNat bs s (h.trans_lt (by decide))

end

/-! ## PUTB and PUTW -/

/-- Settles O18: the refusals are `inOpen`'s and the length check's; the accepting branch is one appended byte, which
completes the block at CNT = 63. -/
theorem putbEffect : Obligations.PutbEffect := by
  intro x b s
  rw [exec_putb_eq_inOpen]
  refine ⟨fun hb => inOpen_of_busy hb _, fun hb hp => inOpen_of_not_open hb hp _,
    fun hp hlen => (inOpen_of_open hp _).trans (if_pos hlen), fun hp hlen => ?_⟩
  obtain ⟨hfull, hpartial⟩ := appendBytes_CNT_PHASE (bs := [b]) hp (Nat.succ_le_of_lt s.CNT.isLt) (last := 63) rfl
  exact ⟨_, execPutb_accepted x b hp hlen, appendBytes_frame s [b],
    getElem_appendBytes_of_eq_CNT_add s (bs := [b]) (k := 0) s.CNT.isLt Nat.one_pos rfl,
    fun i hi hne => getElem_appendBytes_outside s (bs := [b]) hi (Nat.lt_or_gt_of_ne hne),
    appendBytes_LEN_of_le_LEN_MAX hlen, hfull, hpartial⟩

/-- Settles O19: the refusals are `inOpen`'s and the two checks behind it; the accepting branch is four appended bytes,
which complete the block at CNT = 60, the last multiple of 4. `putwWordReachesSchedule` gives the word after LOAD. -/
theorem putwEffect : Obligations.PutwEffect := by
  intro w s
  rw [exec_putw_eq_inOpen]
  refine ⟨fun hb => inOpen_of_busy hb _, fun hb hp => inOpen_of_not_open hb hp _,
    fun hp hc => (inOpen_of_open hp _).trans (if_pos hc),
    fun hp hc hlen => (inOpen_of_open hp _).trans ((if_neg (not_not_intro hc)).trans (if_pos hlen)),
    fun hp hc hlen => ?_⟩
  have hnext : exec (.putw w) s = .next (appendBytes (bytes32 w) s) := execPutw_accepted w hp hc hlen
  have hfit : s.CNT.toNat + (bytes32 w).length ≤ 64 := by
    rw [length_bytes32]
    omega
  obtain ⟨hfull, hpartial⟩ := appendBytes_CNT_PHASE hp hfit (last := 60) rfl
  have hbyte {i k : Nat} (hi : i < 64) (hk : k < 4) (h : i = s.CNT.toNat + k) :
      (appendBytes (bytes32 w) s).BUF[i] = (bytes32 w)[k] := getElem_appendBytes_of_eq_CNT_add s hi hk h
  exact ⟨_, hnext, appendBytes_frame s (bytes32 w),
    fun i hi => ⟨hbyte (k := 0) hi (by decide), hbyte hi (by decide), hbyte hi (by decide), hbyte hi (by decide),
      getElem_appendBytes_outside s (bs := bytes32 w) hi⟩,
    appendBytes_LEN_of_le_LEN_MAX hlen, hfull, hpartial,
    fun u hu => putwWordReachesSchedule w s _ u hp hc hlen hnext fun i hi _ _ => by simp only [hu]⟩

end Sys2Proof.Machine
end

section
/-! Writes to CTRL (O14 to O17; 41_host_commands.md R132 to R135). -/

namespace Sys2Proof.Machine

/-- Settles O14: NOP's meaning is the state it is given. -/
theorem nopHasNoEffect : Obligations.NopHasNoEffect := exec_nop

/-- Settles O15: the registers are those INIT writes, the flags those of OPEN; STATUS after INIT is the last clause of
O22. -/
theorem initEffect : Obligations.InitEffect := by
  intro s
  obtain ⟨-, -, -, -, hstatus⟩ := statusRegister
  exact ⟨_, rfl, rfl, rfl, busy_of_PHASE rfl, done_of_PHASE rfl, ready_of_PHASE rfl, hstatus s _ rfl⟩

/-- Settles O16: the three branches of `inOpen`, with the flags of PAD after the last. -/
theorem finalEffect : Obligations.FinalEffect := by
  intro s
  rw [exec_final_eq_inOpen]
  exact ⟨fun hb => inOpen_of_busy hb _, fun hb hp => inOpen_of_not_open hb hp _, fun hp =>
    ⟨_, inOpen_of_open hp _, rfl, busy_of_PHASE hp, busy_of_PHASE (p := Phase.PAD) rfl,
      ready_of_PHASE (p := Phase.PAD) rfl⟩⟩

/-- Settles O17: the value is none of the three named ones, so the word is that of a well-formed ILLCMD, whose
meaning is `raise`. -/
theorem illcmdEffect : Obligations.IllcmdEffect := fun v s h0 h1 h2 =>
  ⟨Laws.decodeHT_of_encode ((Laws.wf_illcmd_iff v).2 ⟨h0, h1, h2⟩) rfl, exec_illcmd s v⟩

end Sys2Proof.Machine
end

section
/-! Reads and ignored writes (O23 to O27; 41_host_commands.md R145 to R152). -/

namespace Sys2Proof.Machine

/-! ## Every read -/

/-- A word with RW = 0 is decoded by the rows of the reads. -/
theorem decodeHT_of_RW_zero {w : HTWord} (h : htRW w = 0) : decodeHT w = decodeRead (htOFF w) (htDATA w) :=
  if_neg (by rw [h]; decide)

/-- What a row of the reads does is to read some value. -/
theorem exec_decodeRead (off : BitVec 4) (data : Word) (s : State) :
    ∃ v, exec (decodeRead off data) s = read v s := by
  rcases Laws.readOffset_cases off with rfl | rfl | ⟨o, rfl⟩ | rfl | rfl | ⟨o, rfl⟩ | ⟨k, rfl⟩
  · exact ⟨_, exec_rdctrl s data⟩
  · exact ⟨_, exec_rstat s data⟩
  · rw [Laws.decodeRead_data]
    exact ⟨_, exec_rddata s o data⟩
  · exact ⟨_, exec_rlenlo s data⟩
  · exact ⟨_, exec_rlenhi s data⟩
  · rw [Laws.decodeRead_rsv]
    exact ⟨_, exec_rrsv s o data⟩
  · rw [Laws.decodeRead_digest]
    exact ⟨_, exec_rdig s k data⟩

/-- Settles O27: the word is decoded by the rows of the reads, each of which is a `read`. -/
theorem readsChangeNoState : Obligations.ReadsChangeNoState := by
  intro w s hrw
  rw [decodeHT_of_RW_zero hrw]
  exact exec_decodeRead (htOFF w) (htDATA w) s

/-! ## The values read -/

/-- The low word of a number of two words. -/
theorem toNat_low_word (l : BitVec 64) : (l.extractLsb' 0 32).toNat = l.toNat % 2 ^ 32 := by
  rw [BitVec.extractLsb'_toNat, Nat.shiftRight_zero]

/-- The high word of a number of two words. -/
theorem toNat_high_word (l : BitVec 64) : (l.extractLsb' 32 32).toNat = l.toNat / 2 ^ 32 := by
  rw [BitVec.extractLsb'_toNat, Nat.shiftRight_eq_div_pow]
  exact Nat.mod_eq_of_lt (by omega)

/-- Settles O23: the two reads are the two words of LEN. -/
theorem lenReads : Obligations.LenReads := fun x s =>
  ⟨_, _, exec_rlenlo s x, toNat_low_word s.LEN, exec_rlenhi s x, toNat_high_word s.LEN⟩

/-- Settles O24: RDIG reads `State.digest`; reset and INIT both put IV into H. -/
theorem digestReads : Obligations.DigestReads := by
  refine fun k x => ⟨fun s => exec_rdig s k x, fun s => exec_wignDigest s k x, rfl, fun s t h => ?_⟩
  cases h
  rfl

/-- Settles O25: the value read is 0 in each of the three arms. -/
theorem writeOnlyAndReservedReadZero : Obligations.WriteOnlyAndReservedReadZero := fun o x s =>
  ⟨exec_rdctrl s x, exec_rddata s o x, exec_rrsv s o x⟩

/-- Settles O26: the meaning of each ignored write is the state it is given. -/
theorem ignoredWritesHaveNoEffect : Obligations.IgnoredWritesHaveNoEffect := fun s x =>
  ⟨exec_wignStatus s x, fun o => exec_wignLenRsv s o x, fun k => exec_wignDigest s k x⟩

end Sys2Proof.Machine
end

section
/-! Padding (O34, O35): the bytes of BUF after PAD and PADLEN, region by region (42_padder.md R160, R161). -/

namespace Sys2Proof.Machine

section
variable (s : State)

/-! ## The length-only block -/

theorem getElem_bufPadLen_zero {i : Nat} (hi : i < 64) (h : i ≤ 55) : s.bufPadLen[i] = 0x00 := by
  rw [getElem_bufPadLen, if_pos h]

/-- The length field: LEN from byte 56 on, the most significant byte first. -/
theorem getElem_bufPadLen_lengthField {j : Nat} (hj : j < 8) :
    s.bufPadLen[56 + j] = s.LEN.extractLsb' (56 - 8 * j) 8 := by
  rw [getElem_bufPadLen, if_neg (by omega), Nat.add_sub_cancel_left]
  rfl

/-! ## The first padding block, with and without room for the length field -/

theorem getElem_bufPadFits_of_lt_CNT {i : Nat} (hi : i < 64) (h : i < s.CNT.toNat) : s.bufPadFits[i] = s.BUF[i] := by
  rw [getElem_bufPadFits, if_pos h]

theorem getElem_bufPadFits_CNT : s.bufPadFits[s.CNT.toNat] = 0x80 := by
  rw [getElem_bufPadFits, if_neg (Nat.lt_irrefl _), if_pos rfl]

/-- Behind the 0x80 byte the block is the length-only block. -/
theorem getElem_bufPadFits_of_CNT_lt {i : Nat} (hi : i < 64) (h : s.CNT.toNat < i) :
    s.bufPadFits[i] = s.bufPadLen[i] := by
  rw [getElem_bufPadFits, getElem_bufPadLen, if_neg (by omega), if_neg (by omega)]

theorem getElem_bufPadSpill_of_lt_CNT {i : Nat} (hi : i < 64) (h : i < s.CNT.toNat) :
    s.bufPadSpill[i] = s.BUF[i] := by
  rw [getElem_bufPadSpill, if_pos h]

theorem getElem_bufPadSpill_CNT : s.bufPadSpill[s.CNT.toNat] = 0x80 := by
  rw [getElem_bufPadSpill, if_neg (Nat.lt_irrefl _), if_pos rfl]

theorem getElem_bufPadSpill_of_CNT_lt {i : Nat} (hi : i < 64) (h : s.CNT.toNat < i) : s.bufPadSpill[i] = 0x00 := by
  rw [getElem_bufPadSpill, if_neg (by omega), if_neg (by omega)]

/-! ## What PAD and PADLEN answer

As a record, so that reading BUF back from it never unfolds the block. -/

theorem execPad_of_CNT_le (h : s.CNT.toNat ≤ 55) : execPad s =
    .next { s with BUF := s.bufPadFits, LAST := true, LENPEND := false, CNT := 0, PHASE := Phase.LOAD } := by
  rw [execPad, if_pos h, State.setBUF, State.setLAST, State.setLENPEND, State.setCNT, State.setPHASE]

theorem execPad_of_lt_CNT (h : 55 < s.CNT.toNat) : execPad s =
    .next { s with BUF := s.bufPadSpill, LAST := false, LENPEND := true, CNT := 0, PHASE := Phase.LOAD } := by
  rw [execPad, if_neg (Nat.not_le.2 h), State.setBUF, State.setLAST, State.setLENPEND, State.setCNT, State.setPHASE]

theorem execPadlen_next : execPadlen s =
    .next { s with BUF := s.bufPadLen, LAST := true, LENPEND := false, PHASE := Phase.LOAD } := by
  rw [execPadlen, State.setBUF, State.setLAST, State.setLENPEND, State.setPHASE]

end

/-- Settles O34: the block is `bufPadFits` up to CNT = 55, with the length-only block's bytes behind CNT, and
`bufPadSpill` from 56 on. -/
theorem padEffect : Obligations.PadEffect := by
  intro s
  rcases Nat.lt_or_ge 55 s.CNT.toNat with hspill | hfits
  · exact ⟨_, execPad_of_lt_CNT s hspill, rfl, getElem_bufPadSpill_CNT s, fun _ => getElem_bufPadSpill_of_lt_CNT s,
      fun h => absurd hspill (Nat.not_lt.2 h), fun _ => ⟨fun _ => getElem_bufPadSpill_of_CNT_lt s, rfl, rfl⟩⟩
  · refine ⟨_, execPad_of_CNT_le s hfits, rfl, getElem_bufPadFits_CNT s, fun _ => getElem_bufPadFits_of_lt_CNT s,
      fun _ => ⟨fun i hi hlt hle => ?_, fun j hj => ?_, rfl, rfl⟩, fun h => absurd h (Nat.not_lt.2 hfits)⟩
    · exact (getElem_bufPadFits_of_CNT_lt s hi hlt).trans (getElem_bufPadLen_zero s hi hle)
    · exact (getElem_bufPadFits_of_CNT_lt s (by omega) (by omega)).trans (getElem_bufPadLen_lengthField s hj)

/-- Settles O35: the block is `bufPadLen`. -/
theorem padlenEffect : Obligations.PadlenEffect := fun s =>
  ⟨_, execPadlen_next s, rfl, fun _ => getElem_bufPadLen_zero s, fun _ => getElem_bufPadLen_lengthField s⟩

end Sys2Proof.Machine
end

section
/-! The block parser's LOAD, word by word, and its frame (O42, 43_parser.md R180). -/

namespace Sys2Proof.Machine

/-- As a record, so that the frame is read off without unfolding the parsed words. -/
theorem execLoad_eq_record (s : State) :
    execLoad s = .next { s with W := s.parsedW, T := 16, PHASE := Phase.EXPAND } := by
  rw [execLoad_next, State.setW, State.setT, State.setPHASE]

/-- Settles O42: LOAD answers `s` with `parsedW` for W, whose words below 16 are read from BUF and whose others are kept. -/
theorem loadEffect : Obligations.LoadEffect := fun s =>
  ⟨_, execLoad_eq_record s, rfl, fun j hj => getElem_parsedW_low s j _ hj,
    fun j _ hkept => getElem_parsedW_high s j _ (Nat.not_lt.2 hkept)⟩

end Sys2Proof.Machine
end

section
/-! EXPAND t (O43, 44_schedule.md R190): the derived word, where the sequencer goes, and its frame. -/

namespace Sys2Proof.Machine

section
variable (s : State) (t : BitVec 6) (p : Phase)

/-! ## Where an indexed micro-operation takes the sequencer (10_state.md R29)

EXPAND and ROUND both end in `nextIndex`. -/

theorem nextIndex_frame :
    s.nextIndex t p = { s with T := (s.nextIndex t p).T, PHASE := (s.nextIndex t p).PHASE } := by
  unfold State.nextIndex
  split <;> rfl

variable {t}

theorem nextIndex_of_last (h : t = 63) : (s.nextIndex t p).T = 0 ∧ (s.nextIndex t p).PHASE = p :=
  ⟨(nextIndex_T s t p).trans (if_pos h), (nextIndex_PHASE s t p).trans (if_pos h)⟩

theorem nextIndex_of_not_last (h : t ≠ 63) :
    (s.nextIndex t p).T.toNat = t.toNat + 1 ∧ (s.nextIndex t p).PHASE = s.PHASE := by
  rw [nextIndex_T, nextIndex_PHASE, if_neg h, if_neg h]
  exact ⟨(toNat_index_succ h).1, rfl⟩

end

/-! ## What EXPAND t answers -/

/-- The schedule after EXPAND t. -/
def State.expandedW (s : State) (t : BitVec 6) : Vector Word 64 := s.W.set t.toNat (expandWord s t)

theorem getElem_expandedW_self (s : State) (t : BitVec 6) : (s.expandedW t)[t.toNat] =
    smallSigma1 s.W[t.toNat - 2] + s.W[t.toNat - 7] + smallSigma0 s.W[t.toNat - 15] + s.W[t.toNat - 16] := by
  rw [State.expandedW, Vector.getElem_set_self]
  rfl

theorem getElem_expandedW_of_ne (s : State) (t : BitVec 6) {j : Nat} (hj : j < 64) (h : j ≠ t.toNat) :
    (s.expandedW t)[j] = s.W[j] := by
  rw [State.expandedW, Vector.getElem_set_ne _ _ h.symm]

/-- Settles O43: the word and the kept words are those of `expandedW`; T, PHASE and the frame are `nextIndex`'s. -/
theorem expandEffect : Obligations.ExpandEffect := by
  intro t s ht
  refine ⟨_, execExpand_next ht, ?_, ?_, fun j hj hne => ?_, nextIndex_of_last _ _, nextIndex_of_not_last _ _⟩
  · rw [nextIndex_W]
    exact nextIndex_frame ..
  · simp only [nextIndex_W]
    exact getElem_expandedW_self s t
  · simp only [nextIndex_W]
    exact getElem_expandedW_of_ne s t hj hne

end Sys2Proof.Machine
end

section
/-! The compression unit's micro-operations (O44 to O46; 45_compression.md R201 to R203), and what INIT forgets (O52;
R211). -/

namespace Sys2Proof.Machine

/-- Settles O44: WINIT's meaning, with a..h read off `Work.ofH`. -/
theorem winitEffect : Obligations.WinitEffect := execWinit_next

/-- ROUND t with its sums in variables: the shift, then the sequencer's next index. -/
theorem exec_round_of_sums {t : BitVec 6} {s : State} {T1 T2 : Word} (h1 : s.wr.t1 (K t) s.W[t.toNat] = T1)
    (h2 : s.wr.t2 = T2) : exec (.round t) s = .next ((s.setWr
      { a := T1 + T2, b := s.wr.a, c := s.wr.b, d := s.wr.c, e := s.wr.d + T1, f := s.wr.e, g := s.wr.f,
        h := s.wr.g }).nextIndex t Phase.FOLD) := by
  subst h1 h2
  rfl

/-- Settles O45: the shift is `exec_round_of_sums`; T, PHASE and the frame are `nextIndex`'s. -/
theorem roundEffect : Obligations.RoundEffect := by
  intro t s
  obtain ⟨T1, h1⟩ : ∃ T1, s.wr.t1 (K t) s.W[t.toNat] = T1 := ⟨_, rfl⟩
  obtain ⟨T2, h2⟩ : ∃ T2, s.wr.t2 = T2 := ⟨_, rfl⟩
  refine ⟨_, exec_round_of_sums h1 h2, ?_, ?_, nextIndex_of_last _ _, nextIndex_of_not_last _ _⟩
  · rw [nextIndex_wr]
    exact nextIndex_frame ..
  · intro T1' T2' h1' h2'
    obtain rfl : T1' = T1 := h1'.trans h1
    obtain rfl : T2' = T2 := h2'.trans h2
    rw [nextIndex_wr]
    exact ⟨rfl, rfl, rfl, rfl, rfl, rfl, rfl, rfl⟩

/-- Settles O46: FOLD's meaning is `foldH` and `afterFold`, whose branches are the three cases. -/
theorem foldEffect : Obligations.FoldEffect := by
  refine fun s => ⟨_, execFold_next s, rfl, rfl, fun hlast => ?_, fun hlast hpend => ?_, fun hlast hpend => ?_⟩
  · have hp : s.afterFold = Phase.DONE := by simp [State.afterFold, hlast]
    exact ⟨hp, busy_of_PHASE (p := Phase.DONE) hp, (done_iff _).2 hp⟩
  · show s.afterFold = Phase.PADLEN
    simp [State.afterFold, hlast, hpend]
  · have hp : s.afterFold = Phase.OPEN := by simp [State.afterFold, hlast, hpend]
    exact ⟨hp, busy_of_PHASE (p := Phase.OPEN) hp, (ready_iff _).2 hp⟩

/-- Settles O52: INIT writes every register but a..h, W and BUF, and leads to OPEN with CNT = 0, where nothing of these
three has been written for the block. -/
theorem initForgetsThePast : Obligations.InitForgetsThePast := by
  intro s s' hr hi
  refine ⟨_, _, exec_init s, exec_init s', ⟨rfl, rfl, rfl, rfl, rfl, rfl, rfl, rfl, hr, hi⟩, ?_, ?_, ?_, ?_, ?_⟩
  · exact fun _ i _ hlt => absurd hlt (Nat.not_lt_zero i)
  all_goals simp

end Sys2Proof.Machine
end

section
/-! Host runs without their interleaving: which state a core comes to rest in, whatever the host reads meanwhile, and the
first operation of a host's program (20_memory.md R60; 30_encoding.md R89). -/

namespace Sys2Proof.Machine

/-! ## One step with an event presented -/

/-- A core turn presented is the step with no event left. -/
theorem step_begin (s : State) : step (s.begin []) = stepOn .core s := by
  rw [step_nil rfl, stepOn, step_core (rest := []) rfl]
  rfl

theorem stepOn_core_next {s t : State} (h : stepOn .core s = .next t) : coreTurn (s.begin []) = .next t := by
  rw [stepOn, step_core (rest := []) rfl] at h
  exact (inSpecified_next h).2

theorem stepOn_txn_next {w : HTWord} {s t : State} (h : stepOn (.txn w) s = .next t) :
    exec (decodeHT w) (s.begin []) = .next t := by
  rw [stepOn, step_txn (w := w) (rest := []) rfl] at h
  exact (inSpecified_next h).2

/-- A core turn neither reads nor takes an event. -/
theorem coreTurn_environment {s t : State} (h : coreTurn s = .next t) : t.rdata = s.rdata ∧ t.inputs = s.inputs := by
  rcases coreTurn_cases h with ⟨rfl, _⟩ | ⟨_, _, h⟩ | ⟨_, _, h⟩ | ⟨_, _, h⟩ | ⟨_, _, h⟩ | ⟨_, _, h⟩ | ⟨_, h⟩ | ⟨_, _, h⟩
  · exact ⟨rfl, rfl⟩
  · rcases execPad_cases h with ⟨_, v, _, rfl⟩ | ⟨_, v, _, rfl⟩ <;> exact ⟨rfl, rfl⟩
  · obtain ⟨v, _, rfl⟩ := execPadlen_cases h
    exact ⟨rfl, rfl⟩
  · obtain ⟨v, _, rfl⟩ := execLoad_cases h
    exact ⟨rfl, rfl⟩
  · obtain ⟨_, v, _, rfl⟩ := execExpand_cases h
    exact ⟨nextIndex_rdata .., nextIndex_inputs ..⟩
  · obtain ⟨v, _, rfl⟩ := execWinit_cases h
    exact ⟨rfl, rfl⟩
  · obtain ⟨v, _, rfl⟩ := execRound_cases h
    exact ⟨nextIndex_rdata .., nextIndex_inputs ..⟩
  · obtain ⟨v, _, rfl⟩ := execFold_cases h
    exact ⟨rfl, rfl⟩

/-- Outside the busy phases a core turn is idle. -/
theorem coreTurn_of_not_busy {s t : State} (hb : s.busy = false) (h : coreTurn s = .next t) : t = s := by
  have hne {p : Phase} (hp : p.busy = true) : s.PHASE ≠ p := fun e => by
    rw [busy_of_PHASE e, hp] at hb
    cases hb
  rcases coreTurn_cases h with ⟨rfl, _⟩ | ⟨hp, _⟩ | ⟨hp, _⟩ | ⟨hp, _⟩ | ⟨hp, _⟩ | ⟨hp, _⟩ | ⟨hp, _⟩ | ⟨hp, _⟩
  · rfl
  all_goals exact absurd hp (hne (by decide))

theorem begin_of_environment {s : State} (hr : s.rdata = none) (hi : s.inputs = []) : s.begin [] = s := by
  apply State.eq_of_fields <;> simp [hr, hi]

theorem stepOn_core_of_not_busy {s t : State} (hb : s.busy = false) (h : stepOn .core s = .next t) : t = s.begin [] :=
  coreTurn_of_not_busy (s := s.begin []) hb (stepOn_core_next h)

/-! ## The state in which the core comes to rest -/

theorem begin_remaining (s : State) (es : List Event) : (s.begin es).remaining = s.remaining :=
  remaining_congr rfl rfl rfl rfl rfl

/-- The answer of the core steps left until BUSY = 0. -/
def State.settled (s : State) : Result := runCore s.remaining (s.begin [])

theorem settled_of_not_busy {s : State} (hb : s.busy = false) : s.settled = .next (s.begin []) := by
  rw [State.settled, remaining_of_not_busy hb, runCore_zero]

/-- The read port and the events do not matter. -/
theorem settled_congr {s t : State} (h : t.begin [] = s.begin []) : t.settled = s.settled := by
  have hrem : t.remaining = s.remaining := by rw [← begin_remaining t [], h, begin_remaining]
  rw [State.settled, State.settled, h, hrem]

theorem settled_begin (s : State) : (s.begin []).settled = s.settled := settled_congr rfl

/-- A core turn brings the core closer to the same rest. -/
theorem settled_stepOn_core {s t : State} (h : stepOn .core s = .next t) : t.settled = s.settled := by
  have hturn := stepOn_core_next h
  have hbegin : t.begin [] = t := by
    obtain ⟨hr, hi⟩ := coreTurn_environment hturn
    exact begin_of_environment hr hi
  cases hb : s.busy with
  | false =>
    obtain rfl := stepOn_core_of_not_busy hb h
    exact settled_begin s
  | true =>
    have hrem : t.remaining + 1 = s.remaining := remaining_coreTurn (s := s.begin []) hb hturn
    have hstep : step (s.begin []) = .next t := (step_begin s).trans h
    rw [State.settled, State.settled, ← hrem, runCore_succ _ hstep, hbegin]

/-- A run of the core brings it closer to the same rest. -/
theorem settled_of_runCore {s t : State} {k : Nat} (hi : s.inputs = []) (h : runCore k s = .next t) :
    s.settled = t.settled := by
  induction k generalizing s with
  | zero =>
    cases h
    rfl
  | succ k ih =>
    obtain ⟨u, hstep, hrun⟩ := runCore_succ_inv h
    rw [← settled_stepOn_core ((stepOn_core hi).trans hstep)]
    exact ih (step_inputs_nil hi hstep) hrun

/-- The micro-operation that is next brings the core closer to the same rest. -/
theorem settled_of_exec {s t : State} {i : Instr} (hd : decodePhaseT s.PHASE s.T = .ok i)
    (h : exec i (s.begin []) = .next t) : s.settled = t.settled :=
  (settled_stepOn_core ((step_begin s).symm.trans ((step_quiet (s := s.begin []) rfl hd).trans h))).symm

@[simp] theorem begin_afterFold (s : State) (es : List Event) : (s.begin es).afterFold = s.afterFold := rfl

/-- `t` is where FOLD leads from a block that is in BUF at `s`: the block is compressed into H. -/
structure FoldedFrom (s t : State) : Prop where
  H : t.H = Contract.compress s.H s.BUF.toList
  PHASE : t.PHASE = s.afterFold
  T : t.T = s.T
  CNT : t.CNT = s.CNT
  LEN : t.LEN = s.LEN
  LAST : t.LAST = s.LAST
  LENPEND : t.LENPEND = s.LENPEND
  err : t.err = s.err

/-- A block in BUF is compressed on the way to rest. -/
theorem settled_of_LOAD {s : State} (hp : s.PHASE = Phase.LOAD) (hT : s.T = 0) :
    ∃ t, s.settled = t.settled ∧ FoldedFrom s t := by
  obtain ⟨w, r, hrun⟩ := runCore_block (s.begin []) hp hT rfl
  refine ⟨_, (settled_begin s).symm.trans (settled_of_runCore (s := s.begin []) rfl hrun), ?_⟩
  constructor <;> simp

/-! ## Reading STATUS -/

theorem decodeHT_rstat : decodeHT (assemble .rstat) = .rstat 0 := Laws.decodeHT_of_encode rfl rfl

theorem stepOn_rstat_next {s t : State} (h : stepOn (.txn (assemble .rstat)) s = .next t) :
    t = (s.begin []).setRdata (some s.status) := by
  have hexec := stepOn_txn_next h
  rw [decodeHT_rstat] at hexec
  cases hexec
  rfl

/-- A read leaves everything but the read port and the events. -/
theorem begin_of_stepOn_rstat {s t : State} (h : stepOn (.txn (assemble .rstat)) s = .next t) :
    t.begin [] = s.begin [] := by
  rw [stepOn_rstat_next h]
  rfl

theorem stepOn_rstat {s : State} (h : ¬s.unspecified) :
    stepOn (.txn (assemble .rstat)) s = .next ((s.begin []).setRdata (some s.status)) := by
  rw [stepOn_txn _ h, decodeHT_rstat]
  rfl

theorem getLsbD_status_zero (s : State) : s.status.getLsbD 0 = s.busy := by
  rw [getLsbD_status]
  simp

/-! ## The first operation of a program -/

/-- What core turns and reads of STATUS keep holds where the first operation of a program is done. -/
theorem HostRun.first_op {P : State → Prop} (hcore : ∀ s t, P s → stepOn .core s = .next t → P t)
    (hpoll : ∀ s t, P s → stepOn (.txn (assemble .rstat)) s = .next t → P t) {op : HostOp} {ops : List HostOp}
    {s t : State} {vs : List Word} (h : HostRun s (op :: ops) t vs) (hs : P s) :
    ∃ e s₁ s₂ v vs', P s₁ ∧ HostStep e s₁ (op :: ops) s₂ ops v ∧ HostRun s₂ ops t vs' ∧ vs = v ++ vs' := by
  generalize hprog : op :: ops = prog at h
  induction h with
  | done => cases hprog
  | cons hstep hrun ih =>
    subst hprog
    cases hstep with
    | core h => exact ih (hcore _ _ hs h) rfl
    | tx h => exact ⟨_, _, _, _, _, hs, .tx h, hrun, rfl⟩
    | poll h hv hbusy => exact ih (hpoll _ _ hs h) rfl
    | idle h hv hidle => exact ⟨_, _, _, _, _, hs, .idle h hv hidle, hrun, rfl⟩

/-- After the last operation only core turns are left. -/
theorem HostRun.nil_of_not_busy {s t : State} {vs : List Word} (h : HostRun s [] t vs) (hb : s.busy = false) :
    vs = [] ∧ t.begin [] = s.begin [] := by
  generalize hprog : [] = prog at h
  induction h with
  | done => exact ⟨rfl, rfl⟩
  | cons hstep _ ih =>
    subst hprog
    cases hstep with
    | core h =>
      obtain rfl := stepOn_core_of_not_busy hb h
      exact ih hb rfl

/-- A transaction presented while BUSY = 0 acts before any core step. -/
theorem hostRun_tx_iff {o : AsmOp} {s s₁ t : State} {ops : List HostOp} {vs : List Word} (hb : s.busy = false)
    (h : stepOn (.txn (assemble o)) s = .next s₁) :
    HostRun s (.tx o :: ops) t vs ↔ ∃ vs', HostRun s₁ ops t vs' ∧ vs = s₁.rdata.toList ++ vs' := by
  constructor
  · intro hrun
    obtain ⟨e, u, s₂, v, vs', hu, hstep, hrest, rfl⟩ := hrun.first_op (P := fun u => u.begin [] = s.begin [])
      (fun u u' hu hcore => by
        rw [stepOn_core_of_not_busy (by rw [← begin_busy u [], hu, begin_busy, hb]) hcore, ← hu]
        rfl)
      (fun u u' hu hread => (begin_of_stepOn_rstat hread).trans hu) rfl
    cases hstep with
    | tx h' =>
      have hexec := stepOn_txn_next h'
      rw [hu, stepOn_txn_next h] at hexec
      cases hexec
      exact ⟨vs', hrest, rfl⟩
  · rintro ⟨vs', hrun, rfl⟩
    exact .cons (.tx h) hrun

/-- Whatever the core does before it, a transaction that comes first acts in some state `u`. -/
theorem HostRun.tx_cases {o : AsmOp} {s t : State} {ops : List HostOp} {vs : List Word}
    (h : HostRun s (.tx o :: ops) t vs) : ∃ (u s₁ : State) (vs' : List Word),
      exec (decodeHT (assemble o)) (u.begin []) = .next s₁ ∧ HostRun s₁ ops t vs' ∧
        vs = s₁.rdata.toList ++ vs' := by
  obtain ⟨e, u, s₁, v, vs', -, hstep, hrun, rfl⟩ := h.first_op (P := fun _ => True) (fun _ _ _ _ => trivial)
    (fun _ _ _ _ => trivial) trivial
  cases hstep with
  | tx h' => exact ⟨u, s₁, vs', stepOn_txn_next h', hrun, rfl⟩

/-- WAITIDLE ends in the state in which the core comes to rest, with STATUS at the read port. -/
theorem hostRun_waitIdle_iff {s r t : State} {ops : List HostOp} {vs : List Word} (hs : s.settled = .next r)
    (hb : r.busy = false) (hspec : ¬r.unspecified) :
    HostRun s (.waitIdle :: ops) t vs ↔ HostRun (r.setRdata (some r.status)) ops t vs := by
  constructor
  · intro hrun
    obtain ⟨e, u, s₂, v, vs', hu, hstep, hrest, rfl⟩ := hrun.first_op (P := fun u => u.settled = .next r)
      (fun u u' hu hcore => (settled_stepOn_core hcore).trans hu)
      (fun u u' hu hread => (settled_congr (begin_of_stepOn_rstat hread)).trans hu) hs
    cases hstep with
    | idle h hv hidle =>
      obtain rfl := stepOn_rstat_next h
      cases hv
      rw [getLsbD_status_zero] at hidle
      rw [settled_of_not_busy hidle] at hu
      cases hu
      exact hrest
  · intro hrun
    induction hn : s.remaining generalizing s with
    | zero =>
      rw [State.settled, hn, runCore_zero] at hs
      cases hs
      exact .cons (.idle (stepOn_rstat (s := s) hspec) rfl ((getLsbD_status_zero _).trans hb)) hrun
    | succ n ih =>
      have hs' := hs
      rw [State.settled, hn] at hs'
      obtain ⟨u, hstep, -⟩ := runCore_succ_inv hs'
      have hcore : stepOn .core s = .next u := (step_begin s).symm.trans hstep
      have hb : s.busy = true := busy_of_remaining_pos (by rw [hn]; exact n.succ_pos)
      have hrem : u.remaining + 1 = s.remaining := remaining_coreTurn (s := s.begin []) hb (stepOn_core_next hcore)
      exact .cons (.core hcore) (ih ((settled_stepOn_core hcore).trans hs) (by omega))

end Sys2Proof.Machine
end

section
/-! The block buffer as a list of bytes, and the contract's blocks (42_padder.md R160 to R164; 43_parser.md R181). -/

namespace Sys2Proof.Machine

/-! ## BUF as a list -/

/-- The message bytes of the current block. -/
def State.tail (s : State) : List Byte := s.BUF.toList.take s.CNT.toNat

theorem getElem_be64bytes (l : BitVec 64) {j : Nat} (h : j < (be64bytes l).length) :
    (be64bytes l)[j] = be64byte l j := by
  simp [be64bytes]

section
variable (s : State)

@[simp] theorem length_tail : s.tail.length = s.CNT.toNat := by
  simp [State.tail]
  omega

theorem getElem_tail {i : Nat} (h : i < s.tail.length) :
    s.tail[i] = s.BUF[i]'(by rw [length_tail] at h; omega) := by
  simp [State.tail]

/-- The bytes up to the last one appended. -/
theorem take_bufAppend {bs : List Byte} (h : s.CNT.toNat + bs.length ≤ 64) :
    (s.bufAppend bs).toList.take (s.CNT.toNat + bs.length) = s.tail ++ bs := by
  apply List.ext_getElem
  · simp
    omega
  · intro i h1 h2
    simp only [List.getElem_take, Vector.getElem_toList, List.getElem_append, length_tail, getElem_tail]
    rw [getElem_bufAppend]
    grind

theorem toList_bufPadLen : s.bufPadLen.toList = List.replicate 56 0x00 ++ be64bytes s.LEN := by
  apply List.ext_getElem
  · simp
  · intro i h1 h2
    simp only [Vector.getElem_toList, List.getElem_append, List.getElem_replicate, getElem_be64bytes,
      List.length_replicate, Nat.lt_succ_iff, dite_eq_ite]
    exact getElem_bufPadLen ..

/-- The length-only block depends on LEN alone. -/
theorem bufPadLen_congr {s t : State} (h : t.LEN = s.LEN) : t.bufPadLen = s.bufPadLen := by
  rw [State.bufPadLen, State.bufPadLen, h]

/-- A block that keeps the message bytes and marks their end with 0x80. -/
theorem toList_of_marker {v : Vector Byte 64} {rest : List Byte} (hlen : s.CNT.toNat + 1 + rest.length = 64)
    (hkept : ∀ (i : Nat) (hi : i < 64), i < s.CNT.toNat → v[i] = s.BUF[i]) (hmark : v[s.CNT.toNat] = 0x80)
    (hrest : ∀ (j : Nat) (hj : j < rest.length), v[s.CNT.toNat + 1 + j] = rest[j]) :
    v.toList = s.tail ++ 0x80 :: rest := by
  apply List.ext_getElem
  · simp
    omega
  · intro i hi _
    have hi : i < 64 := by simpa using hi
    rw [Vector.getElem_toList]
    rcases Nat.lt_trichotomy i s.CNT.toNat with h | rfl | h
    · rw [List.getElem_append_left (by simpa using h), getElem_tail]
      exact hkept i hi h
    · simpa [List.getElem_append_right] using hmark
    · obtain ⟨j, rfl⟩ : ∃ j, i = s.CNT.toNat + 1 + j := ⟨i - (s.CNT.toNat + 1), by omega⟩
      simpa [List.getElem_append_right, Nat.add_assoc, Nat.add_comm 1 j] using hrest j (by omega)

/-- PAD without room for the length field: zeros fill the block. -/
theorem toList_bufPadSpill :
    s.bufPadSpill.toList = s.tail ++ 0x80 :: List.replicate (63 - s.CNT.toNat) 0x00 := by
  refine toList_of_marker s (by rw [List.length_replicate]; omega) (fun _ => getElem_bufPadSpill_of_lt_CNT s)
    (getElem_bufPadSpill_CNT s) fun j hj => ?_
  rw [getElem_bufPadSpill_of_CNT_lt s _ (by omega), List.getElem_replicate]

/-- PAD with room for the length field: the rest of the length-only block. -/
theorem toList_bufPadFits (h : s.CNT.toNat ≤ 55) : s.bufPadFits.toList =
    s.tail ++ 0x80 :: (List.replicate (55 - s.CNT.toNat) 0x00 ++ be64bytes s.LEN) := by
  have hrest : List.replicate (55 - s.CNT.toNat) 0x00 ++ be64bytes s.LEN =
      s.bufPadLen.toList.drop (s.CNT.toNat + 1) := by
    rw [toList_bufPadLen, List.drop_append_of_le_length (by rw [List.length_replicate]; omega), List.drop_replicate]
    congr 2
    omega
  rw [hrest]
  refine toList_of_marker s (by simp; omega) (fun _ => getElem_bufPadFits_of_lt_CNT s) (getElem_bufPadFits_CNT s)
    fun j hj => ?_
  rw [getElem_bufPadFits_of_CNT_lt s _ (by omega), List.getElem_drop, Vector.getElem_toList]

end

/-- The blocks PAD and PADLEN make of the message bytes of the current block. -/
def State.padBlocks (s : State) : List (List Byte) :=
  if s.CNT.toNat ≤ 55 then [s.bufPadFits.toList] else [s.bufPadSpill.toList, s.bufPadLen.toList]

theorem length_of_mem_padBlocks {s : State} {b : List Byte} (h : b ∈ s.padBlocks) : b.length = 64 := by
  unfold State.padBlocks at h
  split at h
  · rw [List.mem_singleton.1 h, Vector.length_toList]
  · rcases List.mem_pair.1 h with h | h <;> rw [h, Vector.length_toList]

/-- Together they are the message bytes and the padding of a message with as many bytes in its last block. -/
theorem flatten_padBlocks {s : State} {n : Nat} (hn : n % 64 = s.CNT.toNat) :
    s.padBlocks.flatten = s.tail ++ 0x80 :: (List.replicate (Contract.zeros n) 0x00 ++ be64bytes s.LEN) := by
  unfold State.padBlocks Contract.zeros
  rw [hn]
  split
  · rename_i hfits
    rw [List.flatten_singleton, toList_bufPadFits s hfits]
  · rename_i hspill
    have hzeros : 119 - s.CNT.toNat = (63 - s.CNT.toNat) + 56 := by omega
    rw [hzeros, List.replicate_add]
    simp [toList_bufPadSpill, toList_bufPadLen]

section
variable (s : State) (es : List Event)

@[simp] theorem begin_bufPadFits : (s.begin es).bufPadFits = s.bufPadFits := by
  rw [State.bufPadFits, State.bufPadFits, begin_CNT, begin_BUF, begin_LEN]

@[simp] theorem begin_bufPadSpill : (s.begin es).bufPadSpill = s.bufPadSpill := by
  rw [State.bufPadSpill, State.bufPadSpill, begin_CNT, begin_BUF]

end

/-! ## The contract's blocks -/

namespace Contract

/-- The padded message is a whole number of blocks. -/
theorem length_pad (m : List Byte) : (pad m).length = 64 * blockCount m.length := by
  simp only [pad, zeros, blockCount, List.length_append, List.length_replicate, List.length_singleton, length_be64bytes]
  split <;> omega

theorem length_flatten_blocks {bs : List (List Byte)} (h : ∀ b ∈ bs, b.length = 64) :
    bs.flatten.length = 64 * bs.length := by
  rw [List.length_flatten, List.map_congr_left h, List.map_const', List.sum_replicate, smul_eq_mul, Nat.mul_comm]

/-- Blocks put together are cut apart again. -/
theorem blocks_flatten {bs : List (List Byte)} (h : ∀ b ∈ bs, b.length = 64) : blocks bs.length bs.flatten = bs := by
  induction bs with
  | nil => rfl
  | cons b bs ih =>
    obtain ⟨hb, hbs⟩ := List.forall_mem_cons.1 h
    rw [List.length_cons, blocks, List.flatten_cons, ← hb, List.take_left, List.drop_left, ih hbs]

/-- Any way of cutting the padded message into blocks of 64 bytes is the contract's. -/
theorem finalState_of_flatten {m : List Byte} {bs : List (List Byte)} (h : ∀ b ∈ bs, b.length = 64)
    (hpad : pad m = bs.flatten) : finalState m = bs.foldl compress IV := by
  have hcount : blockCount m.length = bs.length := by
    have := length_pad m
    rw [hpad, length_flatten_blocks h] at this
    omega
  rw [finalState, hcount, hpad, blocks_flatten h]

end Contract

end Sys2Proof.Machine
end

section
/-! HASH (O56, O57): what the core holds at rest while a message is put in, after FINAL, and what the host reads
(45_compression.md R210; 30_encoding.md R89). -/

namespace Sys2Proof.Machine

/-! ## The words of the host's transactions -/

theorem decodeHT_init : decodeHT (assemble .init) = .init := Laws.decodeHT_of_encode rfl rfl

theorem decodeHT_final : decodeHT (assemble .final) = .final := Laws.decodeHT_of_encode rfl rfl

theorem decodeHT_putw (w : Word) : decodeHT (assemble (.putw w)) = .putw w := Laws.decodeHT_of_encode rfl rfl

theorem decodeHT_putb (b : Byte) : decodeHT (assemble (.putb b)) = .putb 0 b := by
  have hzero : b.setWidth 32 = 0#24 ++ b := BitVec.setWidth_eq_append (by decide)
  rw [assemble, hzero]
  exact Laws.decodeHT_of_encode rfl rfl

theorem decodeHT_rdig (k : BitVec 3) : decodeHT (assemble (.rdig k)) = .rdig k 0 := by
  have hoff : 8 + k.setWidth 4 = 0b1#1 ++ k := by revert k; decide
  rw [assemble, hoff]
  exact Laws.decodeHT_of_encode rfl rfl

/-- The bytes of an assembled word. -/
theorem bytes32_be32 (b0 b1 b2 b3 : Byte) : bytes32 (be32 b0 b1 b2 b3) = [b0, b1, b2, b3] := by
  have h0 : (b0 ++ b1 ++ b2 ++ b3).extractLsb' 24 8 = b0 := by
    rw [BitVec.extractLsb'_append_eq_of_le (by decide), BitVec.extractLsb'_append_eq_of_le (by decide)]
    exact Laws.extract_high b0 b1
  have h1 : (b0 ++ b1 ++ b2 ++ b3).extractLsb' 16 8 = b1 := by
    rw [BitVec.extractLsb'_append_eq_of_le (by decide), BitVec.extractLsb'_append_eq_of_le (by decide)]
    exact Laws.extract_low b0 b1
  have h2 : (b0 ++ b1 ++ b2 ++ b3).extractLsb' 8 8 = b2 := by
    rw [BitVec.extractLsb'_append_eq_of_le (by decide)]
    exact Laws.extract_low (b0 ++ b1) b2
  have h3 : (b0 ++ b1 ++ b2 ++ b3).extractLsb' 0 8 = b3 := Laws.extract_low (b0 ++ b1 ++ b2) b3
  exact congrArg₂ _ h0 (congrArg₂ _ h1 (congrArg₂ _ h2 (congrArg (· :: []) h3)))

/-! ## Programs with the same runs -/

/-- The runs of `ops` from `s` are, with their results, those of `ops'` from `s'`. -/
def SameRuns (s : State) (ops : List HostOp) (s' : State) (ops' : List HostOp) : Prop :=
  ∀ t vs, HostRun s ops t vs ↔ HostRun s' ops' t vs

theorem SameRuns.trans {s₁ s₂ s₃ : State} {ops₁ ops₂ ops₃ : List HostOp} (h : SameRuns s₁ ops₁ s₂ ops₂)
    (h' : SameRuns s₂ ops₂ s₃ ops₃) : SameRuns s₁ ops₁ s₃ ops₃ :=
  fun t vs => (h t vs).trans (h' t vs)

/-- A write presented while BUSY = 0. -/
theorem sameRuns_write {o : AsmOp} {s s₁ : State} {ops : List HostOp} (hb : s.busy = false)
    (h : stepOn (.txn (assemble o)) s = .next s₁) (hr : s₁.rdata = none) : SameRuns s (.tx o :: ops) s₁ ops := by
  intro t vs
  rw [hostRun_tx_iff hb h, hr]
  simp

theorem sameRuns_waitIdle {s r : State} {ops : List HostOp} (hs : s.settled = .next r) (hb : r.busy = false)
    (hspec : ¬r.unspecified) : SameRuns s (.waitIdle :: ops) (r.setRdata (some r.status)) ops :=
  fun _ _ => hostRun_waitIdle_iff hs hb hspec

/-! ## The core at rest while a message is open -/

/-- The core has accepted `m` and is at rest: the full blocks of `m` are compressed into H, the other bytes are in BUF,
and there was no error. -/
structure State.Absorbed (s : State) (m : List Byte) : Prop where
  phase : s.PHASE = Phase.OPEN
  index : s.T = 0
  last : s.LAST = false
  lenpend : s.LENPEND = false
  err : s.err = Errors.none
  len : s.LEN.toNat = 8 * m.length
  blocks : ∃ bs : List (List Byte), (∀ b ∈ bs, b.length = 64) ∧ m = bs.flatten ++ s.tail ∧
    s.H = bs.foldl Contract.compress IV

theorem absorbed_of_init {s t : State} (h : execInit s = .next t) : t.Absorbed [] := by
  cases h
  exact ⟨rfl, rfl, rfl, rfl, rfl, rfl, [], by simp, rfl, rfl⟩

section
variable {s : State} {m : List Byte} (h : s.Absorbed m)
include h

theorem State.Absorbed.busy : s.busy = false := Phase.not_busy_of_open h.phase

theorem State.Absorbed.specified : ¬s.unspecified := specified_of_T_zero h.phase (by decide) h.index

/-- The read port and the events do not matter. -/
theorem State.Absorbed.setRdata (v : Option Word) : (s.setRdata v).Absorbed m :=
  ⟨h.phase, h.index, h.last, h.lenpend, h.err, h.len, h.blocks⟩

theorem State.Absorbed.begin (es : List Event) : (s.begin es).Absorbed m :=
  ⟨h.phase, h.index, h.last, h.lenpend, h.err, h.len, h.blocks⟩

end

theorem LEN_of_toNat {s : State} {n : Nat} (h : s.LEN.toNat = n) : s.LEN = BitVec.ofNat 64 n := by
  rw [← h, BitVec.ofNat_toNat, BitVec.setWidth_eq]

/-! ## Bytes put in -/

section
variable {s : State} {m : List Byte} {bs : List Byte}

theorem tail_appendBytes_partial (h : s.CNT.toNat + bs.length < 64) : (appendBytes bs s).tail = s.tail ++ bs := by
  rw [State.tail, (appendBytes_partial bs s h).1, appendBytes_BUF]
  exact take_bufAppend s h.le

theorem toList_BUF_appendBytes_full (h : s.CNT.toNat + bs.length = 64) :
    (appendBytes bs s).BUF.toList = s.tail ++ bs := by
  rw [appendBytes_BUF, ← take_bufAppend s h.le, h, List.take_of_length_le (by simp)]

/-- The bytes do not complete the block. -/
theorem State.Absorbed.appendBytes_partial (h : s.Absorbed m) (hfit : s.CNT.toNat + bs.length < 64)
    (hlen : 8 * (m.length + bs.length) ≤ LEN_MAX) : (appendBytes bs s).Absorbed (m ++ bs) := by
  obtain ⟨blocks, hfull, hm, hH⟩ := h.blocks
  have hLEN := appendBytes_LEN_of_le_LEN_MAX (s := s) (bs := bs) (by rw [h.len]; omega)
  refine ⟨?_, ?_, ?_, ?_, ?_, ?_, blocks, hfull, ?_, ?_⟩
  · rw [(Machine.appendBytes_partial bs s hfit).2, h.phase]
  · rw [appendBytes_T, h.index]
  · rw [appendBytes_LAST, h.last]
  · rw [appendBytes_LENPEND, h.lenpend]
  · rw [appendBytes_err, h.err]
  · rw [hLEN, h.len, List.length_append, Nat.mul_add]
  · rw [tail_appendBytes_partial hfit, ← List.append_assoc, ← hm]
  · rw [appendBytes_H, hH]

/-- The bytes complete the block: it is compressed before the core is at rest again. -/
theorem State.Absorbed.settled_appendBytes_full (h : s.Absorbed m) (hfit : s.CNT.toNat + bs.length = 64)
    (hlen : 8 * (m.length + bs.length) ≤ LEN_MAX) :
    ∃ r, (appendBytes bs s).settled = .next r ∧ r.Absorbed (m ++ bs) ∧ r.CNT = 0 := by
  obtain ⟨blocks, hfull, hm, hH⟩ := h.blocks
  obtain ⟨hCNT, hLOAD⟩ := Machine.appendBytes_full bs s hfit
  have hLEN := appendBytes_LEN_of_le_LEN_MAX (s := s) (bs := bs) (by rw [h.len]; omega)
  have hblock : (s.tail ++ bs).length = 64 := by rw [List.length_append, length_tail, hfit]
  have hfold : (appendBytes bs s).afterFold = Phase.OPEN := by simp [State.afterFold, h.last, h.lenpend]
  obtain ⟨t, hs, ht⟩ := settled_of_LOAD hLOAD ((appendBytes_T bs s).trans h.index)
  have hOPEN : t.PHASE = Phase.OPEN := ht.PHASE.trans hfold
  have hCNT' : t.CNT = 0 := ht.CNT.trans hCNT
  have htail : t.tail = [] := List.length_eq_zero_iff.1 (by rw [length_tail, hCNT']; rfl)
  refine ⟨_, hs.trans (settled_of_not_busy (Phase.not_busy_of_open hOPEN)), State.Absorbed.begin ?_ [], hCNT'⟩
  refine ⟨hOPEN, ?_, ?_, ?_, ?_, ?_, blocks ++ [s.tail ++ bs], ?_, ?_, ?_⟩
  · rw [ht.T, appendBytes_T, h.index]
  · rw [ht.LAST, appendBytes_LAST, h.last]
  · rw [ht.LENPEND, appendBytes_LENPEND, h.lenpend]
  · rw [ht.err, appendBytes_err, h.err]
  · rw [ht.LEN, hLEN, h.len, List.length_append, Nat.mul_add]
  · intro b hb
    rcases List.mem_append.1 hb with hb | hb
    · exact hfull b hb
    · rw [List.mem_singleton.1 hb, hblock]
  · rw [htail, hm]
    simp
  · rw [ht.H, toList_BUF_appendBytes_full hfit, appendBytes_H, List.foldl_append, ← hH, List.foldl_cons, List.foldl_nil]

end

/-! ## PUTMSG -/

/-- The transactions that put bytes into the message. -/
theorem stepOn_putb {s : State} {m : List Byte} (h : s.Absorbed m) (b : Byte) (hlen : 8 * (m.length + 1) ≤ LEN_MAX) :
    stepOn (.txn (assemble (.putb b))) s = .next (appendBytes [b] (s.begin [])) := by
  rw [stepOn_txn _ h.specified, decodeHT_putb]
  exact execPutb_accepted 0 b h.phase (by rw [begin_LEN, h.len]; omega)

theorem stepOn_putw {s : State} {m : List Byte} (h : s.Absorbed m) (b0 b1 b2 b3 : Byte) (hc : s.CNT.toNat % 4 = 0)
    (hlen : 8 * (m.length + 4) ≤ LEN_MAX) :
    stepOn (.txn (assemble (.putw (be32 b0 b1 b2 b3)))) s = .next (appendBytes [b0, b1, b2, b3] (s.begin [])) := by
  rw [stepOn_txn _ h.specified, decodeHT_putw, exec_putw, ← bytes32_be32]
  exact execPutw_accepted _ h.phase hc (by rw [begin_LEN, h.len]; omega)

/-- One accepted write of PUTMSG, and WAITIDLE if it completes the block. -/
theorem State.Absorbed.write {s : State} {m bs : List Byte} {o : AsmOp} {c : Nat} (h : s.Absorbed m)
    (hstep : stepOn (.txn (assemble o)) s = .next (appendBytes bs (s.begin []))) (hc : s.CNT.toNat + bs.length = c)
    (hfit : c ≤ 64) (hlen : 8 * (m.length + bs.length) ≤ LEN_MAX) :
    ∃ s', s'.Absorbed (m ++ bs) ∧ s'.CNT.toNat = wrapBlock c ∧
      ∀ ops, SameRuns s (.tx o :: (waitAtBlock c ++ ops)) s' ops := by
  subst hc
  have hwrite ops := sameRuns_write (ops := ops) h.busy hstep (appendBytes_rdata bs (s.begin []))
  rcases hfit.lt_or_eq with hlt | hfull
  · refine ⟨_, (h.begin []).appendBytes_partial hlt hlen, ?_, fun ops => ?_⟩
    · rw [(Machine.appendBytes_partial bs (s.begin []) hlt).1, begin_CNT, wrapBlock, if_neg hlt.ne]
    · rw [waitAtBlock, if_neg hlt.ne]
      exact hwrite ops
  · obtain ⟨r, hs, hr, hCNT⟩ := (h.begin []).settled_appendBytes_full hfull hlen
    refine ⟨_, hr.setRdata (some r.status), ?_, fun ops => ?_⟩
    · rw [State.setRdata_CNT, hCNT, wrapBlock, if_pos hfull]
      rfl
    · rw [waitAtBlock, if_pos hfull]
      exact (hwrite _).trans (sameRuns_waitIdle hs hr.busy hr.specified)

/-- `prog`, begun with `c` bytes in the current block, puts `bs` into the message. -/
def PutsIn (c : Nat) (prog : List HostOp) (bs : List Byte) : Prop :=
  ∀ (s : State) (m : List Byte) (ops : List HostOp), s.Absorbed m → s.CNT.toNat = c →
    8 * (m.length + bs.length) ≤ LEN_MAX → ∃ s', s'.Absorbed (m ++ bs) ∧ SameRuns s (prog ++ ops) s' ops

/-- A write, and what is put in after it. -/
theorem State.Absorbed.write_then {s : State} {m bs bs' : List Byte} {o : AsmOp} {c : Nat} {prog : List HostOp}
    (h : s.Absorbed m) (hstep : stepOn (.txn (assemble o)) s = .next (appendBytes bs (s.begin [])))
    (hc : s.CNT.toNat + bs.length = c) (hfit : c ≤ 64) (hlen : 8 * (m.length + (bs ++ bs').length) ≤ LEN_MAX)
    (hrest : PutsIn (wrapBlock c) prog bs') (ops : List HostOp) :
    ∃ s', s'.Absorbed (m ++ (bs ++ bs')) ∧ SameRuns s (.tx o :: (waitAtBlock c ++ prog) ++ ops) s' ops := by
  rw [List.length_append] at hlen
  obtain ⟨s₁, h₁, hc₁, hruns₁⟩ := h.write hstep hc hfit (by omega)
  obtain ⟨s₂, h₂, hruns₂⟩ := hrest s₁ (m ++ bs) ops h₁ hc₁ (by rw [List.length_append]; omega)
  rw [List.cons_append, List.append_assoc, ← List.append_assoc m]
  exact ⟨s₂, h₂, (hruns₁ _).trans hruns₂⟩

section
variable {c : Nat} {prog : List HostOp} {bs : List Byte}

theorem PutsIn.putb (hrest : PutsIn (wrapBlock (c + 1)) prog bs) (b : Byte) :
    PutsIn c (.tx (.putb b) :: (waitAtBlock (c + 1) ++ prog)) (b :: bs) := by
  intro s m ops h hc hlen
  have hlen₁ : 8 * (m.length + 1) ≤ LEN_MAX := by
    rw [List.length_cons] at hlen
    omega
  exact h.write_then (bs := [b]) (stepOn_putb h b hlen₁) (by rw [hc]; rfl) (by omega) hlen hrest ops

theorem PutsIn.putw (hrest : PutsIn (wrapBlock (c + 4)) prog bs) (hc : c % 4 = 0) (b0 b1 b2 b3 : Byte) :
    PutsIn c (.tx (.putw (be32 b0 b1 b2 b3)) :: (waitAtBlock (c + 4) ++ prog)) (b0 :: b1 :: b2 :: b3 :: bs) := by
  intro s m ops h hCNT hlen
  have hlen₄ : 8 * (m.length + 4) ≤ LEN_MAX := by
    simp only [List.length_cons] at hlen
    omega
  exact h.write_then (bs := [b0, b1, b2, b3]) (stepOn_putw h b0 b1 b2 b3 (hCNT ▸ hc) hlen₄) (by rw [hCNT]; rfl)
    (by omega) hlen hrest ops

/-- PUTMSG puts its bytes in, four at a time where it can. -/
theorem putsIn_putmsg (c : Nat) (bs : List Byte) : PutsIn c (putmsg c bs) bs := by
  fun_induction putmsg c bs with
  | case1 c => exact fun s m ops h _ _ => ⟨s, by rwa [List.append_nil], fun _ _ => Iff.rfl⟩
  | case2 c b0 b1 b2 b3 rest hc ih => exact ih.putw hc b0 b1 b2 b3
  | case3 c b0 b1 b2 b3 rest hc ih => exact ih.putb b0
  | case4 c b rest _ ih => exact ih.putb b

end

/-! ## FINAL and WAITIDLE -/

/-- The core is at rest with the digest in H, and there was no error. -/
structure State.Digested (s : State) (H : Vector Word 8) : Prop where
  phase : s.PHASE = Phase.DONE
  index : s.T = 0
  err : s.err = Errors.none
  digest : s.H = H

theorem State.Digested.busy {s : State} {H : Vector Word 8} (h : s.Digested H) : s.busy = false := busy_of_PHASE h.phase

theorem State.Digested.specified {s : State} {H : Vector Word 8} (h : s.Digested H) : ¬s.unspecified :=
  specified_of_T_zero h.phase (by decide) h.index

theorem State.Digested.begin {s : State} {H : Vector Word 8} (h : s.Digested H) (es : List Event) :
    (s.begin es).Digested H :=
  ⟨h.phase, h.index, h.err, h.digest⟩

theorem State.Digested.setRdata {s : State} {H : Vector Word 8} (h : s.Digested H) (v : Option Word) :
    (s.setRdata v).Digested H :=
  ⟨h.phase, h.index, h.err, h.digest⟩

/-! The hash state and the blocks are variables of their own, so that no proof about where the core rests unfolds them. -/

section
variable {s : State} {H : Vector Word 8} {b b' : List Byte} (hT : s.T = 0) (herr : s.err = Errors.none) (hH : s.H = H)
include hT herr hH

/-- From LOAD with the final block in BUF. -/
theorem settled_of_last_LOAD (hp : s.PHASE = Phase.LOAD) (hlast : s.LAST = true) (hb : s.BUF.toList = b) :
    ∃ d, s.settled = .next d ∧ d.Digested (Contract.compress H b) := by
  obtain ⟨t, hs, ht⟩ := settled_of_LOAD hp hT
  have hDONE : t.PHASE = Phase.DONE := ht.PHASE.trans (if_pos hlast)
  refine ⟨_, hs.trans (settled_of_not_busy (busy_of_PHASE hDONE)), State.Digested.begin ?_ []⟩
  exact ⟨hDONE, ht.T.trans hT, ht.err.trans herr, by rw [ht.H, hH, hb]⟩

/-- From PADLEN. -/
theorem settled_of_PADLEN (hp : s.PHASE = Phase.PADLEN) (hb : s.bufPadLen.toList = b) :
    ∃ d, s.settled = .next d ∧ d.Digested (Contract.compress H b) := by
  obtain ⟨t, hexec⟩ : ∃ t, execPadlen (s.begin []) = .next t := ⟨_, rfl⟩
  rw [settled_of_exec (i := .padlen) (by rw [hp, hT]; rfl) hexec]
  obtain ⟨v, hv, rfl⟩ := execPadlen_cases hexec
  have hblock : v.toList = b := by rw [hv, bufPadLen_congr (begin_LEN s []), hb]
  exact settled_of_last_LOAD (by simpa using hT) (by simpa using herr) (by simpa using hH) (by simp) (by simp)
    (by simpa using hblock)

/-- From LOAD with a block in BUF that the length-only block follows. -/
theorem settled_of_spill_LOAD (hp : s.PHASE = Phase.LOAD) (hlast : s.LAST = false) (hpend : s.LENPEND = true)
    (hb : s.BUF.toList = b) (hb' : s.bufPadLen.toList = b') :
    ∃ d, s.settled = .next d ∧ d.Digested (Contract.compress (Contract.compress H b) b') := by
  obtain ⟨t, hs, ht⟩ := settled_of_LOAD hp hT
  have hPADLEN : t.PHASE = Phase.PADLEN := by simp [ht.PHASE, State.afterFold, hlast, hpend]
  rw [hs]
  exact settled_of_PADLEN (ht.T.trans hT) (ht.err.trans herr) (by rw [ht.H, hH, hb]) hPADLEN
    (by rw [bufPadLen_congr ht.LEN, hb'])

/-- From PAD, through one padding block or two. -/
theorem settled_of_PAD (hp : s.PHASE = Phase.PAD) :
    ∃ d, s.settled = .next d ∧ d.Digested (s.padBlocks.foldl Contract.compress H) := by
  obtain ⟨t, hexec⟩ : ∃ t, execPad (s.begin []) = .next t := ⟨_, rfl⟩
  rw [settled_of_exec (i := .pad) (by rw [hp, hT]; rfl) hexec]
  rcases execPad_cases hexec with ⟨hfits, v, hv, rfl⟩ | ⟨hspill, v, hv, rfl⟩
  · rw [begin_CNT] at hfits
    rw [begin_bufPadFits] at hv
    rw [State.padBlocks, if_pos hfits, List.foldl_cons, List.foldl_nil]
    exact settled_of_last_LOAD (by simpa using hT) (by simpa using herr) (by simpa using hH) (by simp) (by simp)
      (by simp [hv])
  · rw [begin_CNT] at hspill
    rw [begin_bufPadSpill] at hv
    rw [State.padBlocks, if_neg hspill, List.foldl_cons, List.foldl_cons, List.foldl_nil]
    exact settled_of_spill_LOAD (by simpa using hT) (by simpa using herr) (by simpa using hH) (by simp) (by simp)
      (by simp) (by simp [hv]) (by rw [bufPadLen_congr]; simp)

end

/-- The blocks of the padded message: those already compressed, and those PAD and PADLEN make. -/
theorem State.Absorbed.finalState_eq {s : State} {m : List Byte} (h : s.Absorbed m) :
    Contract.finalState m = s.padBlocks.foldl Contract.compress s.H := by
  obtain ⟨blocks, hfull, hm, hH⟩ := h.blocks
  have hlast : m.length % 64 = s.CNT.toNat := by
    rw [hm, List.length_append, Contract.length_flatten_blocks hfull, length_tail]
    omega
  have hLEN : s.LEN = BitVec.ofNat 64 (8 * m.length) := by rw [← h.len, BitVec.ofNat_toNat, BitVec.setWidth_eq]
  have hpad : Contract.pad m = (blocks ++ s.padBlocks).flatten := by
    rw [List.flatten_append, flatten_padBlocks hlast, hLEN, ← List.append_assoc, ← hm, Contract.pad]
    simp
  rw [Contract.finalState_of_flatten (bs := blocks ++ s.padBlocks) ?_ hpad, List.foldl_append, hH]
  intro b hb
  exact (List.mem_append.1 hb).elim (hfull b) length_of_mem_padBlocks

theorem stepOn_final {s : State} {m : List Byte} (h : s.Absorbed m) :
    stepOn (.txn (assemble .final)) s = .next ((s.begin []).setPHASE Phase.PAD) := by
  rw [stepOn_txn _ h.specified, decodeHT_final, exec_final_eq_inOpen]
  exact inOpen_of_open (s := s.begin []) h.phase _

/-- FINAL and WAITIDLE end with the digest in H. -/
theorem State.Absorbed.final {s : State} {m : List Byte} (h : s.Absorbed m) (ops : List HostOp) :
    ∃ d, d.Digested (Contract.finalState m) ∧ SameRuns s (.tx .final :: .waitIdle :: ops) d ops := by
  obtain ⟨d, hs, hd⟩ := settled_of_PAD (s := (s.begin []).setPHASE Phase.PAD) h.index h.err rfl rfl
  refine ⟨d.setRdata (some d.status), ?_, ?_⟩
  · rw [h.finalState_eq]
    exact hd.setRdata _
  · exact (sameRuns_write h.busy (stepOn_final h) rfl).trans (sameRuns_waitIdle hs hd.busy hd.specified)

/-- From INIT on, a run of HASH is one of its eight reads from a state with the digest in H. -/
theorem State.Absorbed.hash {s : State} {m : List Byte} (h : s.Absorbed []) (hm : m.length < 2 ^ 61) :
    ∃ d, d.Digested (Contract.finalState m) ∧
      SameRuns s (putmsg 0 m ++ (.tx .final :: .waitIdle :: readDigest)) d readDigest := by
  have hCNT : s.CNT.toNat = 0 := by
    obtain ⟨bs, -, hnil, -⟩ := h.blocks
    rw [← length_tail, (List.append_eq_nil_iff.1 hnil.symm).2, List.length_nil]
  obtain ⟨s₁, h₁, hruns₁⟩ := putsIn_putmsg 0 m s [] (.tx .final :: .waitIdle :: readDigest) h hCNT
    (by rw [List.length_nil, LEN_MAX]; omega)
  obtain ⟨d, hd, hruns⟩ := h₁.final readDigest
  exact ⟨d, hd, hruns₁.trans hruns⟩

/-! ## The eight reads -/

theorem stepOn_rdig {s : State} {H : Vector Word 8} (h : s.Digested H) (k : BitVec 3) :
    stepOn (.txn (assemble (.rdig k))) s = .next ((s.begin []).setRdata (some H[k.toNat])) := by
  rw [stepOn_txn _ h.specified, decodeHT_rdig, exec_rdig, ← h.digest]
  rfl

/-- Reads of the digest return its words and leave it in H. -/
theorem State.Digested.of_reads {s t : State} {H : Vector Word 8} (h : s.Digested H) {ks : List (BitVec 3)}
    {vs : List Word} (hrun : HostRun s (ks.map fun k => .tx (.rdig k)) t vs) :
    t.Digested H ∧ vs = ks.map fun k => H[k.toNat] := by
  induction ks generalizing s vs with
  | nil =>
    obtain ⟨hvs, ht⟩ := hrun.nil_of_not_busy h.busy
    have hd := h.begin []
    rw [← ht] at hd
    exact ⟨⟨hd.phase, hd.index, hd.err, hd.digest⟩, hvs⟩
  | cons k ks ih =>
    obtain ⟨vs', hrun', rfl⟩ := (hostRun_tx_iff h.busy (stepOn_rdig h k)).1 hrun
    obtain ⟨ht, hvs'⟩ := ih ((h.begin []).setRdata _) hrun'
    exact ⟨ht, by rw [hvs']; rfl⟩

/-- Reads of the digest can be run to their end. -/
theorem State.Digested.hostRun_reads {s : State} {H : Vector Word 8} (h : s.Digested H) (ks : List (BitVec 3)) :
    ∃ t vs, HostRun s (ks.map fun k => .tx (.rdig k)) t vs := by
  induction ks generalizing s with
  | nil => exact ⟨s, [], .done s⟩
  | cons k ks ih =>
    obtain ⟨t, vs, hrun⟩ := ih ((h.begin []).setRdata _)
    exact ⟨t, _, .cons (.tx (stepOn_rdig h k)) hrun⟩

/-- The indices of RDIG 0, …, RDIG 7. -/
def digestIndices : List (BitVec 3) := (List.range 8).map (BitVec.ofNat 3)

theorem readDigest_eq_map : readDigest = digestIndices.map fun k => .tx (.rdig k) := by
  rw [readDigest, digestIndices, List.map_map]
  rfl

theorem map_digestIndices (H : Vector Word 8) : (digestIndices.map fun k => H[k.toNat]) = H.toList := by
  apply List.ext_getElem
  · simp [digestIndices]
  · intro i hi _
    have hi : i < 8 := by simpa [digestIndices] using hi
    simp [digestIndices, Nat.mod_eq_of_lt hi]

/-! ## HASH -/

/-- Settles O56: whatever came before INIT, the runs of HASH are from then on those of the eight reads from a state with
the digest in H. -/
theorem hashComputesSha256 : Obligations.HashComputesSha256 := by
  intro m s t vs hm _ hrun
  obtain ⟨u, s₁, vs', hinit, hrun₁, rfl⟩ := hrun.tx_cases
  rw [decodeHT_init] at hinit
  have h₁ := absorbed_of_init hinit
  have hquiet : s₁.rdata = none := by cases hinit; rfl
  obtain ⟨d, hd, hruns⟩ := h₁.hash hm
  have hreads := (hruns t vs').1 hrun₁
  rw [readDigest_eq_map] at hreads
  obtain ⟨ht, rfl⟩ := hd.of_reads hreads
  rw [map_digestIndices, hquiet, ht.digest]
  exact ⟨ht.phase, fun e => by rw [ht.err, Errors.get_none], rfl, rfl⟩

theorem specified_of_inv {s : State} (h : Inv s) : ¬s.unspecified :=
  (specified_iff s).2 ⟨h.phase_range, h.t_expand, h.t_zero⟩

/-- Settles O57: INIT is accepted in every specified state, and the reads, the only runs then left to find, can be run to
their end. -/
theorem hashCanBeRunToItsEnd : Obligations.HashCanBeRunToItsEnd := by
  intro m s hm hinv
  obtain ⟨s₁, hinit⟩ : ∃ s₁, execInit (s.begin []) = .next s₁ := ⟨_, rfl⟩
  have hstep : stepOn (.txn (assemble .init)) s = .next s₁ := by
    rw [stepOn_txn _ (specified_of_inv hinv), decodeHT_init, exec_init, hinit]
  obtain ⟨d, hd, hruns⟩ := (absorbed_of_init hinit).hash hm
  obtain ⟨t, vs, hreads⟩ := hd.hostRun_reads digestIndices
  rw [← readDigest_eq_map] at hreads
  exact ⟨t, _, .cons (.tx hstep) ((hruns t vs).2 hreads)⟩

end Sys2Proof.Machine
end

section
/-! Error bits (O29 to O31; 60_exceptions.md R231, R236, R238, R243): the micro-operations leave them, a transaction is its
list of checks with what it does where none applies, and a step sets one of them or clears all five. -/

namespace Sys2Proof.Machine

/-! ## The core -/

/-- Settles O31: each micro-operation answers a next state, EXPAND because its `t` is in range, and the updates it is made of
leave the error bits. -/
theorem datapathRaisesNothing : Obligations.DatapathRaisesNothing := by
  intro i s hi hwf
  cases i with
  | pad =>
    rcases Nat.lt_or_ge 55 s.CNT.toNat with hc | hc
    · exact ⟨_, execPad_of_lt_CNT s hc, rfl⟩
    · exact ⟨_, execPad_of_CNT_le s hc, rfl⟩
  | padlen => exact ⟨_, execPadlen_next s, rfl⟩
  | load => exact ⟨_, execLoad_next s, by simp⟩
  | expand t => exact ⟨_, execExpand_next ((Laws.wf_expand_iff t).1 hwf), nextIndex_err ..⟩
  | winit => exact ⟨_, execWinit_next s, by simp⟩
  | round t => exact ⟨_, rfl, nextIndex_err ..⟩
  | fold => exact ⟨_, execFold_next s, by simp⟩
  | _ => cases hi

theorem exec_microOperation_err {i : Instr} {s t : State} (hi : i.isHost = false) (hwf : i.wf = true)
    (h : exec i s = .next t) : t.err = s.err := by
  obtain ⟨u, hu, herr⟩ := datapathRaisesNothing i s hi hwf
  cases hu.symm.trans h
  exact herr

theorem coreTurn_err {s t : State} (h : coreTurn s = .next t) : t.err = s.err := by
  rcases coreTurn_cases h with ⟨rfl, -⟩ | ⟨-, -, h⟩ | ⟨-, -, h⟩ | ⟨-, -, h⟩ | ⟨-, hT, h⟩ | ⟨-, -, h⟩ | ⟨-, h⟩ | ⟨-, -, h⟩
  · rfl
  · exact exec_microOperation_err (i := .pad) rfl rfl h
  · exact exec_microOperation_err (i := .padlen) rfl rfl h
  · exact exec_microOperation_err (i := .load) rfl rfl h
  · exact exec_microOperation_err (i := .expand s.T) rfl ((Laws.wf_expand_iff _).2 hT) h
  · exact exec_microOperation_err (i := .winit) rfl rfl h
  · exact exec_microOperation_err (i := .round s.T) rfl rfl h
  · exact exec_microOperation_err (i := .fold) rfl rfl h

/-! ## A transaction -/

/-- `r` after the checks, each of which raises its error where its condition holds. -/
def afterChecks (checks : List (Bool × ErrBit)) (s : State) (r : Result) : Result :=
  checks.foldr (fun c r => if c.1 then raise c.2 s else r) r

/-- The first check whose condition holds decides. -/
theorem afterChecks_eq_elim (checks : List (Bool × ErrBit)) (s : State) (r : Result) :
    afterChecks checks s r = ((checks.find? (·.1)).map (·.2)).elim r (raise · s) := by
  induction checks with
  | nil => rfl
  | cons c checks ih =>
    obtain ⟨holds, e⟩ := c
    cases holds with
    | true => rfl
    | false => exact ih

/-- Any transaction but INIT makes its checks in the order of R236, and past them leaves the error bits. -/
theorem exec_eq_afterChecks {i : Instr} (s : State) (hi : i.isHost = true) (hne : i ≠ .init) :
    ∃ t, exec i s = afterChecks (errorChecks i s) s (.next t) ∧ t.err = s.err := by
  cases i with
  | init => exact absurd rfl hne
  | illcmd v => exact ⟨s, rfl, rfl⟩
  | final =>
    refine ⟨s.setPHASE Phase.PAD, ?_, rfl⟩
    rw [exec_final_eq_inOpen, inOpen]
    simp [afterChecks, errorChecks]
  | putb x b =>
    refine ⟨appendBytes [b] s, ?_, appendBytes_err ..⟩
    rw [exec_putb_eq_inOpen, inOpen]
    simp [afterChecks, errorChecks]
  | putw w =>
    refine ⟨appendBytes (bytes32 w) s, ?_, appendBytes_err ..⟩
    rw [exec_putw_eq_inOpen, inOpen]
    simp [afterChecks, errorChecks]
  | nop | wignStatus | wignLenRsv | wignDigest | rdctrl | rstat | rddata | rlenlo | rlenhi | rrsv | rdig =>
    exact ⟨_, rfl, rfl⟩
  | pad | padlen | load | expand | winit | round | fold => cases hi

/-- Any transaction but INIT raises its first error or, where there is none, leaves the error bits. -/
theorem exec_eq_elim_firstError {i : Instr} (s : State) (hi : i.isHost = true) (hne : i ≠ .init) :
    ∃ t, exec i s = (firstError i s).elim (.next t) (raise · s) ∧ t.err = s.err := by
  obtain ⟨t, h, herr⟩ := exec_eq_afterChecks s hi hne
  exact ⟨t, h.trans (afterChecks_eq_elim ..), herr⟩

/-- Settles O29: a transaction is its first error or what it does without one; INIT writes `Errors.none`. -/
theorem firstErrorAlone : Obligations.FirstErrorAlone := by
  refine ⟨fun i s hi hne => ?_, fun err e e' => ?_, fun s => ⟨_, rfl, Errors.get_none⟩⟩
  · obtain ⟨t, h, herr⟩ := exec_eq_elim_firstError s hi hne
    rw [h]
    refine ⟨fun e he => ?_, fun hnone => ?_⟩
    · rw [he]
      rfl
    · rw [hnone]
      exact ⟨t, rfl, herr⟩
  · rw [Errors.get_set, decide_eq_decide.2 eq_comm]

/-! ## A step -/

/-- A transaction's checks look neither at the events to come nor at the read port. -/
theorem firstError_begin (i : Instr) (s : State) (rest : List Event) : firstError i (s.begin rest) = firstError i s := by
  cases i <;> rfl

theorem exec_host_err {i : Instr} {s t : State} (hi : i.isHost = true) (hne : i ≠ .init) (h : exec i s = .next t) :
    t.err = (firstError i s).elim s.err s.err.set := by
  obtain ⟨u, hu, herr⟩ := exec_eq_elim_firstError s hi hne
  rw [hu] at h
  revert h
  cases firstError i s with
  | none =>
    rintro ⟨⟩
    exact herr
  | some e =>
    rintro ⟨⟩
    rfl

theorem presented_of_coreNext {s : State} (h : s.coreNext = true) : s.presented = none ∧ s.resetNext = false := by
  unfold State.coreNext at h
  unfold State.presented State.resetNext
  generalize s.inputs = es at h ⊢
  cases es with
  | nil => exact ⟨rfl, rfl⟩
  | cons e rest =>
    cases e with
    | core => exact ⟨rfl, rfl⟩
    | txn | access | reset => cases h

theorem presented_of_resetNext {s : State} (h : s.resetNext = true) : s.presented = none := by
  unfold State.resetNext at h
  unfold State.presented
  generalize s.inputs = es at h ⊢
  cases es with
  | nil => cases h
  | cons e rest =>
    cases e with
    | reset p => rfl
    | core | txn | access => cases h

/-- What a step can do to the error bits: an INIT or a reset clears them; any other transaction sets its first error, if it
has one, and the core's turn leaves them. -/
theorem step_err_cases {s t : State} (h : step s = .next t) :
    ((s.presented = some .init ∨ s.resetNext = true) ∧ t.err = Errors.none) ∨
    (¬(s.presented = some .init ∨ s.resetNext = true) ∧
      t.err = (s.presented.bind (firstError · s)).elim s.err s.err.set) := by
  rcases step_cases h with ⟨p, hi, rfl⟩ | ⟨hc, -, h⟩ | ⟨w, hp, -, h⟩
  · refine .inl ⟨.inr ?_, rfl⟩
    rw [State.resetNext, hi]
    rfl
  · obtain ⟨hnone, hr⟩ := presented_of_coreNext hc
    rw [hnone, hr]
    exact .inr ⟨by simp, coreTurn_err (s := s.begin s.inputs.tail) h⟩
  · rw [hp]
    have hr : s.resetNext = false := Bool.eq_false_iff.2 fun hr => by cases hp.symm.trans (presented_of_resetNext hr)
    rw [hr]
    by_cases hinit : decodeHT w = .init
    · rw [hinit] at h ⊢
      cases h
      exact .inl ⟨.inl rfl, rfl⟩
    · refine .inr ⟨by simpa using hinit, ?_⟩
      rw [exec_host_err (Laws.decodeHT_isHost w) hinit h, firstError_begin]
      rfl

/-- Settles O30: by `step_err_cases`; INIT and a step without a transaction have no first error. -/
theorem errorBitsCleared : Obligations.ErrorBitsCleared := by
  intro s t h
  rcases step_err_cases h with ⟨hclears, herr⟩ | ⟨hkeeps, herr⟩
  · refine ⟨fun i e hp _ hfirst => ?_, fun _ _ _ => hclears, fun _ e => by rw [herr, Errors.get_none]⟩
    rcases hclears with hinit | hreset
    · cases hp.symm.trans hinit
      cases hfirst
    · cases hp.symm.trans (presented_of_resetNext hreset)
  · refine ⟨fun i e hp _ hfirst e' => ?_, fun e hset hclear => ?_, fun hclears => absurd hclears hkeeps⟩
    · have hraised : t.err = s.err.set e := by
        rw [herr, hp, Option.bind_some, hfirst]
        rfl
      rw [hraised, Errors.get_set, Bool.or_eq_true, decide_eq_true_iff, eq_comm]
    · have hstays : t.err.get e = true := by
        rw [herr]
        cases s.presented.bind (firstError · s) with
        | none => exact hset
        | some x => exact Errors.get_set_of_get hset
      cases hclear.symm.trans hstays

end Sys2Proof.Machine
end

section
/-! The round trips between instructions and words (O1, O2; 30_encoding.md R81 to R85). -/

namespace Sys2Proof.Laws

/-- Settles O1: in either format, the word the encoder gives decodes to the instruction. -/
theorem decodeEncodeRoundTrip : Obligations.DecodeEncodeRoundTrip := by
  intro i hwf
  cases h : encode i with
  | ht w => exact congrArg Except.ok (decodeHT_of_encode hwf h)
  | seq q => exact decodeSEQ_of_encode hwf h

/-- Every instruction of a sequencer word is well formed and has that word. -/
theorem encode_of_decodeSEQ {q : SeqWord} {i : Instr} (h : decodeSEQ q = .ok i) : i.wf = true ∧ encode i = .seq q := by
  obtain ⟨p, t, rfl⟩ : ∃ p t, q = seqWord p t := ⟨_, _, (seqWord_fields q).symm⟩
  rw [decodeSEQ_seqWord] at h
  rcases Machine.decodePhaseT_ok h with ⟨rfl, rfl, rfl⟩ | ⟨rfl, rfl, rfl⟩ | ⟨rfl, rfl, rfl⟩ | ⟨rfl, ht, rfl⟩ |
    ⟨rfl, rfl, rfl⟩ | ⟨rfl, rfl⟩ | ⟨rfl, rfl, rfl⟩
  case inr.inr.inr.inl => exact ⟨(wf_expand_iff t).2 ht, rfl⟩
  all_goals exact ⟨rfl, rfl⟩

/-- Settles O2: format by format. -/
theorem encodeDecodeRoundTrip : Obligations.EncodeDecodeRoundTrip := by
  intro e i h
  cases e with
  | ht w =>
    cases h
    exact encode_decodeHT w
  | seq q => exact encode_of_decodeSEQ h

end Sys2Proof.Laws
end

section
/-! Bits of a word that have no meaning (O28), and words written out (O6, O7; 30_encoding.md R83 to R88). -/

namespace Sys2Proof.Machine

/-! ## Bits without a meaning -/

/-- No meaning of a read looks at DATA. -/
theorem exec_decodeRead_congr (off : BitVec 4) (d d' : Word) (s : State) :
    exec (decodeRead off d) s = exec (decodeRead off d') s := by
  rcases Laws.readOffset_cases off with rfl | rfl | ⟨o, rfl⟩ | rfl | rfl | ⟨o, rfl⟩ | ⟨k, rfl⟩
  · rfl
  · rfl
  · rw [Laws.decodeRead_data, Laws.decodeRead_data]
    rfl
  · rfl
  · rfl
  · rw [Laws.decodeRead_rsv, Laws.decodeRead_rsv]
    rfl
  · rw [Laws.decodeRead_digest, Laws.decodeRead_digest]
    rfl

/-- PUTB looks at DATA[7:0] alone. -/
theorem exec_decodeWrite_putb_congr {d d' : Word} (h : d.extractLsb' 0 8 = d'.extractLsb' 0 8) (s : State) :
    exec (decodeWrite 0b0010 d) s = exec (decodeWrite 0b0010 d') s :=
  congrArg (fun b => execPutb 0 b s) h

/-- No meaning of a write to STATUS, LEN_LO, LEN_HI, a reserved offset or DIGESTk looks at DATA. -/
theorem exec_decodeWrite_congr {off : BitVec 4} (h : off = 0b0001 ∨ 4 ≤ off.toNat) (d d' : Word) (s : State) :
    exec (decodeWrite off d) s = exec (decodeWrite off d') s := by
  rcases Laws.writeOffset_cases off with rfl | rfl | rfl | rfl | ⟨o, rfl⟩ | ⟨k, rfl⟩
  · simp at h
  · rfl
  · simp at h
  · simp at h
  · rw [Laws.decodeWrite_lenRsv, Laws.decodeWrite_lenRsv]
    rfl
  · rw [Laws.decodeWrite_digest, Laws.decodeWrite_digest]
    rfl

/-- Settles O28: each kind of ignored bits by its lemma; with RW = 0 the word is a read, whatever its offset. -/
theorem ignoredBitsDoNotMatter : Obligations.IgnoredBitsDoNotMatter := by
  intro s rw off d d' h
  rw [Laws.decodeHT_htWord, Laws.decodeHT_htWord]
  split
  · rename_i hrw
    rcases h with h0 | h1 | h4 | ⟨rfl, hb⟩
    · rw [hrw] at h0
      cases h0
    · exact exec_decodeWrite_congr (.inl h1) d d' s
    · exact exec_decodeWrite_congr (.inr h4) d d' s
    · exact exec_decodeWrite_putb_congr hb s
  · exact exec_decodeRead_congr off d d' s

/-! ## Words written out -/

/-- Settles O6: the decoder evaluated at each of the twelve words. -/
theorem sampleWordsDecode : Obligations.SampleWordsDecode := by
  unfold Obligations.SampleWordsDecode
  decide

/-- Settles O7: an operation's word is that of the instruction named, or has the fields it was assembled from. -/
theorem assemblerWordsDecode : Obligations.AssemblerWordsDecode :=
  ⟨Laws.decodeHT_of_encode rfl rfl, decodeHT_init, decodeHT_final, decodeHT_putb, decodeHT_putw, decodeHT_rstat,
    Laws.decodeHT_of_encode rfl rfl, Laws.decodeHT_of_encode rfl rfl, decodeHT_rdig,
    fun off v => ⟨Laws.htRW_htWord 1 off v, Laws.htOFF_htWord 1 off v, Laws.htDATA_htWord 1 off v⟩,
    fun off => ⟨Laws.htRW_htWord 0 off 0, Laws.htOFF_htWord 0 off 0, Laws.htDATA_htWord 0 off 0⟩⟩

end Sys2Proof.Machine
end

section
/-! Arithmetic of the padding (O36; 42_padder.md R162, R164), and the rotations, shifts and round constants (O37, O41;
40_primitives.md R100 to R110). -/

namespace Sys2Proof.Machine

/-- Settles O36: the two cases of `zeros` differ in whether the length field still fits into the last block. -/
theorem paddingLength : Obligations.PaddingLength := by
  refine ⟨fun n => ⟨?_, fun z hz => ?_⟩, Contract.length_pad, fun n => ?_⟩
  · unfold Contract.zeros
    split <;> omega
  · unfold Contract.zeros
    split <;> omega
  · unfold Contract.blockCount
    omega

/-- The bits shifted out on the right come back on the left. -/
theorem getLsbD_rotr {n : Nat} (h : 0 < n ∧ n < 32) (x : Word) {i : Nat} (hi : i < 32) :
    (rotr n h x).getLsbD i = x.getLsbD ((i + n) % 32) := by
  rw [rotr, BitVec.getLsbD_or, BitVec.getLsbD_ushiftRight, BitVec.getLsbD_shiftLeft]
  by_cases hlow : i + n < 32
  · rw [Nat.mod_eq_of_lt hlow]
    simp [show i < 32 - n by omega, Nat.add_comm]
  · rw [Nat.mod_eq_sub_mod (by omega), Nat.mod_eq_of_lt (by omega), BitVec.getLsbD_of_ge x (n + i) (by omega)]
    simp [hi, show ¬i < 32 - n by omega, show i - (32 - n) = i + n - 32 by omega]

theorem getLsbD_shr (n : Nat) (x : Word) (i : Nat) :
    (shr n x).getLsbD i = (decide (i + n < 32) && x.getLsbD (i + n)) := by
  rw [shr, BitVec.getLsbD_ushiftRight, Nat.add_comm]
  by_cases h : i + n < 32
  · simp [h]
  · simp [h, BitVec.getLsbD_of_ge x (i + n) (by omega)]

/-- Settles O37: the exclusive or is taken bit by bit, each operand by `getLsbD_rotr` or `getLsbD_shr`. -/
theorem rotateAndShiftBits : Obligations.RotateAndShiftBits := by
  refine ⟨fun n h x i hi => getLsbD_rotr h x hi, getLsbD_shr, fun x i hi => ⟨?_, ?_, ?_, ?_⟩⟩
  · simp only [bigSigma0, BitVec.getLsbD_xor, getLsbD_rotr _ _ hi]
  · simp only [bigSigma1, BitVec.getLsbD_xor, getLsbD_rotr _ _ hi]
  · simp only [smallSigma0, BitVec.getLsbD_xor, getLsbD_rotr _ _ hi, getLsbD_shr]
  · simp only [smallSigma1, BitVec.getLsbD_xor, getLsbD_rotr _ _ hi, getLsbD_shr]

/-- Settles O41: the cubes of 64 numbers of 35 bits, compared. -/
theorem roundConstantsAreCubeRoots : Obligations.RoundConstantsAreCubeRoots := by
  unfold Obligations.RoundConstantsAreCubeRoots
  decide

end Sys2Proof.Machine
end

section
/-! What a step runs (O8 to O11, O47; 20_memory.md R60; 30_encoding.md R80; 70_reset_and_hazards.md R260). -/

namespace Sys2Proof.Machine

/-! ## The event of a step -/

/-- Settles O8: the transaction's event acts in a state with a specified sequencer state. -/
theorem stepRunsTransaction : Obligations.StepRunsTransaction := by
  intro s w rest hspec hinputs
  rw [step_txn hinputs, inSpecified_of_specified hspec]
  rfl

/-- The core's turn is the micro-operation its sequencer word decodes to. -/
theorem step_of_decodeSEQ {s : State} {i : Instr} (hc : s.coreNext = true)
    (hd : decodeSEQ (seqWord s.PHASE s.T) = .ok i) : step s = exec i (s.begin s.inputs.tail) := by
  rw [step_of_coreNext hc, inSpecified, seqSpecified, coreTurn, begin_seqWord, State.seqWord, hd]
  rfl

/-- The core's turn is idle in a sequencer state without a micro-operation. -/
theorem step_of_noMicroOp {s : State} (hc : s.coreNext = true)
    (hd : decodeSEQ (seqWord s.PHASE s.T) = .error .noMicroOp) : step s = .next (s.begin s.inputs.tail) := by
  rw [step_of_coreNext hc, inSpecified, seqSpecified, coreTurn, begin_seqWord, State.seqWord, hd]
  rfl

/-- Settles O9: the two kinds of core turn. -/
theorem stepRunsMicroOperation : Obligations.StepRunsMicroOperation := fun _ hc =>
  ⟨fun _ => step_of_decodeSEQ hc, step_of_noMicroOp hc⟩

/-! ## Placed words -/

theorem decodeTableWord_eq_some {nbits w : Nat} {i : Instr} (h : decodeTableWord nbits w = some i) :
    ∃ e, tableWord nbits w = some e ∧ decode e = .ok i := by
  unfold decodeTableWord at h
  cases hw : tableWord nbits w with
  | none => simp [hw] at h
  | some e =>
    cases hd : decode e with
    | error r => simp [hw, hd] at h
    | ok j =>
      obtain rfl : j = i := by simpa [hw, hd] using h
      exact ⟨e, rfl, hd⟩

theorem tableWord_eq_some {nbits w : Nat} {e : Encoded} (h : tableWord nbits w = some e) :
    e = .seq (BitVec.ofNat 10 w) ∨ e = .ht (BitVec.ofNat 37 w) := by
  unfold tableWord at h
  split_ifs at h
  · exact .inl (Option.some.inj h).symm
  · exact .inr (Option.some.inj h).symm

/-- A number that decodes is the word of its format, a sequencer word or an HT word. -/
theorem decodeTableWord_cases {nbits w : Nat} {i : Instr} (h : decodeTableWord nbits w = some i) :
    (tableWord nbits w = some (.seq (BitVec.ofNat 10 w)) ∧ decodeSEQ (BitVec.ofNat 10 w) = .ok i) ∨
    (tableWord nbits w = some (.ht (BitVec.ofNat 37 w)) ∧ decodeHT (BitVec.ofNat 37 w) = i) := by
  obtain ⟨e, hw, hd⟩ := decodeTableWord_eq_some h
  rcases tableWord_eq_some hw with rfl | rfl
  · exact .inl ⟨hw, hd⟩
  · exact .inr ⟨hw, Except.ok.inj hd⟩

theorem isHost_of_encode_seq {i : Instr} {q : SeqWord} (h : encode i = .seq q) : i.isHost = false := by
  cases i with
  | pad | padlen | load | expand | winit | round | fold => rfl
  | _ => cases h

/-- Settles O10: a placed sequencer word is a core turn, with the word's PHASE and T, and a placed HT word the next
transaction. -/
theorem stepRunsPlacedWord : Obligations.StepRunsPlacedWord := by
  intro s nbits w i h
  unfold State.withFetchWord
  rcases decodeTableWord_cases h with ⟨hw, hd⟩ | ⟨hw, rfl⟩
  · obtain ⟨-, henc⟩ := Laws.encode_of_decodeSEQ hd
    have hcore := isHost_of_encode_seq henc
    rw [hw]
    refine ⟨fun hhost => absurd (hcore.symm.trans hhost) (by decide), fun _ => ⟨henc, ?_⟩⟩
    exact step_of_decodeSEQ (s := s.place (.seq (BitVec.ofNat 10 w))) rfl
      (by rw [← hd, ← Laws.seqWord_fields (BitVec.ofNat 10 w)]; simp [State.place])
  · have hhost := Laws.decodeHT_isHost (BitVec.ofNat 37 w)
    rw [hw]
    refine ⟨fun _ hspec => ?_, fun hcore => absurd (hcore.symm.trans hhost) (by decide)⟩
    exact stepRunsTransaction (s.place (.ht (BitVec.ofNat 37 w))) (BitVec.ofNat 37 w) s.inputs hspec rfl

/-! ## Reset -/

/-- Settles O11: the registers are those of `State.reset`, and `resetRdata` is 0 for a read. -/
theorem resetEdge : Obligations.ResetEdge := by
  intro s presented rest hinputs
  refine ⟨_, step_reset hinputs, rfl, rfl, rfl, rfl, rfl, rfl, rfl, Errors.get_none, rfl, ?_⟩
  rintro w rfl hrw
  exact if_pos hrw

/-- Settles O47: the registers by evaluation; the core's turn in IDLE is idle. -/
theorem afterReset : Obligations.AfterReset :=
  ⟨rfl, rfl, rfl, rfl, by decide, by decide, by decide, by decide, Errors.get_none, fun k x => exec_rdig _ k x,
    (stepRunsMicroOperation State.reset rfl).2 rfl⟩

end Sys2Proof.Machine
end

section
/-! Four PUTB for one PUTW (O20; 20_memory.md R55): bytes may be appended one at a time. -/

namespace Sys2Proof.Machine

/-- Bytes appended in two parts, the first of which leaves the block incomplete. -/
theorem appendBytes_append {bs cs : List Byte} {s : State} (hbs : s.CNT.toNat + bs.length < 64) :
    appendBytes cs (appendBytes bs s) = appendBytes (bs ++ cs) s := by
  obtain ⟨hCNT, hPHASE⟩ := appendBytes_partial bs s hbs
  apply State.eq_of_fields
  case h4 =>
    ext1 i hi
    simp only [appendBytes_BUF, getElem_bufAppend, hCNT, List.length_append]
    grind
  case h5 =>
    rw [appendBytes_CNT cs, hCNT, appendBytes_CNT bs, appendBytes_CNT (bs ++ cs), List.length_append, ← Nat.add_assoc,
      if_neg hbs.ne, BitVec.ofNat_add, BitVec.add_assoc]
  case h6 => simp [Nat.mul_add, BitVec.ofNat_add, BitVec.add_assoc]
  case h7 =>
    rw [appendBytes_PHASE cs, hCNT, hPHASE, appendBytes_PHASE (bs ++ cs), List.length_append, ← Nat.add_assoc]
  all_goals simp

/-- PUTB behind bytes that leave the block incomplete: one more byte appended. -/
theorem exec_putb_next (b : Byte) (bs : List Byte) {s : State} (hp : s.PHASE = Phase.OPEN)
    (hfit : s.CNT.toNat + bs.length < 64) (hlen : s.LEN.toNat + 8 * (bs.length + 1) ≤ LEN_MAX) :
    exec (.putb 0 b) (appendBytes bs s) = .next (appendBytes (bs ++ [b]) s) := by
  obtain ⟨-, hPHASE⟩ := appendBytes_partial bs s hfit
  have hLEN := appendBytes_LEN_of_le_LEN_MAX (s := s) (bs := bs) (by omega)
  rw [exec_putb, execPutb_accepted 0 b (hPHASE.trans hp) (by omega), appendBytes_append hfit]

/-- Settles O20: after k of the four PUTB the state is the one with the first k bytes appended. -/
theorem putwIsFourPutb : Obligations.PutwIsFourPutb := by
  intro w s hp hc hlen
  have hlen' : s.LEN.toNat + 32 ≤ LEN_MAX := hlen
  exact ⟨_, _, _, _, execPutb_accepted 0 _ hp (by omega), exec_putb_next _ [_] hp (by simp; omega) (by simp; omega),
    exec_putb_next _ [_, _] hp (by simp; omega) (by simp; omega),
    exec_putb_next _ [_, _, _] hp (by simp; omega) (by simp; omega), execPutw_accepted w hp hc hlen'⟩

end Sys2Proof.Machine
end

section
/-! Which steps move the sequencer (O32) and which instructions write a register (O33;
10_state.md R22 to R30). -/

namespace Sys2Proof.Machine

/-- FOLD, by LAST and LENPEND. -/
theorem seqEdge_of_fold {s t : State} (hc : s.coreNext = true) (hp : s.PHASE = Phase.FOLD)
    (hPHASE : t.PHASE = s.afterFold) (hT : t.T = s.T) : SeqEdge s t := by
  unfold State.afterFold at hPHASE
  cases hlast : s.LAST with
  | true => exact .foldDone hc ⟨hp, hlast⟩ ⟨by simpa [hlast] using hPHASE, hT⟩
  | false =>
    cases hpend : s.LENPEND with
    | true => exact .foldPadlen hc ⟨hp, hlast, hpend⟩ ⟨by simpa [hlast, hpend] using hPHASE, hT⟩
    | false => exact .foldOpen hc ⟨hp, hlast, hpend⟩ ⟨by simpa [hlast, hpend] using hPHASE, hT⟩

/-- The core's turn moves the sequencer along its rows. -/
theorem seqEdge_of_coreTurn {s t : State} (hc : s.coreNext = true) (h : coreTurn (s.begin s.inputs.tail) = .next t) :
    (t.PHASE = s.PHASE ∧ t.T = s.T) ∨ SeqEdge s t := by
  rcases coreTurn_cases h with ⟨rfl, -⟩ | ⟨hp, -, h⟩ | ⟨hp, -, h⟩ | ⟨hp, -, h⟩ | ⟨hp, -, h⟩ | ⟨hp, -, h⟩ | ⟨hp, h⟩ |
    ⟨hp, -, h⟩
  · exact .inl ⟨rfl, rfl⟩
  · rcases execPad_cases h with ⟨-, v, -, rfl⟩ | ⟨-, v, -, rfl⟩ <;> exact .inr (.pad hc hp ⟨by simp, by simp⟩)
  · obtain ⟨v, -, rfl⟩ := execPadlen_cases h
    exact .inr (.padlen hc hp ⟨by simp, by simp⟩)
  · obtain ⟨v, -, rfl⟩ := execLoad_cases h
    exact .inr (.load hc hp ⟨rfl, rfl⟩)
  · obtain ⟨-, v, -, rfl⟩ := execExpand_cases h
    by_cases hT : s.T = 63
    · exact .inr (.expandEnd hc ⟨hp, hT⟩ (nextIndex_of_last _ _ hT).symm)
    · obtain ⟨hT', hp'⟩ := nextIndex_of_not_last ((s.begin s.inputs.tail).setW v) Phase.WINIT hT
      exact .inr (.expand hc ⟨hp, (toNat_index_succ hT).2⟩ ⟨hp'.trans hp, hT'⟩)
  · obtain ⟨v, -, rfl⟩ := execWinit_cases h
    exact .inr (.winit hc hp ⟨rfl, rfl⟩)
  · obtain ⟨v, -, rfl⟩ := execRound_cases h
    by_cases hT : s.T = 63
    · exact .inr (.roundEnd hc ⟨hp, hT⟩ (nextIndex_of_last _ _ hT).symm)
    · obtain ⟨hT', hp'⟩ := nextIndex_of_not_last ((s.begin s.inputs.tail).setWr v) Phase.FOLD hT
      exact .inr (.round hc ⟨hp, (toNat_index_succ hT).2⟩ ⟨hp'.trans hp, hT'⟩)
  · obtain ⟨v, -, rfl⟩ := execFold_cases h
    exact .inr (seqEdge_of_fold hc hp rfl rfl)

/-- INIT, an accepted FINAL and a completed block move the sequencer, other transactions leave it. -/
theorem seqEdge_of_transaction {s t : State} {w : HTWord} (hi : s.presented = some (decodeHT w))
    (h : exec (decodeHT w) (s.begin s.inputs.tail) = .next t) : (t.PHASE = s.PHASE ∧ t.T = s.T) ∨ SeqEdge s t := by
  rcases exec_host_cases (Laws.decodeHT_isHost w) h with rfl | ⟨v, rfl⟩ | ⟨e, rfl⟩ | ⟨hinit, h⟩ | ⟨hfinal, hp, rfl⟩ |
    ⟨bs, hp, -, rfl, hput⟩
  · exact .inl ⟨rfl, rfl⟩
  · exact .inl ⟨rfl, rfl⟩
  · exact .inl ⟨rfl, rfl⟩
  · rw [hinit] at hi
    cases h
    exact .inr (.init hi ⟨rfl, rfl⟩)
  · rw [hfinal] at hi
    exact .inr (.final hi hp ⟨rfl, rfl⟩)
  · have hT := appendBytes_T bs (s.begin s.inputs.tail)
    by_cases hfull : s.CNT.toNat + bs.length = 64
    · have hPHASE := (appendBytes_full bs (s.begin s.inputs.tail) hfull).2
      refine .inr (.filled ?_ hp ⟨hPHASE, hT⟩)
      rcases hput with ⟨x, b, hputb, rfl⟩ | ⟨w', hputw, rfl, -⟩
      · have hCNT : s.CNT.toNat = 63 := Nat.add_right_cancel (m := 1) hfull
        exact .inl ⟨x, b, hi.trans (congrArg some hputb), BitVec.eq_of_toNat_eq hCNT⟩
      · have hCNT : s.CNT.toNat = 60 := Nat.add_right_cancel (m := 4) hfull
        exact .inr ⟨w', hi.trans (congrArg some hputw), BitVec.eq_of_toNat_eq hCNT⟩
    · exact .inl ⟨(appendBytes_PHASE bs _).trans (if_neg hfull), hT⟩

/-- Settles O32: reset, the core's turn, or a transaction. -/
theorem sequencerTransitions : Obligations.SequencerTransitions := by
  intro s t h
  rcases step_cases h with ⟨p, hi, rfl⟩ | ⟨hc, -, h⟩ | ⟨w, hi, -, h⟩
  · refine .inr (.reset ?_ ⟨rfl, rfl⟩)
    rw [State.resetNext, hi]
    rfl
  · exact seqEdge_of_coreTurn hc h
  · exact seqEdge_of_transaction hi h

/-- Settles O33: by what each instruction can do; a register none of its updates names is unchanged. -/
theorem registerWriters : Obligations.RegisterWriters := by
  intro i s t h
  cases hi : i.isHost with
  | true =>
    rcases exec_host_cases hi h with rfl | ⟨v, rfl⟩ | ⟨e, rfl⟩ | ⟨rfl, h⟩ | ⟨rfl, -, rfl⟩ |
      ⟨bs, -, -, rfl, ⟨x, b, rfl, -⟩ | ⟨w, rfl, -⟩⟩
    case inr.inr.inr.inl =>
      cases h
      simp
    all_goals simp
  | false =>
    cases i with
    | pad => rcases execPad_cases h with ⟨-, v, -, rfl⟩ | ⟨-, v, -, rfl⟩ <;> simp
    | padlen =>
      obtain ⟨v, -, rfl⟩ := execPadlen_cases h
      simp
    | load =>
      obtain ⟨v, hv, rfl⟩ := execLoad_cases h
      have hkept (j : Nat) (hj : j < 64) (hne : v[j] ≠ s.W[j]) : j < 16 := by
        by_contra hlt
        exact hne (by simp only [hv]; exact getElem_parsedW_high s j hj hlt)
      simpa using hkept
    | expand n =>
      obtain ⟨hn, v, hv, rfl⟩ := execExpand_cases h
      have hkept (j : Nat) (hj : j < 64) (hne : v[j] ≠ s.W[j]) : j = n.toNat := by
        by_contra hj'
        exact hne (by simp only [hv]; exact getElem_expandedW_of_ne s n hj hj')
      simpa using fun j hj hne => And.intro (hkept j hj hne) (hkept j hj hne ▸ hn)
    | winit =>
      obtain ⟨v, -, rfl⟩ := execWinit_cases h
      simp
    | round n =>
      obtain ⟨v, -, rfl⟩ := execRound_cases h
      simp
    | fold =>
      obtain ⟨v, -, rfl⟩ := execFold_cases h
      simp
    | _ => cases hi

end Sys2Proof.Machine
end

section
/-! The invariants of R44 and their strengthening (O48, O49; 10_state.md section 6), and the steps that
complete under them (O50). -/

namespace Sys2Proof.Machine

/-! ## Ways to have the invariants

They speak of PHASE, T, CNT, LAST, LENPEND and LEN alone. -/

theorem Inv.congr {s t : State} (h : Inv s) (hPHASE : t.PHASE = s.PHASE) (hT : t.T = s.T) (hCNT : t.CNT = s.CNT)
    (hLAST : t.LAST = s.LAST) (hLENPEND : t.LENPEND = s.LENPEND) (hLEN : t.LEN = s.LEN) : Inv t := by
  have hblock : t.inBlock = s.inBlock := by rw [State.inBlock, hPHASE, State.inBlock]
  obtain ⟨h1, h2, h3, h4, h5, h6, h7, h8, h9, h10, h11, h12⟩ := h
  constructor <;> simp only [hPHASE, hT, hCNT, hLAST, hLENPEND, hLEN, hblock] <;> assumption

theorem inBlock_iff (s : State) : s.inBlock = true ↔ 5 ≤ s.PHASE.toNat ∧ s.PHASE.toNat ≤ 9 := by
  unfold State.inBlock
  generalize s.PHASE = p
  revert p
  decide

theorem PHASE_ne_of_inBlock {s : State} (h : s.inBlock = true) {p : Phase} (hp : p.toNat < 5) : s.PHASE ≠ p := by
  rintro rfl
  have := ((inBlock_iff s).1 h).1
  omega

theorem Inv.CNT_of_inBlock {s : State} (h : Inv s) (hblock : s.inBlock = true) : s.CNT = 0 :=
  h.cnt_zero (PHASE_ne_of_inBlock hblock (by decide)) (PHASE_ne_of_inBlock hblock (by decide))

/-- A block being compressed. -/
theorem inv_of_inBlock {s : State} (hblock : s.inBlock = true) (hspec : ¬s.unspecified) (hCNT : s.CNT = 0)
    (hboth : ¬(s.LAST = true ∧ s.LENPEND = true)) (hbytes : s.LEN.toNat % 8 = 0) (hmax : s.LEN.toNat ≤ LEN_MAX)
    (hboundary : s.LAST = false → s.LENPEND = false → s.LEN.toNat / 8 % 64 = 0) : Inv s := by
  obtain ⟨hrange, hexpand, hzero⟩ := (specified_iff s).1 hspec
  have hne {p : Phase} (hp : p.toNat < 5) : s.PHASE ≠ p := PHASE_ne_of_inBlock hblock hp
  exact {
    phase_range := hrange
    cnt_zero := fun _ _ => hCNT
    t_expand := hexpand
    t_zero := hzero
    not_both := hboth
    idle_open := fun h => (h.elim (hne (by decide)) (hne (by decide))).elim
    done_last := fun h => (hne (by decide) h).elim
    len_bytes := hbytes
    len_max := hmax
    cnt_len := fun h => (h.elim (hne (by decide)) (hne (by decide))).elim
    len_idle := fun h => (hne (by decide) h).elim
    block_boundary := fun _ => hboundary }

/-- A step within a block changes PHASE and T alone. -/
theorem Inv.within_block {s t : State} (h : Inv s) (hs : s.inBlock = true) (ht : t.inBlock = true)
    (hspec : ¬t.unspecified) (hCNT : t.CNT = s.CNT) (hLAST : t.LAST = s.LAST) (hLENPEND : t.LENPEND = s.LENPEND)
    (hLEN : t.LEN = s.LEN) : Inv t := by
  refine inv_of_inBlock ht hspec ?_ ?_ ?_ ?_ ?_
  · rw [hCNT, h.CNT_of_inBlock hs]
  · rw [hLAST, hLENPEND]
    exact h.not_both
  · rw [hLEN]
    exact h.len_bytes
  · rw [hLEN]
    exact h.len_max
  · rw [hLAST, hLENPEND, hLEN]
    exact h.block_boundary hs

/-- A message that is open. -/
theorem inv_of_open {s : State} (hp : s.PHASE = Phase.OPEN) (hT : s.T = 0) (hLAST : s.LAST = false)
    (hLENPEND : s.LENPEND = false) (hbytes : s.LEN.toNat % 8 = 0) (hmax : s.LEN.toNat ≤ LEN_MAX)
    (hCNT : s.CNT.toNat = s.LEN.toNat / 8 % 64) : Inv s := by
  constructor <;> simp [State.inBlock, *]

/-- A digest, or a length-only block to come. -/
theorem inv_of_done_or_padlen {s : State}
    (hp : (s.PHASE = Phase.DONE ∧ s.LAST = true) ∨ (s.PHASE = Phase.PADLEN ∧ s.LAST = false)) (hT : s.T = 0)
    (hCNT : s.CNT = 0) (hboth : ¬(s.LAST = true ∧ s.LENPEND = true)) (hbytes : s.LEN.toNat % 8 = 0)
    (hmax : s.LEN.toNat ≤ LEN_MAX) : Inv s := by
  rcases hp with ⟨hp, hlast⟩ | ⟨hp, hlast⟩ <;> constructor <;> simp_all [State.inBlock]

/-! ## The core's turn -/

/-- FOLD leads to DONE, to PADLEN, or back to the open message, which then stands at a block boundary. -/
theorem Inv.execFold {s t : State} (h : Inv s) (hp : s.PHASE = Phase.FOLD) (hT : s.T = 0)
    (hfold : execFold s = .next t) : Inv t := by
  obtain ⟨v, -, rfl⟩ := execFold_cases hfold
  have hblock : s.inBlock = true := by simp [State.inBlock, hp]
  have hCNT := h.CNT_of_inBlock hblock
  cases hlast : s.LAST with
  | true =>
    have hgoes : s.afterFold = Phase.DONE := by simp [State.afterFold, hlast]
    exact inv_of_done_or_padlen (.inl ⟨hgoes, hlast⟩) hT hCNT h.not_both h.len_bytes h.len_max
  | false =>
    cases hpend : s.LENPEND with
    | true =>
      have hgoes : s.afterFold = Phase.PADLEN := by simp [State.afterFold, hlast, hpend]
      exact inv_of_done_or_padlen (.inr ⟨hgoes, hlast⟩) hT hCNT h.not_both h.len_bytes h.len_max
    | false =>
      have hgoes : s.afterFold = Phase.OPEN := by simp [State.afterFold, hlast, hpend]
      have hboundary := h.block_boundary hblock hlast hpend
      exact inv_of_open hgoes hT hlast hpend h.len_bytes h.len_max (by simp [hCNT, hboundary])

/-- EXPAND and ROUND stay within the block. -/
theorem nextIndex_inBlock {s : State} {p : Phase} (t : BitVec 6) (hs : s.inBlock = true)
    (hp : p = Phase.WINIT ∨ p = Phase.FOLD) : (s.nextIndex t p).inBlock = true := by
  rw [inBlock_iff] at hs ⊢
  rw [nextIndex_PHASE]
  split
  · rcases hp with rfl | rfl <;> decide
  · exact hs

/-- The core's turn: PAD and PADLEN start a block, the other micro-operations but FOLD stay within it. -/
theorem Inv.coreTurn {s t : State} (h : Inv s) (hturn : coreTurn s = .next t) : Inv t := by
  have hspec := coreTurn_specified hturn
  rcases coreTurn_cases hturn with ⟨rfl, -⟩ | ⟨hp, -, hx⟩ | ⟨hp, -, hx⟩ | ⟨hp, -, hx⟩ | ⟨hp, -, hx⟩ | ⟨hp, -, hx⟩ |
    ⟨hp, hx⟩ | ⟨hp, hT, hx⟩
  · exact h
  · rcases execPad_cases hx with ⟨-, v, -, rfl⟩ | ⟨-, v, -, rfl⟩ <;>
      exact inv_of_inBlock (by simp [State.inBlock]) hspec (by simp) (by simp) h.len_bytes h.len_max (by simp)
  · have hCNT : s.CNT = 0 := h.cnt_zero (by rw [hp]; decide) (by rw [hp]; decide)
    obtain ⟨v, -, rfl⟩ := execPadlen_cases hx
    exact inv_of_inBlock (by simp [State.inBlock]) hspec hCNT (by simp) h.len_bytes h.len_max (by simp)
  · obtain ⟨v, -, rfl⟩ := execLoad_cases hx
    exact h.within_block (by simp [State.inBlock, hp]) (by simp [State.inBlock]) hspec rfl rfl rfl rfl
  · obtain ⟨-, v, -, rfl⟩ := execExpand_cases hx
    have hblock : s.inBlock = true := by simp [State.inBlock, hp]
    exact h.within_block hblock (nextIndex_inBlock (s := s.setW v) _ hblock (.inl rfl)) hspec (by simp) (by simp)
      (by simp) (by simp)
  · obtain ⟨v, -, rfl⟩ := execWinit_cases hx
    exact h.within_block (by simp [State.inBlock, hp]) (by simp [State.inBlock]) hspec rfl rfl rfl rfl
  · obtain ⟨v, -, rfl⟩ := execRound_cases hx
    have hblock : s.inBlock = true := by simp [State.inBlock, hp]
    exact h.within_block hblock (nextIndex_inBlock (s := s.setWr v) _ hblock (.inr rfl)) hspec (by simp) (by simp)
      (by simp) (by simp)
  · exact h.execFold hp hT hx

/-! ## Transactions -/

/-- INIT opens the empty message, whatever the state. -/
theorem inv_of_init {s t : State} (h : execInit s = .next t) : Inv t := by
  cases h
  apply inv_of_open <;> simp

theorem Inv.open_flags {s : State} (h : Inv s) (hp : s.PHASE = Phase.OPEN) :
    s.T = 0 ∧ s.LAST = false ∧ s.LENPEND = false ∧ s.CNT.toNat = s.LEN.toNat / 8 % 64 :=
  have ⟨hLAST, hLENPEND⟩ := h.idle_open (.inr hp)
  ⟨T_zero_of_open (specified_of_inv h) hp, hLAST, hLENPEND, h.cnt_len (.inl hp)⟩

/-- An accepted FINAL. -/
theorem Inv.setPHASE_PAD {s : State} (h : Inv s) (hp : s.PHASE = Phase.OPEN) : Inv (s.setPHASE Phase.PAD) := by
  obtain ⟨hT, hLAST, hLENPEND, hCNT⟩ := h.open_flags hp
  have hbytes := h.len_bytes
  have hmax := h.len_max
  constructor <;> simp [State.inBlock, *]

/-- Appended bytes: the count and the length of the message grow together. -/
theorem Inv.appendBytes {s : State} {bs : List Byte} (h : Inv s) (hp : s.PHASE = Phase.OPEN)
    (hmax : s.LEN.toNat + 8 * bs.length ≤ LEN_MAX) (hfit : s.CNT.toNat + bs.length ≤ 64) : Inv (appendBytes bs s) := by
  obtain ⟨hT, hLAST, hLENPEND, hCNT⟩ := h.open_flags hp
  have hLEN := appendBytes_LEN_of_le_LEN_MAX hmax
  have hbytes := h.len_bytes
  have hspec := appendBytes_specified (specified_of_inv h) hp bs
  rcases Nat.eq_or_lt_of_le hfit with hfull | hpartial
  · obtain ⟨hCNT', hPHASE⟩ := appendBytes_full bs s hfull
    refine inv_of_inBlock (by simp [State.inBlock, hPHASE]) hspec hCNT' (by simp [hLAST]) ?_ ?_ fun _ _ => ?_ <;>
      rw [hLEN] <;> omega
  · obtain ⟨hCNT', hPHASE⟩ := appendBytes_partial bs s hpartial
    refine inv_of_open (hPHASE.trans hp) (by simp [hT]) (by simp [hLAST]) (by simp [hLENPEND]) ?_ ?_ ?_ <;>
      rw [hLEN] <;> omega

theorem Inv.exec_host {i : Instr} {s t : State} (h : Inv s) (hi : i.isHost = true) (hx : exec i s = .next t) :
    Inv t := by
  rcases exec_host_cases hi hx with rfl | ⟨v, rfl⟩ | ⟨e, rfl⟩ | ⟨-, hx⟩ | ⟨-, hp, rfl⟩ | ⟨bs, hp, hmax, rfl, hput⟩
  · exact h
  · exact h.congr rfl rfl rfl rfl rfl rfl
  · exact h.congr rfl rfl rfl rfl rfl rfl
  · exact inv_of_init hx
  · exact h.setPHASE_PAD hp
  · refine h.appendBytes hp hmax ?_
    rcases hput with ⟨-, b, -, rfl⟩ | ⟨w, -, rfl, hc⟩
    · exact Nat.succ_le_of_lt s.CNT.isLt
    · rw [length_bytes32]
      omega

/-! ## Reset and steps -/

/-- Settles O48: in IDLE, with CNT, LEN, T, LAST and LENPEND 0, each clause is immediate. -/
theorem invAtReset : Obligations.InvAtReset := by
  intro inputs
  constructor <;> simp [State.reset, State.inBlock]

theorem Inv.begin {s : State} (h : Inv s) (rest : List Event) : Inv (s.begin rest) := h.congr rfl rfl rfl rfl rfl rfl

/-- Settles O49: reset, the core's turn, or a transaction. -/
theorem invKeptByStep : Obligations.InvKeptByStep := by
  intro s t h hstep
  rcases step_cases hstep with ⟨p, -, rfl⟩ | ⟨-, -, hturn⟩ | ⟨w, -, -, hx⟩
  · exact (invAtReset []).congr rfl rfl rfl rfl rfl rfl
  · exact (h.begin _).coreTurn hturn
  · exact (h.begin _).exec_host (Laws.decodeHT_isHost w) hx

/-! ## Completion -/

/-- Every transaction is accepted, ignored or answered by an error bit. -/
theorem exec_host_completes {i : Instr} (s : State) (hi : i.isHost = true) : ∃ t, exec i s = .next t := by
  by_cases hinit : i = .init
  · subst hinit
    exact ⟨_, rfl⟩
  · obtain ⟨t, ht, -⟩ := exec_eq_elim_firstError s hi hinit
    rw [ht]
    cases firstError i s with
    | none => exact ⟨_, rfl⟩
    | some e => exact ⟨_, rfl⟩

/-- Outside the states R87 lists the core has its micro-operation or none. -/
theorem coreTurn_completes {s : State} (h : ¬s.unspecified) : ∃ t, coreTurn s = .next t := by
  have hspec := (seqSpecified_iff s).2 h
  unfold seqSpecified at hspec
  unfold coreTurn State.seqWord
  cases hd : decodeSEQ (seqWord s.PHASE s.T) with
  | ok i =>
    obtain ⟨hwf, hword⟩ := Laws.encode_of_decodeSEQ hd
    obtain ⟨t, ht, -⟩ := datapathRaisesNothing i s (isHost_of_encode_seq hword) hwf
    exact ⟨t, ht⟩
  | error r =>
    cases r with
    | noMicroOp => exact ⟨s, rfl⟩
    | unspecified => simp [hd] at hspec

/-- Settles O50: the sequencer state is specified, so the event acts, and each kind of event completes. -/
theorem stepCompletes : Obligations.StepCompletes := by
  intro s h haccess
  have hspec := specified_of_inv h
  have hcore := coreTurn_completes (s := s.begin s.inputs.tail) hspec
  cases hi : s.inputs with
  | nil => rwa [step_nil hi, inSpecified_of_specified hspec, ← List.tail_nil, ← hi]
  | cons e rest =>
    rw [hi] at hcore
    cases e with
    | core => rwa [step_core hi, inSpecified_of_specified hspec]
    | txn w =>
      rw [step_txn hi, inSpecified_of_specified hspec]
      exact exec_host_completes _ (Laws.decodeHT_isHost w)
    | access a =>
      obtain ⟨hwin, hadm⟩ := haccess a rest hi
      rw [step_access hi, inSpecified_of_specified hspec, busTurn_of_admitted _ hwin hadm]
      exact exec_host_completes _ (Laws.decodeHT_isHost _)
    | reset p => exact ⟨_, step_reset hi⟩

end Sys2Proof.Machine
end

section
/-! Two states side by side: what control does does not depend on the data (O53; 41_host_commands.md R131), and no
register is observed before it is written (O51; 10_state.md R44.7). -/

namespace Sys2Proof.Machine

/-! ## Results that are related -/

/-- Two results that are next states in the relation `R`, or the same stop. -/
inductive Related (R : State → State → Prop) : Result → Result → Prop
  | next {t t' : State} (h : R t t') : Related R (.next t) (.next t')
  | fault (r : Fault) : Related R (.fault r) (.fault r)
  | refused (r : Refusal) : Related R (.refused r) (.refused r)

section
variable {R : State → State → Prop} {r r' q q' : Result}

/-- Where the first result is a next state, so is the second. -/
theorem Related.next_of_eq {t : State} (h : Related R r r') (ht : r = .next t) : ∃ t', r' = .next t' ∧ R t t' := by
  cases h with
  | next h =>
    cases ht
    exact ⟨_, rfl, h⟩
  | fault | refused => cases ht

/-- A relation may be exchanged on the next states. -/
theorem Related.imp {R' : State → State → Prop} (h : Related R r r')
    (himp : ∀ t t', r = .next t → r' = .next t' → R t t' → R' t t') : Related R' r r' := by
  cases h with
  | next h => exact .next (himp _ _ rfl rfl h)
  | fault r => exact .fault r
  | refused r => exact .refused r

/-- A test both states answer alike. -/
theorem Related.ite {c c' : Prop} [Decidable c] [Decidable c'] (hc : c ↔ c') (hr : Related R r r')
    (hq : ¬c → Related R q q') : Related R (if c then r else q) (if c' then r' else q') := by
  by_cases h : c
  · rwa [if_pos h, if_pos (hc.1 h)]
  · rw [if_neg h, if_neg (mt hc.2 h)]
    exact hq h

/-- A write that needs an open message. -/
theorem Related.inOpen {s s' : State} (hPHASE : s.PHASE = s'.PHASE)
    (hraise : ∀ e, Related R (raise e s) (raise e s')) (hr : s.PHASE = Phase.OPEN → Related R r r') :
    Related R (inOpen s r) (inOpen s' r') := by
  by_cases hp : s.PHASE = Phase.OPEN
  · rw [inOpen_of_open hp, inOpen_of_open (hPHASE.symm.trans hp)]
    exact hr hp
  · cases hb : s.busy with
    | true =>
      rw [inOpen_of_busy hb, inOpen_of_busy (s := s') ((congrArg Phase.busy hPHASE).symm.trans hb)]
      exact hraise .busy
    | false =>
      rw [inOpen_of_not_open hb hp,
        inOpen_of_not_open (s := s') ((congrArg Phase.busy hPHASE).symm.trans hb) (hPHASE ▸ hp)]
      exact hraise .seq

/-- A step of two states with the same event, PHASE and T: it is enough to relate what the one instruction does that
the event presents or the sequencer selects. -/
theorem related_step {s s' : State} (hinputs : s.inputs = s'.inputs) (hPHASE : s.PHASE = s'.PHASE) (hT : s.T = s'.T)
    (hrefl : ∀ t, R t t) (hidle : ∀ rest, R (s.begin rest) (s'.begin rest))
    (hexec : ∀ i rest, i.isHost = true ∨ decodePhaseT s.PHASE s.T = .ok i →
      Related R (exec i (s.begin rest)) (exec i (s'.begin rest))) : Related R (step s) (step s') := by
  have hspec {r r' : Result} (h : Related R r r') : Related R (inSpecified s r) (inSpecified s' r') := by
    unfold inSpecified
    rw [← hPHASE, ← hT]
    exact .ite Iff.rfl h fun _ => .refused _
  have hcore (rest : List Event) : Related R (coreTurn (s.begin rest)) (coreTurn (s'.begin rest)) := by
    unfold coreTurn State.seqWord
    simp only [begin_PHASE, begin_T, ← hPHASE, ← hT]
    rw [Laws.decodeSEQ_seqWord]
    cases hd : decodePhaseT s.PHASE s.T with
    | ok i => exact hexec i rest (.inr hd)
    | error r =>
      cases r with
      | noMicroOp => exact .next (hidle rest)
      | unspecified => exact .refused _
  have hhost (w : HTWord) (rest : List Event) :
      Related R (exec (decodeHT w) (s.begin rest)) (exec (decodeHT w) (s'.begin rest)) :=
    hexec _ rest (.inl (Laws.decodeHT_isHost w))
  cases hi : s.inputs with
  | nil =>
    rw [step_nil hi, step_nil (hinputs.symm.trans hi)]
    exact hspec (hcore [])
  | cons e rest =>
    have hi' := hinputs.symm.trans hi
    cases e with
    | core =>
      rw [step_core hi, step_core hi']
      exact hspec (hcore rest)
    | txn w =>
      rw [step_txn hi, step_txn hi']
      exact hspec (hhost w rest)
    | access a =>
      rw [step_access hi, step_access hi']
      exact hspec (.ite Iff.rfl (.refused _) fun _ => .ite Iff.rfl (.fault _) fun _ => hhost _ rest)
    | reset p =>
      rw [step_reset hi, step_reset hi']
      exact .next (hrefl _)

end

/-! ## Control -/

/-- Two states that differ at most in H, a..h, W, BUF and the read port. -/
structure SameSequencing (s s' : State) : Prop where
  CNT : s.CNT = s'.CNT
  LEN : s.LEN = s'.LEN
  PHASE : s.PHASE = s'.PHASE
  T : s.T = s'.T
  LAST : s.LAST = s'.LAST
  LENPEND : s.LENPEND = s'.LENPEND
  err : s.err = s'.err
  inputs : s.inputs = s'.inputs

namespace SameSequencing

theorem refl (s : State) : SameSequencing s s := ⟨rfl, rfl, rfl, rfl, rfl, rfl, rfl, rfl⟩

/-- As an equation between the second state and an update of the first. -/
theorem iff_eq {s s' : State} : SameSequencing s s' ↔
    s' = { s with H := s'.H, wr := s'.wr, W := s'.W, BUF := s'.BUF, rdata := s'.rdata } := by
  constructor
  · rintro ⟨h1, h2, h3, h4, h5, h6, h7, h8⟩
    apply State.eq_of_fields <;> simp [*]
  · intro h
    rw [h]
    exact ⟨rfl, rfl, rfl, rfl, rfl, rfl, rfl, rfl⟩

variable {s s' : State} (h : SameSequencing s s')
include h

/-! Kept by any updates of the data, and by the same update of another register. -/

theorem begin (rest : List Event) : SameSequencing (s.begin rest) (s'.begin rest) := { h with inputs := rfl }
theorem setH (v v' : Vector Word 8) : SameSequencing (s.setH v) (s'.setH v') := { h with }
theorem setWr (v v' : Work) : SameSequencing (s.setWr v) (s'.setWr v') := { h with }
theorem setW (v v' : Vector Word 64) : SameSequencing (s.setW v) (s'.setW v') := { h with }
theorem setBUF (v v' : Vector Byte 64) : SameSequencing (s.setBUF v) (s'.setBUF v') := { h with }
theorem setRdata (v v' : Option Word) : SameSequencing (s.setRdata v) (s'.setRdata v') := { h with }
theorem setCNT {v v' : BitVec 6} (hv : v = v') : SameSequencing (s.setCNT v) (s'.setCNT v') := { h with CNT := hv }
theorem setLEN {v v' : BitVec 64} (hv : v = v') : SameSequencing (s.setLEN v) (s'.setLEN v') := { h with LEN := hv }
theorem setPHASE {v v' : Phase} (hv : v = v') : SameSequencing (s.setPHASE v) (s'.setPHASE v') := { h with PHASE := hv }
theorem setT (v : BitVec 6) : SameSequencing (s.setT v) (s'.setT v) := { h with T := rfl }
theorem setLAST (v : Bool) : SameSequencing (s.setLAST v) (s'.setLAST v) := { h with LAST := rfl }
theorem setLENPEND (v : Bool) : SameSequencing (s.setLENPEND v) (s'.setLENPEND v) := { h with LENPEND := rfl }
theorem setErr {v v' : Errors} (hv : v = v') : SameSequencing (s.setErr v) (s'.setErr v') := { h with err := hv }

theorem nextIndex (t : BitVec 6) (p : Phase) :
    SameSequencing (s.nextIndex t p) (s'.nextIndex t p) := by
  unfold State.nextIndex
  split
  · exact (h.setT 0).setPHASE rfl
  · exact h.setT (t + 1)

theorem appendBytes (bs : List Byte) : SameSequencing (appendBytes bs s) (Machine.appendBytes bs s') := by
  unfold Machine.appendBytes
  rw [← h.CNT, ← h.LEN]
  split
  · exact (((h.setBUF _ _).setLEN rfl).setCNT rfl).setPHASE rfl
  · exact ((h.setBUF _ _).setLEN rfl).setCNT rfl

theorem raise (e : ErrBit) : Related SameSequencing (raise e s) (Machine.raise e s') :=
  .next (h.setErr (congrArg (·.set e) h.err))

/-- What an instruction does to the registers compared, it decides on them alone. -/
theorem exec (i : Instr) : Related SameSequencing (exec i s) (Machine.exec i s') := by
  cases i with
  | nop | wignStatus | wignLenRsv | wignDigest => exact .next h
  | rdctrl | rstat | rddata | rlenlo | rlenhi | rrsv | rdig => exact .next (h.setRdata _ _)
  | init =>
    exact .next ((((((((h.setH _ _).setLEN rfl).setCNT rfl).setLAST _).setLENPEND _).setErr rfl).setT _).setPHASE rfl)
  | illcmd => exact h.raise .cmd
  | final => exact .inOpen h.PHASE h.raise fun _ => .next (h.setPHASE rfl)
  | putb x b =>
    exact .inOpen h.PHASE h.raise fun _ => .ite (by rw [h.LEN]) (h.raise .len) fun _ => .next (h.appendBytes [b])
  | putw w =>
    exact .inOpen h.PHASE h.raise fun _ => .ite (by rw [h.CNT]) (h.raise .align) fun _ =>
      .ite (by rw [h.LEN]) (h.raise .len) fun _ => .next (h.appendBytes (bytes32 w))
  | pad =>
    refine .next (setPHASE (setCNT ?_ rfl) rfl)
    rw [← h.CNT]
    split
    · exact ((h.setBUF _ _).setLAST _).setLENPEND _
    · exact ((h.setBUF _ _).setLAST _).setLENPEND _
  | padlen => exact .next ((((h.setBUF _ _).setLAST _).setLENPEND _).setPHASE rfl)
  | load => exact .next (((h.setW _ _).setT _).setPHASE rfl)
  | expand t => exact .ite Iff.rfl (.refused _) fun _ => .next ((h.setW _ _).nextIndex t _)
  | winit => exact .next (((h.setWr _ _).setT _).setPHASE rfl)
  | round t => exact .next ((h.setWr _ _).nextIndex t _)
  | fold => exact .next ((h.setH _ _).setPHASE (by rw [State.afterFold, State.afterFold, h.LAST, h.LENPEND]))

end SameSequencing

/-- Settles O53: the relation is `SameSequencing`, which every instruction keeps. -/
theorem controlIndependentOfData : Obligations.ControlIndependentOfData := by
  intro s s' t hstep hs
  have h := SameSequencing.iff_eq.2 hs
  have hrelated := related_step h.inputs h.PHASE h.T SameSequencing.refl h.begin fun i rest _ => (h.begin rest).exec i
  obtain ⟨t', hstep', ht⟩ := hrelated.next_of_eq hstep
  exact ⟨t', hstep', SameSequencing.iff_eq.1 ht⟩

/-! ## Registers not yet written -/

theorem SameControl.sameSequencing {s s' : State} (h : SameControl s s') : SameSequencing s s' :=
  ⟨h.CNT, h.LEN, h.PHASE, h.T, h.LAST, h.LENPEND, h.err, h.inputs⟩

theorem SameSequencing.sameControl {s s' : State} (h : SameSequencing s s') (hH : s.H = s'.H)
    (hr : s.rdata = s'.rdata) : SameControl s s' := { h with H := hH, rdata := hr }

/-! The values computed from what has been written agree. -/

section
variable {s s' : State}

/-- Both of PAD's blocks keep the bytes below CNT alone. -/
theorem bufPad_congr (hCNT : s.CNT = s'.CNT) (hLEN : s.LEN = s'.LEN)
    (hbuf : ∀ (i : Nat) (h : i < 64), i < s.CNT.toNat → s.BUF[i] = s'.BUF[i]) :
    s.bufPadFits = s'.bufPadFits ∧ s.bufPadSpill = s'.bufPadSpill := by
  constructor <;> ext1 i hi
  · rw [getElem_bufPadFits, getElem_bufPadFits, ← hCNT, ← hLEN]
    by_cases hlt : i < s.CNT.toNat
    · rw [if_pos hlt, if_pos hlt, hbuf i hi hlt]
    · rw [if_neg hlt, if_neg hlt]
  · rw [getElem_bufPadSpill, getElem_bufPadSpill, ← hCNT]
    by_cases hlt : i < s.CNT.toNat
    · rw [if_pos hlt, if_pos hlt, hbuf i hi hlt]
    · rw [if_neg hlt, if_neg hlt]

/-- Up to the last of the appended bytes. -/
theorem bufAppend_congr (hCNT : s.CNT = s'.CNT)
    (hbuf : ∀ (i : Nat) (h : i < 64), i < s.CNT.toNat → s.BUF[i] = s'.BUF[i]) (bs : List Byte) (i : Nat) (hi : i < 64)
    (hlt : i < s.CNT.toNat + bs.length) : (s.bufAppend bs)[i] = (s'.bufAppend bs)[i] := by
  rw [getElem_bufAppend, getElem_bufAppend, ← hCNT]
  by_cases hle : s.CNT.toNat ≤ i
  · rw [if_pos ⟨hle, hlt⟩, if_pos ⟨hle, hlt⟩]
  · rw [if_neg (by omega), if_neg (by omega), hbuf i hi (by omega)]

/-- Parsing overwrites W[0..15]. -/
theorem parsedW_congr (hBUF : s.BUF = s'.BUF) (i : Nat) (hi : i < 16) : s.parsedW[i] = s'.parsedW[i] := by
  rw [getElem_parsedW_low _ _ _ hi, getElem_parsedW_low _ _ _ hi]
  simp only [hBUF]

/-- EXPAND t reads words below t and writes word t. -/
theorem expandedW_congr {t : BitVec 6} (ht : 16 ≤ t.toNat)
    (hW : ∀ (i : Nat) (h : i < 64), i < t.toNat → s.W[i] = s'.W[i]) (i : Nat) (hi : i < 64) (hle : i ≤ t.toNat) :
    (s.expandedW t)[i] = (s'.expandedW t)[i] := by
  rcases Nat.eq_or_lt_of_le hle with rfl | hlt
  · rw [getElem_expandedW_self, getElem_expandedW_self, hW _ _ (by omega), hW _ _ (by omega), hW _ _ (by omega),
      hW _ _ (by omega)]
  · rw [getElem_expandedW_of_ne _ _ _ hlt.ne, getElem_expandedW_of_ne _ _ _ hlt.ne, hW i hi hlt]

end

namespace SameWritten

theorem refl (s : State) : SameWritten s s where
  toSameControl := (SameSequencing.refl s).sameControl rfl rfl
  buf_prefix _ _ _ _ := rfl
  buf_full _ := rfl
  w_prefix _ _ _ _ := rfl
  w_full _ := rfl
  work _ := rfl

/-! What has been written, phase by phase (10_state.md R44.7). -/

section
variable {t t' : State} (hc : SameControl t t')
include hc

theorem of_OPEN_or_PAD (hp : t.PHASE = Phase.OPEN ∨ t.PHASE = Phase.PAD)
    (hbuf : ∀ (i : Nat) (h : i < 64), i < t.CNT.toNat → t.BUF[i] = t'.BUF[i]) : SameWritten t t' := by
  rcases hp with hp | hp <;> exact ⟨hc, fun _ => hbuf, by simp [hp], by simp [hp], by simp [hp], by simp [hp]⟩

theorem of_LOAD (hp : t.PHASE = Phase.LOAD) (hBUF : t.BUF = t'.BUF) : SameWritten t t' :=
  ⟨hc, by simp [hp], fun _ => hBUF, by simp [hp], by simp [hp], by simp [hp]⟩

theorem of_EXPAND (hp : t.PHASE = Phase.EXPAND) (hW : ∀ (i : Nat) (h : i < 64), i < t.T.toNat → t.W[i] = t'.W[i]) :
    SameWritten t t' :=
  ⟨hc, by simp [hp], by simp [hp], fun _ => hW, by simp [hp], by simp [hp]⟩

theorem of_WINIT (hp : t.PHASE = Phase.WINIT) (hW : t.W = t'.W) : SameWritten t t' :=
  ⟨hc, by simp [hp], by simp [hp], by simp [hp], fun _ => hW, by simp [hp]⟩

theorem of_ROUND (hp : t.PHASE = Phase.ROUND) (hW : t.W = t'.W) (hwr : t.wr = t'.wr) : SameWritten t t' :=
  ⟨hc, by simp [hp], by simp [hp], by simp [hp], fun _ => hW, fun _ => hwr⟩

theorem of_FOLD (hp : t.PHASE = Phase.FOLD) (hwr : t.wr = t'.wr) : SameWritten t t' :=
  ⟨hc, by simp [hp], by simp [hp], by simp [hp], by simp [hp], fun _ => hwr⟩

theorem of_DONE_or_PADLEN (hp : t.PHASE = Phase.DONE ∨ t.PHASE = Phase.PADLEN) : SameWritten t t' := by
  rcases hp with hp | hp <;> exact ⟨hc, by simp [hp], by simp [hp], by simp [hp], by simp [hp], by simp [hp]⟩

end

section
variable {s s' : State} (h : SameWritten s s')
include h

theorem begin (rest : List Event) : SameWritten (s.begin rest) (s'.begin rest) := { h with rdata := rfl, inputs := rfl }

theorem raise (e : ErrBit) : Related SameWritten (raise e s) (Machine.raise e s') :=
  .next { h with err := congrArg (·.set e) h.err }

theorem read {v v' : Word} (hv : v = v') : Related SameWritten (read v s) (Machine.read v' s') :=
  .next { h with rdata := congrArg some hv }

/-- An accepted FINAL. -/
theorem final (hp : s.PHASE = Phase.OPEN) : SameWritten (s.setPHASE Phase.PAD) (s'.setPHASE Phase.PAD) :=
  of_OPEN_or_PAD ((h.sameSequencing.setPHASE rfl).sameControl h.H h.rdata) (.inr rfl) (h.buf_prefix (.inl hp))

/-- Bytes appended to an open message. -/
theorem appendBytes {bs : List Byte} (hp : s.PHASE = Phase.OPEN) (hfit : s.CNT.toNat + bs.length ≤ 64) :
    SameWritten (appendBytes bs s) (Machine.appendBytes bs s') := by
  have hcontrol := (h.sameSequencing.appendBytes bs).sameControl (by simp [h.H]) (by simp [h.rdata])
  have hbuf := bufAppend_congr h.CNT (h.buf_prefix (.inl hp)) bs
  rcases Nat.eq_or_lt_of_le hfit with hfull | hpartial
  · obtain ⟨-, hPHASE⟩ := appendBytes_full bs s hfull
    refine of_LOAD hcontrol hPHASE ?_
    rw [appendBytes_BUF, appendBytes_BUF]
    ext1 i hi
    exact hbuf i hi (by omega)
  · obtain ⟨hCNT, hPHASE⟩ := appendBytes_partial bs s hpartial
    refine of_OPEN_or_PAD hcontrol (.inl (hPHASE.trans hp)) fun i hi hlt => ?_
    simpa only [appendBytes_BUF] using hbuf i hi (by omega)

/-- A transaction reads no register that R44.7 may leave unwritten. -/
theorem exec_host {i : Instr} (hi : i.isHost = true) : Related SameWritten (exec i s) (exec i s') := by
  cases i with
  | nop | wignStatus | wignLenRsv | wignDigest => exact .next h
  | rdctrl | rddata | rrsv => exact h.read rfl
  | rstat => exact h.read (status_congr h.CNT h.err h.PHASE)
  | rlenlo | rlenhi => exact h.read (by rw [h.LEN])
  | rdig k => exact h.read (by rw [State.digest, State.digest, h.H])
  | init =>
    obtain ⟨t, t', ht, ht', hw⟩ := initForgetsThePast s s' h.rdata h.inputs
    rw [ht, ht']
    exact .next hw
  | illcmd => exact h.raise .cmd
  | final => exact .inOpen h.PHASE h.raise fun hp => .next (h.final hp)
  | putb x b =>
    exact .inOpen h.PHASE h.raise fun hp => .ite (by rw [h.LEN]) (h.raise .len) fun _ =>
      .next (h.appendBytes (bs := [b]) hp (Nat.succ_le_of_lt s.CNT.isLt))
  | putw w =>
    refine .inOpen h.PHASE h.raise fun hp => .ite (by rw [h.CNT]) (h.raise .align) fun hc =>
      .ite (by rw [h.LEN]) (h.raise .len) fun _ => .next (h.appendBytes hp ?_)
    rw [length_bytes32]
    omega
  | pad | padlen | load | expand | winit | round | fold => cases hi

/-! ## The micro-operations -/

/-- PAD reads BUF below CNT. -/
theorem pad (hp : s.PHASE = Phase.PAD) {t t' : State} (ht : execPad s = .next t) (ht' : execPad s' = .next t')
    (hseq : SameSequencing t t') : SameWritten t t' := by
  obtain ⟨hfits, hspill⟩ := bufPad_congr h.CNT h.LEN (h.buf_prefix (.inr hp))
  have hCNT := congrArg BitVec.toNat h.CNT
  rcases execPad_cases ht with ⟨hc, v, hv, rfl⟩ | ⟨hc, v, hv, rfl⟩ <;>
    rcases execPad_cases ht' with ⟨hc', v', hv', rfl⟩ | ⟨hc', v', hv', rfl⟩
  · exact of_LOAD (hseq.sameControl h.H h.rdata) rfl (hv.trans (hfits.trans hv'.symm))
  · omega
  · omega
  · exact of_LOAD (hseq.sameControl h.H h.rdata) rfl (hv.trans (hspill.trans hv'.symm))

/-- PADLEN reads nothing of BUF. -/
theorem padlen {t t' : State} (ht : execPadlen s = .next t) (ht' : execPadlen s' = .next t')
    (hseq : SameSequencing t t') : SameWritten t t' := by
  obtain ⟨v, hv, rfl⟩ := execPadlen_cases ht
  obtain ⟨v', hv', rfl⟩ := execPadlen_cases ht'
  exact of_LOAD (hseq.sameControl h.H h.rdata) rfl (hv.trans ((bufPadLen_congr h.LEN).trans hv'.symm))

/-- LOAD reads the whole of BUF and writes W below T = 16. -/
theorem load (hp : s.PHASE = Phase.LOAD) {t t' : State} (ht : execLoad s = .next t) (ht' : execLoad s' = .next t')
    (hseq : SameSequencing t t') : SameWritten t t' := by
  obtain ⟨v, hv, rfl⟩ := execLoad_cases ht
  obtain ⟨v', hv', rfl⟩ := execLoad_cases ht'
  have hW (i : Nat) (hi : i < 16) : v[i] = v'[i] := by
    simp only [hv, hv']
    exact parsedW_congr (h.buf_full hp) i hi
  exact of_EXPAND (hseq.sameControl h.H h.rdata) rfl fun i hi hlt => hW i hlt

/-- EXPAND reads W below T and writes W[T]. -/
theorem expand (hp : s.PHASE = Phase.EXPAND) {t t' : State} (ht : execExpand s.T s = .next t)
    (ht' : execExpand s.T s' = .next t') (hseq : SameSequencing t t') : SameWritten t t' := by
  obtain ⟨h16, v, hv, rfl⟩ := execExpand_cases ht
  obtain ⟨-, v', hv', rfl⟩ := execExpand_cases ht'
  have hW (i : Nat) (hi : i < 64) (hle : i ≤ s.T.toNat) : v[i] = v'[i] := by
    simp only [hv, hv']
    exact expandedW_congr h16 (h.w_prefix hp) i hi hle
  have hcontrol := hseq.sameControl (by simpa using h.H) (by simpa using h.rdata)
  by_cases hlast : s.T = 63
  · refine of_WINIT hcontrol (nextIndex_of_last _ _ hlast).2 ?_
    rw [nextIndex_W, nextIndex_W]
    ext1 i hi
    exact hW i hi (by rw [hlast]; exact Nat.le_of_lt_succ hi)
  · obtain ⟨hT, hPHASE⟩ := nextIndex_of_not_last (s.setW v) Phase.WINIT hlast
    refine of_EXPAND hcontrol (hPHASE.trans hp) fun i hi hlt => ?_
    simpa using hW i hi (by omega)

/-- WINIT writes a..h from H. -/
theorem winit (hp : s.PHASE = Phase.WINIT) {t t' : State} (ht : execWinit s = .next t) (ht' : execWinit s' = .next t')
    (hseq : SameSequencing t t') : SameWritten t t' := by
  obtain ⟨v, hv, rfl⟩ := execWinit_cases ht
  obtain ⟨v', hv', rfl⟩ := execWinit_cases ht'
  exact of_ROUND (hseq.sameControl h.H h.rdata) rfl (h.w_full (.inl hp)) (by simp [hv, hv', h.H])

/-- ROUND reads a..h and W, all written. -/
theorem round (hp : s.PHASE = Phase.ROUND) {t t' : State} (ht : execRound s.T s = .next t)
    (ht' : execRound s.T s' = .next t') (hseq : SameSequencing t t') : SameWritten t t' := by
  have hW := h.w_full (.inr hp)
  obtain ⟨v, hv, rfl⟩ := execRound_cases ht
  obtain ⟨v', hv', rfl⟩ := execRound_cases ht'
  obtain rfl : v = v' := by
    rw [hv, hv', State.w, State.w, h.work (.inl hp)]
    simp only [hW]
  have hcontrol := hseq.sameControl (by simpa using h.H) (by simpa using h.rdata)
  by_cases hlast : s.T = 63
  · exact of_FOLD hcontrol (nextIndex_of_last _ _ hlast).2 (by simp)
  · exact of_ROUND hcontrol ((nextIndex_of_not_last _ _ hlast).2.trans hp) (by simpa using hW) (by simp)

/-- FOLD reads a..h; an open message that follows has CNT = 0, so that nothing of BUF counts as written. -/
theorem fold (hinv : Inv s) (hp : s.PHASE = Phase.FOLD) {t t' : State} (ht : execFold s = .next t)
    (ht' : execFold s' = .next t') (hseq : SameSequencing t t') : SameWritten t t' := by
  have hCNT := hinv.CNT_of_inBlock (by simp [State.inBlock, hp])
  obtain ⟨v, hv, rfl⟩ := execFold_cases ht
  obtain ⟨v', hv', rfl⟩ := execFold_cases ht'
  obtain rfl : v = v' := by rw [hv, hv', h.H, h.work (.inr hp)]
  have hcontrol := hseq.sameControl rfl h.rdata
  rcases afterFold_cases s with hgoes | hgoes | hgoes
  · exact of_DONE_or_PADLEN hcontrol (.inl hgoes)
  · exact of_DONE_or_PADLEN hcontrol (.inr hgoes)
  · exact of_OPEN_or_PAD hcontrol (.inl hgoes) fun i hi hlt => absurd hlt (by simp [hCNT])

/-- The micro-operation that PHASE and T select. -/
theorem exec_microOperation {i : Instr} (hinv : Inv s) (hd : decodePhaseT s.PHASE s.T = .ok i) :
    Related SameWritten (exec i s) (exec i s') := by
  refine (h.sameSequencing.exec i).imp fun t t' ht ht' hseq => ?_
  rcases decodePhaseT_ok hd with ⟨hp, -, rfl⟩ | ⟨-, -, rfl⟩ | ⟨hp, -, rfl⟩ | ⟨hp, -, rfl⟩ | ⟨hp, -, rfl⟩ | ⟨hp, rfl⟩ |
    ⟨hp, -, rfl⟩
  · exact h.pad hp ht ht' hseq
  · exact h.padlen ht ht' hseq
  · exact h.load hp ht ht' hseq
  · exact h.expand hp ht ht' hseq
  · exact h.winit hp ht ht' hseq
  · exact h.round hp ht ht' hseq
  · exact h.fold hinv hp ht ht' hseq

end

end SameWritten

/-- Settles O51: the step runs a transaction, or the micro-operation of PHASE and T, which reads only what has been
written by then. -/
theorem unwrittenRegistersNotObserved : Obligations.UnwrittenRegistersNotObserved := by
  intro s s' t hinv h hstep
  refine (related_step h.inputs h.PHASE h.T SameWritten.refl h.begin fun i rest hi => ?_).next_of_eq hstep
  rcases hi with hhost | hmicro
  · exact (h.begin rest).exec_host hhost
  · exact (h.begin rest).exec_microOperation (hinv.congr rfl rfl rfl rfl rfl rfl) hmicro

end Sys2Proof.Machine
end

section
/-! How long padding takes (O55; 70_reset_and_hazards.md R280, R281), and how long a core that is fair is BUSY (O58;
20_memory.md R62). -/

namespace Sys2Proof.Machine

/-! ## From FINAL to DONE -/

/-- A block: 115 core steps from LOAD. -/
theorem runCore_LOAD {s : State} (hp : s.PHASE = Phase.LOAD) (hT : s.T = 0) (hi : s.inputs = []) :
    ∃ t, runCore 115 s = .next t ∧ FoldedFrom s t ∧ t.inputs = [] := by
  obtain ⟨w, r, hrun⟩ := runCore_block s hp hT hi
  refine ⟨_, hrun, ?_, hi⟩
  constructor <;> simp

/-- The last block of a message: from LOAD with LAST = 1, 115 core steps reach DONE. -/
theorem runCore_last_LOAD {s : State} (hp : s.PHASE = Phase.LOAD) (hT : s.T = 0) (hi : s.inputs = [])
    (hlast : s.LAST = true) :
    ∃ t, runCore 115 s = .next t ∧ t.PHASE = Phase.DONE ∧ t.LAST = true ∧ t.LEN = s.LEN := by
  obtain ⟨t, hrun, hfold, -⟩ := runCore_LOAD hp hT hi
  have hdone : s.afterFold = Phase.DONE := by simp [State.afterFold, hlast]
  exact ⟨t, hrun, hfold.PHASE.trans hdone, hfold.LAST.trans hlast, hfold.LEN⟩

/-- The length-only block: one core step more, from PADLEN. -/
theorem runCore_PADLEN {s : State} (hp : s.PHASE = Phase.PADLEN) (hT : s.T = 0) (hi : s.inputs = []) :
    ∃ t, runCore 116 s = .next t ∧ t.PHASE = Phase.DONE ∧ t.LAST = true ∧ t.LEN = s.LEN := by
  have hstep := step_quiet (i := .padlen) hi (by rw [hp, hT]; rfl)
  rw [exec_padlen, execPadlen_next] at hstep
  rw [runCore_succ 115 hstep]
  exact runCore_last_LOAD rfl hT rfl rfl

/-- A block that a length-only block follows, and that block. -/
theorem runCore_spill_LOAD {s : State} (hp : s.PHASE = Phase.LOAD) (hT : s.T = 0) (hi : s.inputs = [])
    (hlast : s.LAST = false) (hpend : s.LENPEND = true) :
    ∃ t, runCore 231 s = .next t ∧ t.PHASE = Phase.DONE ∧ t.LAST = true ∧ t.LEN = s.LEN := by
  obtain ⟨t, hrun, hfold, hi'⟩ := runCore_LOAD hp hT hi
  have hpadlen : s.afterFold = Phase.PADLEN := by simp [State.afterFold, hlast, hpend]
  obtain ⟨u, hrun', hdone, hlast', hLEN⟩ := runCore_PADLEN (hfold.PHASE.trans hpadlen) (hfold.T.trans hT) hi'
  exact ⟨u, (runCore_add 115 116 hrun).trans hrun', hdone, hlast', hLEN.trans hfold.LEN⟩

/-- The core steps left at PAD lead to DONE, in one block or in two. -/
theorem runCore_PAD {s : State} (hp : s.PHASE = Phase.PAD) (hT : s.T = 0) (hi : s.inputs = []) :
    ∃ t, runCore s.remaining s = .next t ∧ t.PHASE = Phase.DONE ∧ t.LAST = true ∧ t.LEN = s.LEN := by
  have hstep := step_quiet (i := .pad) hi (by rw [hp, hT]; rfl)
  rw [exec_pad] at hstep
  rw [remaining_PAD hp]
  rcases Nat.lt_or_ge 55 s.CNT.toNat with hc | hc
  · rw [execPad_of_lt_CNT (s.begin []) hc] at hstep
    rw [if_neg (by omega), runCore_succ 231 hstep]
    exact runCore_spill_LOAD rfl hT rfl rfl rfl
  · rw [execPad_of_CNT_le (s.begin []) hc] at hstep
    rw [if_pos hc, runCore_succ 115 hstep]
    exact runCore_last_LOAD rfl hT rfl rfl

/-- Settles O55: `runCore_PAD`; BUSY before, as no more steps are taken than are left. -/
theorem paddingStepCounts : Obligations.PaddingStepCounts := by
  intro s hp hT hi
  rw [← remaining_PAD hp]
  obtain ⟨t, hrun, hdone, hlast, hLEN⟩ := runCore_PAD hp hT hi
  exact ⟨t, hrun, hdone, hlast, hLEN, fun k hk => busy_before_runCore_end hi hrun le_rfl hk⟩

/-! ## Fair runs -/

/-- Only a reset is a step from a sequencer state R87 lists. -/
theorem specified_of_stepOn {e : Event} {s t : State} (hr : ¬e.restarts) (h : stepOn e s = .next t) :
    ¬s.unspecified := by
  intro hspec
  have hreset : (s.setInputs [e]).resetNext = false := Bool.eq_false_iff.2 fun he => hr (.inr he)
  rw [stepOn, step_of_unspecified (s := s.setInputs [e]) hspec hreset] at h
  cases h

section
variable {e : Nat → Event} {s : Nat → State}

/-- From moment `k` on BUSY becomes 0 after as many turns of the core as it has steps left at `k`. -/
def RestsAfter (e : Nat → Event) (s : Nat → State) (k : Nat) : Prop :=
  ∃ n, k ≤ n ∧ (s n).busy = false ∧ coreTurns e k n = (s k).remaining

theorem RestsAfter.of_not_busy {k : Nat} (h : (s k).busy = false) : RestsAfter e s k :=
  ⟨k, le_rfl, h, by rw [coreTurns_self, remaining_of_not_busy h]⟩

/-- If a BUSY core rests that way from the next moment on, it does from this one on. -/
theorem RestsAfter.of_succ {k : Nat} (hstep : stepOn (e k) (s k) = .next (s (k + 1))) (hr : ¬(e k).restarts)
    (hb : (s k).busy = true) (h : RestsAfter e s (k + 1)) : RestsAfter e s k := by
  obtain ⟨n, hn, hidle, hturns⟩ := h
  refine ⟨n, by omega, hidle, ?_⟩
  rw [coreTurns_succ e hn, hturns]
  rcases remaining_stepOn hb hr hstep with ⟨hcore, hrem⟩ | ⟨hcore, hrem, -⟩
  · rw [if_pos hcore, ← hrem, Nat.add_comm]
  · rw [if_neg hcore, hrem, Nat.zero_add]

/-- Up to the next turn of the core the core steps left stay the same; behind it there is one less. -/
theorem RestsAfter.of_next_core {k d : Nat} (hrun : Run e s) (hr : ∀ n, k ≤ n → ¬(e n).restarts)
    (hb : (s k).busy = true) (hcore : e (k + d) = .core)
    (hless : ∀ j, k < j → (s j).remaining < (s k).remaining → RestsAfter e s j) : RestsAfter e s k := by
  induction d generalizing k with
  | zero =>
    refine .of_succ (hrun k) (hr k le_rfl) hb ?_
    rcases remaining_stepOn hb (hr k le_rfl) (hrun k) with ⟨-, hrem⟩ | ⟨hne, -⟩
    · exact hless (k + 1) (by omega) (by omega)
    · exact absurd hcore hne
  | succ d ih =>
    refine .of_succ (hrun k) (hr k le_rfl) hb ?_
    rcases remaining_stepOn hb (hr k le_rfl) (hrun k) with ⟨-, hrem⟩ | ⟨-, hrem, hb'⟩
    · exact hless (k + 1) (by omega) (by omega)
    · rw [← Nat.succ_add_eq_add_succ] at hcore
      exact ih (fun n hn => hr n (by omega)) hb' hcore fun j hj hlt => hless j (by omega) (by omega)

/-- A fair core comes to rest, by induction on the core steps left. -/
theorem restsAfter (hrun : Run e s) (hfair : Fair e s) {k : Nat} (hr : ∀ n, k ≤ n → ¬(e n).restarts) :
    RestsAfter e s k := by
  induction hrem : (s k).remaining using Nat.strong_induction_on generalizing k with
  | h r ih =>
    cases hb : (s k).busy with
    | false => exact .of_not_busy hb
    | true =>
      obtain ⟨m, hm, hcore⟩ := hfair k hb
      obtain ⟨d, rfl⟩ := Nat.exists_eq_add_of_le hm
      exact .of_next_core hrun hr hb (hcore.resolve_right (hr _ hm)) fun j hj hlt =>
        ih _ (hrem ▸ hlt) (fun n hn => hr n (by omega)) rfl

end

/-- Settles O58: `restsAfter`, and R62's bound of 232 on the core steps left. -/
theorem fairRunsReachRest : Obligations.FairRunsReachRest := by
  intro e s hrun hfair k hr
  obtain ⟨n, hn, hidle, hturns⟩ := restsAfter hrun hfair hr
  have hspec := specified_of_stepOn (hr k le_rfl) (hrun k)
  exact ⟨n, hn, hidle, hturns.trans_le (remaining_le ((specified_iff _).1 hspec).2.1)⟩

end Sys2Proof.Machine
end

section
/-! Host programs end (O59; 30_encoding.md R89): each operation ends, and the steps until then are a run of
`HostRun`. -/

namespace Sys2Proof.Machine

section
variable {e : Nat → Event} {s : Nat → State} {ops : Nat → List HostOp}

/-- The steps from `n` to a moment at which the program is done are a run of `HostRun`. -/
theorem FairHostRun.hostRun (h : FairHostRun e s ops) (n d : Nat) (hdone : ops (n + d) = []) :
    ∃ vs, HostRun (s n) (ops n) (s (n + d)) vs := by
  induction d generalizing n with
  | zero => exact ⟨[], by rw [Nat.add_zero] at hdone ⊢; rw [hdone]; exact .done _⟩
  | succ d ih =>
    rw [← Nat.succ_add_eq_add_succ] at hdone ⊢
    obtain ⟨vs, hrest⟩ := ih (n + 1) hdone
    obtain ⟨v, hstep⟩ := h.steps n
    exact ⟨v ++ vs, .cons hstep hrest⟩

/-- A step leaves the program or ends its first operation. -/
theorem HostStep.ops_cases {ev : Event} {t t' : State} {op : HostOp} {rest ops' : List HostOp} {v : List Word}
    (h : HostStep ev t (op :: rest) t' ops' v) : ops' = op :: rest ∨ ops' = rest := by
  cases h with
  | core h => exact .inl rfl
  | tx h => exact .inr rfl
  | poll h hv hb => exact .inl rfl
  | idle h hv hb => exact .inr rfl

/-- A step that does not end a transaction is a core turn. -/
theorem HostStep.eq_core {ev : Event} {t t' : State} {o : AsmOp} {rest ops' : List HostOp} {v : List Word}
    (h : HostStep ev t (.tx o :: rest) t' ops' v) (hstays : ops' ≠ rest) : ev = .core := by
  cases h with
  | core h => rfl
  | tx h => exact absurd rfl hstays

/-- A step that does not end WAITIDLE is a core turn, or a read of STATUS while BUSY. -/
theorem HostStep.waitIdle_cases {ev : Event} {t t' : State} {rest ops' : List HostOp} {v : List Word}
    (h : HostStep ev t (.waitIdle :: rest) t' ops' v) (hstays : ops' ≠ rest) :
    ev = .core ∨ (ev = .txn (assemble .rstat) ∧ t.busy = true) := by
  cases h with
  | core h => exact .inl rfl
  | poll h hv hb =>
    rw [stepOn_rstat_next h] at hv
    cases hv
    exact .inr ⟨rfl, by rwa [getLsbD_status_zero] at hb⟩
  | idle h hv hb => exact absurd rfl hstays

theorem rstat_not_restarts : ¬(Event.txn (assemble .rstat)).restarts := by
  rintro (h | h)
  · cases (congrArg some decodeHT_rstat).symm.trans h
  · cases h

theorem core_not_restarts : ¬Event.core.restarts := by
  rintro (h | h) <;> cases h

/-- The host cannot wait for ever: its waiting restarts nothing, so the core comes to rest (O58), and then the next read
of STATUS ends WAITIDLE. -/
theorem FairHostRun.waitIdle_ends (h : FairHostRun e s ops) {n : Nat} {rest : List HostOp}
    (hstays : ∀ m, n ≤ m → ops m = .waitIdle :: rest) : False := by
  have hcases (m : Nat) (hm : n ≤ m) : e m = .core ∨ (e m = .txn (assemble .rstat) ∧ (s m).busy = true) := by
    obtain ⟨v, hstep⟩ := h.steps m
    rw [hstays m hm, hstays (m + 1) (by omega)] at hstep
    exact hstep.waitIdle_cases (by simp)
  have hr (m : Nat) (hm : n ≤ m) : ¬(e m).restarts := by
    rcases hcases m hm with he | ⟨he, -⟩ <;> rw [he]
    · exact core_not_restarts
    · exact rstat_not_restarts
  obtain ⟨k, hk, hidle, -⟩ := fairRunsReachRest e s h.run h.fair n hr
  have hrest (m : Nat) (hm : k ≤ m) : (s m).busy = false := by
    induction m, hm using Nat.le_induction with
    | base => exact hidle
    | succ m hm ih =>
      rcases hcases m (by omega) with he | ⟨-, hb⟩
      · have hstep := h.run m
        rw [he] at hstep
        rw [stepOn_core_of_not_busy ih hstep, begin_busy, ih]
      · cases ih.symm.trans hb
  obtain ⟨m, hm, he⟩ := h.host k (by rw [hstays k hk]; simp)
  rcases hcases m (by omega) with he' | ⟨-, hb⟩
  · exact he he'
  · cases (hrest m hm).symm.trans hb

/-- The first operation of the program ends. -/
theorem FairHostRun.first_op_ends (h : FairHostRun e s ops) {n : Nat} {op : HostOp} {rest : List HostOp}
    (hn : ops n = op :: rest) : ∃ m, n ≤ m ∧ ops m = rest := by
  by_contra hnever
  push Not at hnever
  have hstays (m : Nat) (hm : n ≤ m) : ops m = op :: rest := by
    induction m, hm using Nat.le_induction with
    | base => exact hn
    | succ m hm ih =>
      obtain ⟨v, hstep⟩ := h.steps m
      rw [ih] at hstep
      exact hstep.ops_cases.resolve_right (hnever (m + 1) (by omega))
  cases op with
  | waitIdle => exact h.waitIdle_ends hstays
  | tx o =>
    obtain ⟨m, hm, he⟩ := h.host n (by rw [hn]; simp)
    obtain ⟨v, hstep⟩ := h.steps m
    rw [hstays m hm] at hstep
    exact he (hstep.eq_core (hnever (m + 1) (by omega)))

/-- The operations of the program end one after the other. -/
theorem FairHostRun.ends (h : FairHostRun e s ops) (n : Nat) : ∃ m, n ≤ m ∧ ops m = [] := by
  induction hops : ops n generalizing n with
  | nil => exact ⟨n, le_rfl, hops⟩
  | cons op rest ih =>
    obtain ⟨m, hm, hrest⟩ := h.first_op_ends hops
    obtain ⟨k, hk, hdone⟩ := ih m hrest
    exact ⟨k, hm.trans hk, hdone⟩

end

/-- Settles O59: the program ends, and the steps until then are those of `HostRun`. -/
theorem fairHostProgramsEnd : Obligations.FairHostProgramsEnd := by
  intro e s ops h
  obtain ⟨n, -, hdone⟩ := h.ends 0
  obtain ⟨vs, hrun⟩ := h.hostRun 0 n (by rwa [Nat.zero_add])
  rw [Nat.zero_add] at hrun
  exact ⟨n, vs, hdone, hrun⟩

end Sys2Proof.Machine
end
